-- ==== Sys2Proof/Word.lean ====
section
/-! DEFINITION. The word sizes of the 32-bit Nios CPU (spec 00_scope.md R2, R6). -/

namespace Sys2Proof

/-- The native word: register, ALU and data-bus width, 32 bits (R2). -/
abbrev Word := BitVec 32

/-- A half-word, 16 bits: also the width of an instruction word and of a control register (R2, R100). -/
abbrev Half := BitVec 16

/-- A byte, 8 bits (R2). -/
abbrev Byte := BitVec 8

/-- A code address: the 33-bit byte address the program counter holds (R2, R27). -/
abbrev CodeAddr := BitVec 33

/-- The 5-bit index of a visible register, `%r0` to `%r31` (R10, R21). -/
abbrev RegIdx := BitVec 5

end Sys2Proof
end

