-- ==== Sys2Proof/Config.lean ====
section
/-! DEFINITION. What an implementation of the CPU fixes (spec 00_scope.md R4 and the open parameters of
92_eei_decisions.md), and the free values the spec leaves undefined. -/

namespace Sys2Proof

/-- `NREGS`: "a total of either 128, 256, or 512 registers" (R4). -/
inductive RegFile where
  | regs128
  | regs256
  | regs512
deriving DecidableEq, Repr

/-- How many physical registers the file holds, globals included (R4, R20). -/
def RegFile.size : RegFile → Nat
  | .regs128 => 128
  | .regs256 => 256
  | .regs512 => 512

/-- `CWP_MAX = NREGS / 16 - 2`: the highest window pointer whose 32 visible registers all exist (R4, R24). -/
def RegFile.maxWindow (f : RegFile) : Nat := f.size / 16 - 2

/-- What stands behind a range of bus addresses: memory that can be written, memory that cannot, or a peripheral
whose reads the environment answers (20_memory.md R45, R82, R84; 92_eei_decisions.md D1). -/
inductive RegionKind where
  | ram
  | rom
  | device
deriving DecidableEq, Repr

/-- One range of the platform's memory map: the `len` bytes from `base` on. -/
structure Region where
  base : Nat
  len  : Nat
  kind : RegionKind
deriving DecidableEq, Repr

/-- The implementation parameters. They are fixed for one machine: no step changes them. -/
structure Config where
  /-- `NREGS` (R4, U12). -/
  regFile : RegFile
  /-- `WVALID_WRITABLE` (R4, R39, U11). -/
  wvalidWritable : Bool
  /-- `VECBASE`, the byte address of the exception vector table (R4, R282, D3, U13). -/
  vecBase : Word
  /-- `RESET_PC` (R4, R51, D2, U13). -/
  resetPc : CodeAddr
  /-- The map part of `LAUNCH_MEMORY`: an address in no region has nothing behind it (D1, U14). -/
  regions : List Region
  /-- `IFETCH_DISTANCE`: how many instructions must run between a store and a fetch of its bytes (R89, D13, U15). -/
  ifetchDistance : Nat
  /-- `RDCTL_HIGH`: bits 31:16 of a register after RDCTL (R258, D17, U10). -/
  rdctlHigh : Half
  /-- `ADMIT_GK_ENCODINGS`: whether the twelve encodings taken from general knowledge run (R130, D14). -/
  admitGk : Bool
deriving DecidableEq, Repr

/-- What the spec asks of the parameters: the vector table is word aligned and lies in the low 2^32 bytes (D3), the
reset address is even (D2), and no region leaves the 33-bit bus (R70). -/
def Config.legal (c : Config) : Bool :=
  c.vecBase.toNat % 4 == 0 && decide (c.vecBase.toNat + 255 < 2 ^ 32) && c.resetPc.toNat % 2 == 0 &&
    c.regions.all fun r => decide (r.base + r.len ≤ 2 ^ 33)

/-- Free value: what RA receives from a RDCTL of CLR_IE or SET_IE, "an undefined result" (R40, R258, U2). The
argument is the state's count of free values drawn so far. -/
opaque Config.undefinedControlRead : Nat → Word

/-- Free value: the byte a peripheral presents when the address is read, "any value, chosen by the environment"
(R82, U16). The first argument is the count of free values drawn so far, the second the byte address. -/
opaque Config.deviceByte : Nat → Nat → Byte

end Sys2Proof
end

