-- ==== Sys2Proof/Syntax.lean ====
section
/-! DEFINITION. The instructions: one constructor per row of spec/opcode_table.json, the 64 machine instructions and
the 8 assembler aliases (30_encoding.md R120, R128). Field names follow R102: `a` and `b` are register indices (`b` is
IMM5 for AND, ANDN, OR and XOR after a PFX, R108), `p` the pointer field, `n` the immediate. -/

namespace Sys2Proof

inductive Instr where
  -- 40_arith.md
  | add (a b : RegIdx)
  | addi (a : RegIdx) (n : BitVec 5)
  | sub (a b : RegIdx)
  | subi (a : RegIdx) (n : BitVec 5)
  | cmp (a b : RegIdx)
  | cmpi (a : RegIdx) (n : BitVec 5)
  -- 41_logic_shift.md, the shifts
  | lsl (a b : RegIdx)
  | lsli (a : RegIdx) (n : BitVec 5)
  | lsr (a b : RegIdx)
  | lsri (a : RegIdx) (n : BitVec 5)
  | asr (a b : RegIdx)
  | asri (a : RegIdx) (n : BitVec 5)
  -- 42_move_extract.md, the moves
  | mov (a b : RegIdx)
  | movi (a : RegIdx) (n : BitVec 5)
  -- 41_logic_shift.md: `b` names a register, or is IMM5 after a PFX (R108)
  | and (a b : RegIdx)
  | andn (a b : RegIdx)
  | or (a b : RegIdx)
  | xor (a b : RegIdx)
  | bgen (a : RegIdx) (n : BitVec 5)
  | ext8d (a b : RegIdx)
  -- 44_control.md, two of the skips
  | skp0 (a : RegIdx) (n : BitVec 5)
  | skp1 (a : RegIdx) (n : BitVec 5)
  -- 43_load_store.md: `a` is the data register, `b` the address register
  | ld (a b : RegIdx)
  | st (a b : RegIdx)
  | ext16d (a b : RegIdx)
  | movhi (a : RegIdx) (n : BitVec 5)
  | sts8s (n : BitVec 10)
  | sts16s (n : BitVec 9)
  | ext8s (a : RegIdx) (n : BitVec 2)
  | ext16s (a : RegIdx) (n : BitVec 1)
  | st8s (a : RegIdx) (n : BitVec 2)
  | st16s (a : RegIdx) (n : BitVec 1)
  -- 45_system.md
  | save (n : BitVec 8)
  | trap (n : BitVec 6)
  -- format Rw: one register field
  | not (a : RegIdx)
  | neg (a : RegIdx)
  | abs (a : RegIdx)
  | sext8 (a : RegIdx)
  | sext16 (a : RegIdx)
  | rlc (a : RegIdx)
  | rrc (a : RegIdx)
  | swap (a : RegIdx)
  | restore
  | tret (a : RegIdx)
  | st8d (a : RegIdx)
  | st16d (a : RegIdx)
  | fill8 (a : RegIdx)
  | fill16 (a : RegIdx)
  | mstep (a : RegIdx)
  | mul (a : RegIdx)
  | skprz (a : RegIdx)
  /-- `c` is the condition number of the word; 0xe and 0xf are no condition (R130, R236). -/
  | skps (c : BitVec 4)
  | wrctl (a : RegIdx)
  | rdctl (a : RegIdx)
  | skprnz (a : RegIdx)
  | jmp (a : RegIdx)
  | call (a : RegIdx)
  -- 44_control.md, 42_move_extract.md: format i11
  | br (n : BitVec 11)
  | bsr (n : BitVec 11)
  | pfx (n : BitVec 11)
  -- 43_load_store.md: formats RPi5 and Ri8
  | stp (p : BitVec 2) (n : BitVec 5) (a : RegIdx)
  | ldp (p : BitVec 2) (n : BitVec 5) (a : RegIdx)
  | sts (n : BitVec 8) (a : RegIdx)
  | lds (n : BitVec 8) (a : RegIdx)
  -- the assembler aliases (R128, R237): second names for words of the instructions above
  | nop
  | lret
  | ret
  | if0 (a : RegIdx) (n : BitVec 5)
  | if1 (a : RegIdx) (n : BitVec 5)
  | ifrnz (a : RegIdx)
  | ifrz (a : RegIdx)
  /-- `c` is the condition number of the word, as for `skps`. -/
  | ifs (c : BitVec 4)
deriving DecidableEq, Repr

end Sys2Proof
end

