-- ==== Sys2Proof/WellFormed.lean ====
section
/-! DEFINITION. Which instruction terms stand for an instruction word (spec 30_encoding.md R130). The widths of the
fields are in their types; what is left to check is the condition number of SKPS and IFS. -/

namespace Sys2Proof

/-- The condition numbers of R236 run from 0x0 to 0xd: "no condition is defined" for 0xe and 0xf (R130). -/
def isCondition (c : BitVec 4) : Bool := decide (c.toNat < 14)

/-- The instruction has a word. -/
def Instr.wellFormed : Instr → Bool
  | .add _ _ => true
  | .addi _ _ => true
  | .sub _ _ => true
  | .subi _ _ => true
  | .cmp _ _ => true
  | .cmpi _ _ => true
  | .lsl _ _ => true
  | .lsli _ _ => true
  | .lsr _ _ => true
  | .lsri _ _ => true
  | .asr _ _ => true
  | .asri _ _ => true
  | .mov _ _ => true
  | .movi _ _ => true
  | .and _ _ => true
  | .andn _ _ => true
  | .or _ _ => true
  | .xor _ _ => true
  | .bgen _ _ => true
  | .ext8d _ _ => true
  | .skp0 _ _ => true
  | .skp1 _ _ => true
  | .ld _ _ => true
  | .st _ _ => true
  | .ext16d _ _ => true
  | .movhi _ _ => true
  | .sts8s _ => true
  | .sts16s _ => true
  | .ext8s _ _ => true
  | .ext16s _ _ => true
  | .st8s _ _ => true
  | .st16s _ _ => true
  | .save _ => true
  | .trap _ => true
  | .not _ => true
  | .neg _ => true
  | .abs _ => true
  | .sext8 _ => true
  | .sext16 _ => true
  | .rlc _ => true
  | .rrc _ => true
  | .swap _ => true
  | .restore => true
  | .tret _ => true
  | .st8d _ => true
  | .st16d _ => true
  | .fill8 _ => true
  | .fill16 _ => true
  | .mstep _ => true
  | .mul _ => true
  | .skprz _ => true
  | .skps c => isCondition c
  | .wrctl _ => true
  | .rdctl _ => true
  | .skprnz _ => true
  | .jmp _ => true
  | .call _ => true
  | .br _ => true
  | .bsr _ => true
  | .pfx _ => true
  | .stp _ _ _ => true
  | .ldp _ _ _ => true
  | .sts _ _ => true
  | .lds _ _ => true
  | .nop => true
  | .lret => true
  | .ret => true
  | .if0 _ _ => true
  | .if1 _ _ => true
  | .ifrnz _ => true
  | .ifrz _ => true
  | .ifs c => isCondition c

end Sys2Proof
end

