-- ==== Sys2Proof/Decode.lean ====
section
/-! DEFINITION. From bits to instructions and back (spec 30_encoding.md R100 to R114, R120, R128, R130).
The decoder is total and names the reason of every refusal; the encoder is written from the same tables. -/

namespace Sys2Proof

/-- Why a word is no instruction: the cases of R130, and a text too short to hold a word. -/
inductive DecodeError where
  /-- Fewer than two bytes are left: an instruction is 16 bits (R100). -/
  | truncated
  /-- `op6 = 011100`, assigned to no instruction. -/
  | majorOpcode
  /-- Bits 15:11 are `10010`, assigned to no instruction. -/
  | majorOpcodeFive
  /-- Format i9 (STS16s) with bit 0 set. -/
  | i9BitZero
  /-- `op6 = 011101` with `op3u` 010, 011, 110 or 111. -/
  | minorOpcodeU
  /-- Format Ri1u (EXT16s, ST16s) with bit 5 set. -/
  | ri1uBitFive
  /-- `op6 = 011110` with `op2v` 10 or 11. -/
  | minorOpcodeV
  /-- Format i6v (TRAP) with bits 7:6 not 00. -/
  | i6vBitsSevenSix
  /-- `op6 = 011111` with an `op5w` that no instruction has. -/
  | minorOpcodeW
  /-- RESTORE with bits 4:0 not 00000 (format w). -/
  | restoreOperand
  /-- SKPS with bit 4 set (format i4w). -/
  | skpsBitFour
  /-- SKPS with condition number 0xe or 0xf. -/
  | skpsCondition
deriving DecidableEq, Repr

/-- `op6 = 011101`: the minor opcode is `op3u`, bits 9:7 (R111). -/
def decodeU (w : Half) : Except DecodeError Instr :=
  let a := w.extractLsb' 0 5
  match (w.extractLsb' 7 3).toNat with
  | 0 => .ok (.ext8s a (w.extractLsb' 5 2))
  | 1 => if w.getLsbD 5 then .error .ri1uBitFive else .ok (.ext16s a (w.extractLsb' 6 1))
  | 4 => .ok (.st8s a (w.extractLsb' 5 2))
  | 5 => if w.getLsbD 5 then .error .ri1uBitFive else .ok (.st16s a (w.extractLsb' 6 1))
  | _ => .error .minorOpcodeU

/-- `op6 = 011110`: the minor opcode is `op2v`, bits 9:8 (R112). -/
def decodeV (w : Half) : Except DecodeError Instr :=
  match (w.extractLsb' 8 2).toNat with
  | 0 => .ok (.save (w.extractLsb' 0 8))
  | 1 => if w.extractLsb' 6 2 = 0 then .ok (.trap (w.extractLsb' 0 6)) else .error .i6vBitsSevenSix
  | _ => .error .minorOpcodeV

/-- `op6 = 011111`: the minor opcode is `op5w`, bits 9:5 (R113). The words 0x7FCF and 0x7FDF of JMP are read under
their own names, LRET and RET (R226, R227). -/
def decodeW (w : Half) : Except DecodeError Instr :=
  let a := w.extractLsb' 0 5
  match (w.extractLsb' 5 5).toNat with
  | 0 => .ok (.not a)
  | 1 => .ok (.neg a)
  | 2 => .ok (.abs a)
  | 3 => .ok (.sext8 a)
  | 4 => .ok (.sext16 a)
  | 5 => .ok (.rlc a)
  | 6 => .ok (.rrc a)
  | 7 => .error .minorOpcodeW
  | 8 => .ok (.swap a)
  | 9 => .error .minorOpcodeW
  | 10 => .error .minorOpcodeW
  | 11 => .error .minorOpcodeW
  | 12 => .error .minorOpcodeW
  | 13 => if a = 0 then .ok .restore else .error .restoreOperand
  | 14 => .ok (.tret a)
  | 15 => .error .minorOpcodeW
  | 16 => .ok (.st8d a)
  | 17 => .ok (.st16d a)
  | 18 => .ok (.fill8 a)
  | 19 => .ok (.fill16 a)
  | 20 => .ok (.mstep a)
  | 21 => .ok (.mul a)
  | 22 => .ok (.skprz a)
  | 23 => if w.getLsbD 4 then .error .skpsBitFour
    else if isCondition (w.extractLsb' 0 4) then .ok (.skps (w.extractLsb' 0 4)) else .error .skpsCondition
  | 24 => .ok (.wrctl a)
  | 25 => .ok (.rdctl a)
  | 26 => .ok (.skprnz a)
  | 27 => .error .minorOpcodeW
  | 28 => .error .minorOpcodeW
  | 29 => .error .minorOpcodeW
  | 30 => .ok (if a = 15 then .lret else if a = 31 then .ret else .jmp a)
  | _ => .ok (.call a)

/-- Bit 15 is 0: the major opcode is `op6`, bits 15:10 (R110). The word 0x3000 of MOV is read under its own name,
NOP (R195). -/
def decodeSix (w : Half) : Except DecodeError Instr :=
  let a := w.extractLsb' 0 5
  let b := w.extractLsb' 5 5
  match (w.extractLsb' 10 5).toNat with
  | 0 => .ok (.add a b)
  | 1 => .ok (.addi a b)
  | 2 => .ok (.sub a b)
  | 3 => .ok (.subi a b)
  | 4 => .ok (.cmp a b)
  | 5 => .ok (.cmpi a b)
  | 6 => .ok (.lsl a b)
  | 7 => .ok (.lsli a b)
  | 8 => .ok (.lsr a b)
  | 9 => .ok (.lsri a b)
  | 10 => .ok (.asr a b)
  | 11 => .ok (.asri a b)
  | 12 => .ok (if a = 0 ∧ b = 0 then .nop else .mov a b)
  | 13 => .ok (.movi a b)
  | 14 => .ok (.and a b)
  | 15 => .ok (.andn a b)
  | 16 => .ok (.or a b)
  | 17 => .ok (.xor a b)
  | 18 => .ok (.bgen a b)
  | 19 => .ok (.ext8d a b)
  | 20 => .ok (.skp0 a b)
  | 21 => .ok (.skp1 a b)
  | 22 => .ok (.ld a b)
  | 23 => .ok (.st a b)
  | 24 => .ok (.sts8s (w.extractLsb' 0 10))
  | 25 => if w.getLsbD 0 then .error .i9BitZero else .ok (.sts16s (w.extractLsb' 1 9))
  | 26 => .ok (.ext16d a b)
  | 27 => .ok (.movhi a b)
  | 28 => .error .majorOpcode
  | 29 => decodeU w
  | 30 => decodeV w
  | _ => decodeW w

/-- The instruction of one word, read "from bit 15 down" (R103, R114). A word that is both an alias with a word of its
own (NOP, LRET, RET) and a machine instruction is read as the alias; a word whose alias names exactly the words of a
machine instruction (IF0, IF1, IFRz, IFRnz, IFS) is read as the machine instruction. -/
def decodeWord (w : Half) : Except DecodeError Instr :=
  let a := w.extractLsb' 0 5
  if w.extractLsb' 13 3 = 0b111#3 then .ok (.lds (w.extractLsb' 5 8) a)
  else if w.extractLsb' 13 3 = 0b110#3 then .ok (.sts (w.extractLsb' 5 8) a)
  else if w.extractLsb' 12 4 = 0b1011#4 then .ok (.ldp (w.extractLsb' 10 2) (w.extractLsb' 5 5) a)
  else if w.extractLsb' 12 4 = 0b1010#4 then .ok (.stp (w.extractLsb' 10 2) (w.extractLsb' 5 5) a)
  else if w.extractLsb' 11 5 = 0b10000#5 then .ok (.br (w.extractLsb' 0 11))
  else if w.extractLsb' 11 5 = 0b10001#5 then .ok (.bsr (w.extractLsb' 0 11))
  else if w.extractLsb' 11 5 = 0b10010#5 then .error .majorOpcodeFive
  else if w.extractLsb' 11 5 = 0b10011#5 then .ok (.pfx (w.extractLsb' 0 11))
  else decodeSix w

/-- The 16-bit word of two bytes in memory order: the byte at the lower address is bits 7:0 (R73). -/
def wordOfBytes (lo hi : Byte) : Half := hi ++ lo

/-- The bytes of a word in memory order (R73). -/
def bytesOfWord (w : Half) : List Byte := [w.extractLsb' 0 8, w.extractLsb' 8 8]

/-- The first instruction of a text of bytes, and the bytes after it. -/
def decode : List Byte → Except DecodeError (Instr × List Byte)
  | lo :: hi :: rest =>
    match decodeWord (wordOfBytes lo hi) with
    | .ok i => .ok (i, rest)
    | .error e => .error e
  | _ => .error .truncated

/-- The instruction the decoder reads from an instruction of a table row: `nbits` bits, numbered with bit 0 the least
significant bit of the word, every bit above them 0. -/
def decodeTableWord (nbits w : Nat) : Option Instr :=
  match decode (bytesOfWord (BitVec.ofNat 16 (w % 2 ^ nbits))) with
  | .ok (i, _) => some i
  | .error _ => none

/-- The formats RR and Ri5: op6, a 5-bit field, field A (R101). -/
def rr (op : BitVec 6) (b a : BitVec 5) : Half := op ++ b ++ a

/-- The formats Ri2u and Ri1u under `op6 = 011101`: op3u, two bits, field A (R101, R111). -/
def ri2u (op : BitVec 3) (n : BitVec 2) (a : RegIdx) : Half := 0b011101#6 ++ op ++ n ++ a

/-- The formats Rw and w under `op6 = 011111`: op5w, field A (R101, R113). -/
def rw (op : BitVec 5) (a : RegIdx) : Half := 0b011111#6 ++ op ++ a

/-- The word of an instruction, from R110 to R114 and, for the aliases, R128. -/
def encodeWord : Instr → Half
  | .add a b => rr 0b000000#6 b a
  | .addi a n => rr 0b000001#6 n a
  | .sub a b => rr 0b000010#6 b a
  | .subi a n => rr 0b000011#6 n a
  | .cmp a b => rr 0b000100#6 b a
  | .cmpi a n => rr 0b000101#6 n a
  | .lsl a b => rr 0b000110#6 b a
  | .lsli a n => rr 0b000111#6 n a
  | .lsr a b => rr 0b001000#6 b a
  | .lsri a n => rr 0b001001#6 n a
  | .asr a b => rr 0b001010#6 b a
  | .asri a n => rr 0b001011#6 n a
  | .mov a b => rr 0b001100#6 b a
  | .movi a n => rr 0b001101#6 n a
  | .and a b => rr 0b001110#6 b a
  | .andn a b => rr 0b001111#6 b a
  | .or a b => rr 0b010000#6 b a
  | .xor a b => rr 0b010001#6 b a
  | .bgen a n => rr 0b010010#6 n a
  | .ext8d a b => rr 0b010011#6 b a
  | .skp0 a n => rr 0b010100#6 n a
  | .skp1 a n => rr 0b010101#6 n a
  | .ld a b => rr 0b010110#6 b a
  | .st a b => rr 0b010111#6 b a
  | .ext16d a b => rr 0b011010#6 b a
  | .movhi a n => rr 0b011011#6 n a
  | .sts8s n => 0b011000#6 ++ n
  | .sts16s n => 0b011001#6 ++ n ++ 0#1
  | .ext8s a n => ri2u 0b000#3 n a
  | .ext16s a n => ri2u 0b001#3 (n ++ 0#1) a
  | .st8s a n => ri2u 0b100#3 n a
  | .st16s a n => ri2u 0b101#3 (n ++ 0#1) a
  | .save n => 0b011110#6 ++ 0b00#2 ++ n
  | .trap n => 0b011110#6 ++ 0b01#2 ++ 0#2 ++ n
  | .not a => rw 0b00000#5 a
  | .neg a => rw 0b00001#5 a
  | .abs a => rw 0b00010#5 a
  | .sext8 a => rw 0b00011#5 a
  | .sext16 a => rw 0b00100#5 a
  | .rlc a => rw 0b00101#5 a
  | .rrc a => rw 0b00110#5 a
  | .swap a => rw 0b01000#5 a
  | .restore => rw 0b01101#5 0#5
  | .tret a => rw 0b01110#5 a
  | .st8d a => rw 0b10000#5 a
  | .st16d a => rw 0b10001#5 a
  | .fill8 a => rw 0b10010#5 a
  | .fill16 a => rw 0b10011#5 a
  | .mstep a => rw 0b10100#5 a
  | .mul a => rw 0b10101#5 a
  | .skprz a => rw 0b10110#5 a
  | .skps c => 0b011111#6 ++ 0b10111#5 ++ 0#1 ++ c
  | .wrctl a => rw 0b11000#5 a
  | .rdctl a => rw 0b11001#5 a
  | .skprnz a => rw 0b11010#5 a
  | .jmp a => rw 0b11110#5 a
  | .call a => rw 0b11111#5 a
  | .br n => 0b10000#5 ++ n
  | .bsr n => 0b10001#5 ++ n
  | .pfx n => 0b10011#5 ++ n
  | .stp p n a => 0b1010#4 ++ p ++ n ++ a
  | .ldp p n a => 0b1011#4 ++ p ++ n ++ a
  | .sts n a => 0b110#3 ++ n ++ a
  | .lds n a => 0b111#3 ++ n ++ a
  | .nop => rr 0b001100#6 0#5 0#5
  | .lret => rw 0b11110#5 15#5
  | .ret => rw 0b11110#5 31#5
  | .if0 a n => rr 0b010101#6 n a
  | .if1 a n => rr 0b010100#6 n a
  | .ifrnz a => rw 0b10110#5 a
  | .ifrz a => rw 0b11010#5 a
  | .ifs c => 0b011111#6 ++ 0b10111#5 ++ 0#1 ++ c

/-- The bytes of an instruction in memory order. Every instruction is one word (R100). -/
def encode (i : Instr) : List Byte := bytesOfWord (encodeWord i)

/-- The name under which the decoder reads the word of an instruction: an alias whose words are all a machine
instruction's becomes that instruction (R237), and MOV %g0,%g0, JMP %o7 and JMP %i7 become NOP, LRET and RET (R195,
R226, R227). -/
def Instr.canonical : Instr → Instr
  | .mov a b => if a = 0 ∧ b = 0 then .nop else .mov a b
  | .jmp a => if a = 15 then .lret else if a = 31 then .ret else .jmp a
  | .if0 a n => .skp1 a n
  | .if1 a n => .skp0 a n
  | .ifrnz a => .skprz a
  | .ifrz a => .skprnz a
  | .ifs c => .skps c
  | i => i

/-- The twelve instructions whose encoding is taken from general knowledge (93_implementation_defined.md G1 to G12). -/
def Instr.fromGeneralKnowledge : Instr → Bool
  | .add _ _ => false
  | .addi _ _ => false
  | .sub _ _ => false
  | .subi _ _ => false
  | .cmp _ _ => false
  | .cmpi _ _ => false
  | .lsl _ _ => false
  | .lsli _ _ => false
  | .lsr _ _ => false
  | .lsri _ _ => false
  | .asr _ _ => false
  | .asri _ _ => false
  | .mov _ _ => false
  | .movi _ _ => false
  | .and _ _ => false
  | .andn _ _ => false
  | .or _ _ => false
  | .xor _ _ => false
  | .bgen _ _ => false
  | .ext8d _ _ => false
  | .skp0 _ _ => false
  | .skp1 _ _ => false
  | .ld _ _ => false
  | .st _ _ => true
  | .ext16d _ _ => false
  | .movhi _ _ => false
  | .sts8s _ => true
  | .sts16s _ => true
  | .ext8s _ _ => false
  | .ext16s _ _ => false
  | .st8s _ _ => true
  | .st16s _ _ => true
  | .save _ => false
  | .trap _ => true
  | .not _ => false
  | .neg _ => false
  | .abs _ => false
  | .sext8 _ => false
  | .sext16 _ => false
  | .rlc _ => false
  | .rrc _ => false
  | .swap _ => true
  | .restore => false
  | .tret _ => true
  | .st8d _ => true
  | .st16d _ => true
  | .fill8 _ => false
  | .fill16 _ => false
  | .mstep _ => false
  | .mul _ => false
  | .skprz _ => false
  | .skps _ => false
  | .wrctl _ => true
  | .rdctl _ => true
  | .skprnz _ => false
  | .jmp _ => false
  | .call _ => false
  | .br _ => false
  | .bsr _ => false
  | .pfx _ => false
  | .stp _ _ _ => false
  | .ldp _ _ _ => false
  | .sts _ _ => false
  | .lds _ _ => false
  | .nop => false
  | .lret => false
  | .ret => false
  | .if0 _ _ => false
  | .if1 _ _ => false
  | .ifrnz _ => false
  | .ifrz _ => false
  | .ifs _ => false

end Sys2Proof
end

