-- ==== Sys2Proof/Machine/Platform.lean ====
section
/-! DEFINITION. The parameters of the machine that reset builds, where the spec leaves them open or names a default
(spec 00_scope.md R4, 92_eei_decisions.md). Every other choice of them is another value of State's field `cfg`. -/

namespace Sys2Proof.Machine

/-- The whole 33-bit bus as one read-write memory. DESIGN CHOICE (log 5): the ISA fixes no memory map (R84, D1). -/
def platformRegions : List Region := [⟨0, 2 ^ 33, .ram⟩]

/-- `VECBASE`. DESIGN CHOICE (log 4): open in the spec (D3); the value of the spec's own test vectors. -/
def platformVecBase : Word := 0

/-- `RESET_PC`. DESIGN CHOICE (log 3): open in the spec (D2); the start address of the spec's own test vectors. -/
def platformResetPc : CodeAddr := 0x100

/-- The parameters at reset: NREGS 256 and a writable WVALID are R4's defaults, IFETCH_DISTANCE 4 and RDCTL_HIGH 0 the
values that D13 and D17 suggest; the twelve general-knowledge encodings are admitted (D14, log 2). -/
def platform : Config where
  regFile := .regs256
  wvalidWritable := true
  vecBase := platformVecBase
  resetPc := platformResetPc
  regions := platformRegions
  ifetchDistance := 4
  rdctlHigh := 0
  admitGk := true

end Sys2Proof.Machine
end

