-- ==== Sys2Proof/Machine/State.lean ====
section
/-! DEFINITION. The state of the machine as plain data, the reasons a step can stop, and the state after reset
(spec 10_state.md, 70_reset_and_hazards.md R301). -/

namespace Sys2Proof.Machine

/-- Memory: (address, byte) pairs, addresses strictly rising, no byte equal to what an unlisted address reads as. -/
abbrev Memory := List Host.Cell

/-- The faults of the machine: none. "The hardware has no fault" (R12, R271), and 93_implementation_defined.md uses the
treatment `fault` for no case; what the spec leaves undefined is a refusal (log 25). -/
inductive Fault where
deriving DecidableEq, Repr

/-- Where the spec gives the machine no behaviour ("undefined", treatment "refuse" in 93_implementation_defined.md).
Each is safe: the hardware goes on in some way the spec does not describe, and nothing is proved through it. -/
inductive Refusal where
  /-- Raised by exec for an instruction whose meaning is not written. Safe. -/
  | notModelled (mnemonic : String)
  /-- Raised by the step on a word that is no instruction (R130, U7). Safe. -/
  | unassignedEncoding (why : DecodeError)
  /-- Raised by the step on one of the twelve general-knowledge encodings when ADMIT_GK_ENCODINGS is off (D14). Safe. -/
  | unconfirmedEncoding
  /-- Raised by SKPS and IFS with condition number 0xe or 0xf (R130, R236, U7). Safe. -/
  | undefinedCondition
  /-- Raised by PFX when the previous instruction was PFX (R181, R313, U1). Safe. -/
  | consecutivePfx
  /-- Raised by the twelve instructions of R311 when they stand in a delay slot (U3). Safe. -/
  | forbiddenInDelaySlot
  /-- Raised by every instruction but NOP that follows a WRCTL to STATUS (R49, R312, U4). Safe. -/
  | nopRequired
  /-- Raised by SAVE and exception entry at CWP = 0 and by RESTORE at CWP = 31 (R36, R287, D7, U5). Safe. -/
  | windowPointerRange
  /-- Raised by a read or write of `%r8` to `%r31` while CWP is above CWP_MAX (R24, D7, U5). Safe. -/
  | unmappedWindow
  /-- Raised by RDCTL and WRCTL with a K that selects no defined control register (R40, D15, U6). Safe. -/
  | undefinedControlRegister (number : BitVec 11)
  /-- Raised by an instruction whose next pc, branch target or link address is outside 0 to 2^33 - 2 (R28, D8, U8).
  Safe. -/
  | leavesAddressSpace
  /-- Raised by a fetch, load, store or vector fetch of a byte that no region of the memory map holds (R271, D1, U14).
  Safe. -/
  | unmappedAddress (addr : Nat)
  /-- Raised by a store to a byte of a read-only region (R271, U14). Safe. -/
  | storeToReadOnly (addr : Nat)
  /-- Raised by exception entry through a vector table entry in memory of which a byte was never written (R282, U14).
  Safe. -/
  | vectorNeverWritten (addr : Nat)
  /-- Raised by an instruction fetch of bytes stored fewer than IFETCH_DISTANCE instructions ago (R89, D13, U15). Safe. -/
  | fetchTooSoonAfterStore (addr : Nat)
deriving DecidableEq, Repr

/-- A store whose bytes may not be fetched yet: `left` more instructions must run first (R89). -/
structure RecentStore where
  addr : Nat
  len  : Nat
  left : Nat
deriving DecidableEq, Repr

/-- One byte that the environment writes to memory it shares with the CPU (R86, D11). -/
structure BusWrite where
  addr  : BitVec 33
  value : Byte
deriving DecidableEq, Repr

/-- How many bytes the exception vector table has (R84, R282). -/
abbrev tableSize : Nat := 256

/-- The state. Every field but the last five is the spec's; those five are the model's own: which bytes of the vector
table hold a value (R282), the fetch-after-store window of R89, the environment's inputs (R46, R275, D11) and the count
of free values drawn. -/
structure State where
  /-- The implementation parameters (R4). -/
  cfg : Config
  /-- The physical registers `RF[0]` to `RF[NREGS-1]` (R20). Entries at or above NREGS are no registers: no operation
  reads or writes them. -/
  rf : Vector Word 512
  /-- The program counter (R27). -/
  pc : CodeAddr
  /-- The K register (R29). -/
  k : BitVec 11
  /-- `PFXF`: the previous executed instruction was PFX (R31). -/
  pfxf : Bool
  /-- `BT`: the pending branch target while the delay slot runs (R32). -/
  bt : Option CodeAddr
  /-- `NOPREQ`: the previous executed instruction was a WRCTL that wrote STATUS (R49). -/
  nopReq : Bool
  /-- `%ctl0`, STATUS (R33). -/
  status : Half
  /-- `%ctl1`, ISTATUS (R38). -/
  istatus : Half
  /-- `%ctl2`, WVALID (R39). -/
  wvalid : Half
  /-- Memory (R45). -/
  mem : Memory
  /-- One bit for each byte of the vector table, counted from VECBASE: it has been written since power-on (R282). Only
  bytes in memory that can be written are asked for theirs. -/
  tableWritten : BitVec tableSize
  /-- The stores whose bytes may not be fetched yet (R89). -/
  recentStores : List RecentStore
  /-- The samples of the inputs `irq` and `irq_number`, one a step, the next first: `some n` when `irq` is 1 and
  `irq_number` is `n`. When the list is empty `irq` is 0 (R46, R275). -/
  irqInputs : List (Option (BitVec 6))
  /-- The bytes the environment writes to memory before each step, one list a step, the next first, in order. When the
  list is empty it writes none (R86, D11). -/
  busWrites : List (List BusWrite)
  /-- How many free values have been drawn. -/
  freeCount : Nat
deriving DecidableEq, Repr

/-- STATUS after reset: IE 0, IPRI 63, CWP = CWP_MAX (R50); the flags, which the spec leaves open, 0 (R51, log 7). -/
def resetStatus (f : RegFile) : Half := 0#1 ++ 63#6 ++ BitVec.ofNat 5 f.maxWindow ++ 0#4

/-- WVALID after reset: HI_LIMIT = CWP_MAX in bits 9:5, LO_LIMIT = 1 in bits 4:0 (R39, R50). -/
def resetWvalid (f : RegFile) : Half := 0#6 ++ BitVec.ofNat 5 f.maxWindow ++ 1#5

/-- The machine with the parameters `c` right after reset (R301). The registers, which the spec leaves open, hold 0
(R51, log 6); memory has nothing listed (log 5), and a vector table in it "holds nothing until software writes it"
(R302); the environment requests no interrupt and writes no byte (log 21, 44). -/
def State.resetWith (c : Config) : State where
  cfg := c
  rf := Vector.replicate 512 0
  pc := c.resetPc
  k := 0
  pfxf := false
  bt := none
  nopReq := false
  status := resetStatus c.regFile
  istatus := 0
  wvalid := resetWvalid c.regFile
  mem := []
  tableWritten := 0
  recentStores := []
  irqInputs := []
  busWrites := []
  freeCount := 0

/-- The machine right after reset. -/
def State.reset : State := State.resetWith platform

end Sys2Proof.Machine
end

