-- ==== Sys2Proof/Machine/Flags.lean ====
section
/-! DEFINITION. The fields of STATUS and WVALID, the flag computations, and the condition table
(spec 10_state.md R33 to R43, 44_control.md R236). -/

namespace Sys2Proof.Machine

/-- The four condition flags (R37). -/
structure Flags where
  n : Bool
  v : Bool
  z : Bool
  c : Bool
deriving DecidableEq, Repr

/-- IE, bit 15 (R33). -/
def ieOf (st : Half) : Bool := st.getLsbD 15

/-- IPRI, bits 14:9 (R33). -/
def ipriOf (st : Half) : BitVec 6 := st.extractLsb' 9 6

/-- CWP, bits 8:4 (R33). -/
def cwpOf (st : Half) : BitVec 5 := st.extractLsb' 4 5

/-- The flags N, V, Z, C, bits 3 to 0 (R33). -/
def flagsOf (st : Half) : Flags := ⟨st.getLsbD 3, st.getLsbD 2, st.getLsbD 1, st.getLsbD 0⟩

/-- The flags as the four bits N V Z C. -/
def flagBits (f : Flags) : BitVec 4 := BitVec.ofBool f.n ++ BitVec.ofBool f.v ++ BitVec.ofBool f.z ++ BitVec.ofBool f.c

/-- STATUS from its fields, in the order of R33. The fields fill all 16 bits. -/
def packStatus (ie : Bool) (ipri : BitVec 6) (cwp : BitVec 5) (f : Flags) : Half :=
  BitVec.ofBool ie ++ ipri ++ cwp ++ flagBits f

/-- STATUS with other flags. -/
def withFlagsOf (st : Half) (f : Flags) : Half := packStatus (ieOf st) (ipriOf st) (cwpOf st) f

/-- STATUS with another CWP. -/
def withCwpOf (st : Half) (w : BitVec 5) : Half := packStatus (ieOf st) (ipriOf st) w (flagsOf st)

/-- STATUS with another IE. -/
def withIeOf (st : Half) (ie : Bool) : Half := packStatus ie (ipriOf st) (cwpOf st) (flagsOf st)

/-- LO_LIMIT, bits 4:0 of WVALID (R39). -/
def loLimitOf (wv : Half) : BitVec 5 := wv.extractLsb' 0 5

/-- HI_LIMIT, bits 9:5 of WVALID (R39). -/
def hiLimitOf (wv : Half) : BitVec 5 := wv.extractLsb' 5 5

/-- `STATUS.IE` (R34). -/
def State.ie (s : State) : Bool := ieOf s.status

/-- `STATUS.IPRI` (R35). -/
def State.ipri (s : State) : BitVec 6 := ipriOf s.status

/-- `STATUS.CWP` (R36). -/
def State.cwp (s : State) : BitVec 5 := cwpOf s.status

/-- The flags in STATUS (R37). -/
def State.flags (s : State) : Flags := flagsOf s.status

/-- `WVALID.LO_LIMIT` (R39). -/
def State.loLimit (s : State) : BitVec 5 := loLimitOf s.wvalid

/-- `WVALID.HI_LIMIT` (R39). -/
def State.hiLimit (s : State) : BitVec 5 := hiLimitOf s.wvalid

/-- The state with other flags and the rest of STATUS as it was. -/
def State.setFlags (s : State) (f : Flags) : State := { s with status := withFlagsOf s.status f }

/-- The state with another CWP and the rest of STATUS as it was. -/
def State.setCwp (s : State) (w : BitVec 5) : State := { s with status := withCwpOf s.status w }

/-- The state with another IE and the rest of STATUS as it was (R34). -/
def State.setIe (s : State) (ie : Bool) : State := { s with status := withIeOf s.status ie }

/-- `flags_NZ(r)`: N and Z from the result, V and C kept (R41). -/
def flagsNZ (r : Word) (old : Flags) : Flags := { old with n := r.msb, z := r == 0 }

/-- `flags_add(a, b, r)` for `r = a + b` (R42). -/
def flagsAdd (a b : Word) : Flags where
  n := (a + b).msb
  v := a.msb == b.msb && (a + b).msb != a.msb
  z := a + b == 0
  c := decide (2 ^ 32 ≤ a.toNat + b.toNat)

/-- `flags_sub(a, b, r)` for `r = a - b`: C is the borrow (R43). -/
def flagsSub (a b : Word) : Flags where
  n := (a - b).msb
  v := a.msb != b.msb && (a - b).msb != a.msb
  z := a - b == 0
  c := decide (a.toNat < b.toNat)

/-- `cond(IMM4)`, the condition table of IFS (R236); none for 0xe and 0xf. -/
def condition (c : BitVec 4) (f : Flags) : Option Bool :=
  match c.toNat with
  | 0 => some (!f.c)
  | 1 => some f.c
  | 2 => some (!f.z)
  | 3 => some f.z
  | 4 => some (!f.n)
  | 5 => some f.n
  | 6 => some (f.n ^^ f.v)
  | 7 => some (!(f.n ^^ f.v))
  | 8 => some (!(f.z || (f.n ^^ f.v)))
  | 9 => some (f.z || (f.n ^^ f.v))
  | 10 => some (!f.v)
  | 11 => some f.v
  | 12 => some (!(f.c || f.z))
  | 13 => some (f.c || f.z)
  | _ => none

end Sys2Proof.Machine
end

