-- ==== Sys2Proof/Machine/Memory.lean ====
section
/-! DEFINITION. Memory as a canonical list of bytes: reading, writing, and the byte order (spec 20_memory.md R72 to
R75). The laws of these operations are in Sys2Proof/Laws/Memory.lean. -/

namespace Sys2Proof.Machine

/-- What a byte of memory reads as when no entry lists it. DESIGN CHOICE (log 5): the spec gives memory no reset
contents (R51). -/
def Memory.blank : Byte := 0

/-- The byte at an address. -/
def Memory.read : Memory → Nat → Byte
  | [], _ => Memory.blank
  | (b, v) :: rest, a => if b = a then v else Memory.read rest a

/-- Memory without an entry for an address. -/
def Memory.erase : Memory → Nat → Memory
  | [], _ => []
  | (b, v) :: rest, a => if b = a then Memory.erase rest a else (b, v) :: Memory.erase rest a

/-- An entry put where its address belongs. -/
def Memory.insert : Memory → Nat → Byte → Memory
  | [], a, v => [(a, v)]
  | (b, w) :: rest, a, v => if a < b then (a, v) :: (b, w) :: rest else (b, w) :: Memory.insert rest a v

/-- One byte written. Writing what an unlisted address reads as removes the entry, so that equal memories are equal
lists. -/
def Memory.write (m : Memory) (a : Nat) (v : Byte) : Memory :=
  if v = Memory.blank then Memory.erase m a else Memory.insert (Memory.erase m a) a v

/-- Every address is at least `lo` and below 2^33, addresses rise strictly, and no byte is the blank one. -/
def Memory.wfFrom : Nat → Memory → Bool
  | _, [] => true
  | lo, (a, v) :: rest => decide (lo ≤ a) && decide (a < 2 ^ 33) && v != Memory.blank && Memory.wfFrom (a + 1) rest

/-- The canonical form of memory. -/
def Memory.wf (m : Memory) : Bool := Memory.wfFrom 0 m

/-- The half-word of two bytes, the byte at the lower address first (R72, R73). -/
def halfOfBytes (b0 b1 : Byte) : Half := b1 ++ b0

/-- The word of four bytes, the byte at the lowest address first: byte `n` is bits `8n + 7 : 8n` (R72). -/
def wordOfFour (b0 b1 b2 b3 : Byte) : Word := b3 ++ b2 ++ b1 ++ b0

/-- Byte `n` of a word, bits `8n + 7 : 8n` (R180). -/
def byteOf (x : Word) (n : Nat) : Byte := x.extractLsb' (8 * n) 8

/-- Half-word `n` of a word, bits `16n + 15 : 16n` (R180). -/
def halfOf (x : Word) (n : Nat) : Half := x.extractLsb' (16 * n) 16

/-- The bytes of a half-word, the one for the lower address first (R72). -/
def halfBytes (h : Half) : List Byte := [h.extractLsb' 0 8, h.extractLsb' 8 8]

/-- The bytes of a word, the one for the lowest address first (R72, R75). -/
def wordBytes (x : Word) : List Byte := [byteOf x 0, byteOf x 1, byteOf x 2, byteOf x 3]

end Sys2Proof.Machine
end

