-- ==== Sys2Proof/Machine/Ops.lean ====
section
/-! DEFINITION. The shared operations of the meanings: registers through the window, bus accesses, instruction fetch,
the end of an instruction, and taking and leaving an exception (spec 00_scope.md R11, 10_state.md R23 to R32,
20_memory.md R74 to R79, 60_exceptions.md R276 to R283). -/

namespace Sys2Proof.Machine

/-- A result, or the refusal that stands for what the spec leaves `undefined` (R10). -/
abbrev Res (α : Type) := Except Refusal α

/-- The outcome of a step whose result is a state. The machine has no fault (R12). -/
def outcome : Res State → Host.Outcome State Fault Refusal
  | .ok s => .next s
  | .error r => .refused r

/-- Stop with a refusal unless the condition holds. -/
def require (ok : Bool) (r : Refusal) : Res Unit := if ok then .ok () else .error r

/-! ### Registers through the window -/

/-- The physical register `phys(i, w)` of visible register `i` in window `w` (R23). -/
def physIndex (w : BitVec 5) (i : RegIdx) : Nat :=
  if i.toNat < 8 then i.toNat else 16 * w.toNat + i.toNat

/-- The visible register exists: it is a global, or the window is mapped (R24). -/
def State.reachable (s : State) (i : RegIdx) : Bool :=
  decide (i.toNat < 8) || decide (s.cwp.toNat ≤ s.cfg.regFile.maxWindow)

/-- The content of a physical register. -/
def State.phys (s : State) (q : Nat) : Word := if h : q < 512 then s.rf[q] else 0

/-- The state with a physical register changed. -/
def State.setPhys (s : State) (q : Nat) (v : Word) : State := { s with rf := if h : q < 512 then s.rf.set q v h else s.rf }

/-- `x[i]`: the content of a visible register (R10, R23). -/
def State.reg (s : State) (i : RegIdx) : Word := s.phys (physIndex s.cwp i)

/-- `x[i] <- v` (R10, R23). -/
def State.setReg (s : State) (i : RegIdx) (v : Word) : State := s.setPhys (physIndex s.cwp i) v

/-- A read of a visible register; a register the file does not have stops it (R24). -/
def readReg (s : State) (i : RegIdx) : Res Word :=
  if s.reachable i then .ok (s.reg i) else .error .unmappedWindow

/-- A write of a visible register; a register the file does not have stops it (R24). No register is hardwired (R26). -/
def writeReg (s : State) (i : RegIdx) (v : Word) : Res State :=
  if s.reachable i then .ok (s.setReg i v) else .error .unmappedWindow

/-! ### The bus -/

/-- What stands behind a bus address: the kind of the first region that holds it, none where nothing does (D1). -/
def kindIn : List Region → Nat → Option RegionKind
  | [], _ => none
  | r :: rest, a => if r.base ≤ a ∧ a < r.base + r.len then some r.kind else kindIn rest a

/-- What stands behind a bus address on this machine's platform. -/
def State.kindAt (s : State) (a : Nat) : Option RegionKind := kindIn s.cfg.regions a

/-- The first of the `n` addresses from `a` on that has the property. -/
def firstAddr (p : Nat → Bool) : Nat → Nat → Option Nat
  | _, 0 => none
  | a, n + 1 => if p a then some a else firstAddr p (a + 1) n

/-- Nothing stands behind the address. -/
def State.isUnmapped (s : State) (a : Nat) : Bool := (s.kindAt a).isNone

/-- A peripheral stands behind the address. -/
def State.isDevice (s : State) (a : Nat) : Bool := s.kindAt a == some .device

/-- Memory that can be written stands behind the address. -/
def State.isRam (s : State) (a : Nat) : Bool := s.kindAt a == some .ram

/-- Memory that cannot be written stands behind the address. -/
def State.isReadOnly (s : State) (a : Nat) : Bool := s.kindAt a == some .rom

/-- The byte of memory at an address. -/
def State.byteAt (s : State) (a : Nat) : Byte := s.mem.read a

/-- The byte a read of an address presents: memory's, or for a peripheral the environment's, a free value (R74, R82). -/
def State.busByte (s : State) (a : Nat) : Byte :=
  if s.isDevice a then Config.deviceByte s.freeCount a else s.byteAt a

/-- The half-word a read of two addresses presents, little-endian (R73, R74). -/
def State.busHalf (s : State) (a : Nat) : Half := halfOfBytes (s.busByte a) (s.busByte (a + 1))

/-- The word a read of four addresses presents, little-endian (R72, R74). -/
def State.busWord (s : State) (a : Nat) : Word :=
  wordOfFour (s.busByte a) (s.busByte (a + 1)) (s.busByte (a + 2)) (s.busByte (a + 3))

/-- The state after a read of `n` bytes: the count moves on when a free value was drawn. -/
def State.afterRead (s : State) (a n : Nat) : State :=
  { s with freeCount := if (firstAddr s.isDevice a n).isSome then s.freeCount + 1 else s.freeCount }

/-- `MemRead(a, 4)` of a data access (R74). -/
def loadWord (s : State) (a : Nat) : Res (Word × State) :=
  match firstAddr s.isUnmapped a 4 with
  | some b => .error (.unmappedAddress b)
  | none => .ok (s.busWord a, s.afterRead a 4)

/-- Memory after the bytes are written from the address up. A byte for a peripheral goes to the environment and leaves
memory alone (R75, R82). -/
def writeBytes (device : Nat → Bool) : Memory → Nat → List Byte → Memory
  | m, _, [] => m
  | m, a, v :: rest => writeBytes device (if device a then m else m.write a v) (a + 1) rest

/-- The vector table at `base` holds the address. -/
def inTable (base a : Nat) : Bool := decide (base ≤ a) && decide (a < base + tableSize)

/-- Which bytes of the vector table at `base` have been written, after a write of the `n` bytes from `a` on, of those
with the property (R282). -/
def markWritten (ram : Nat → Bool) (base : Nat) : BitVec tableSize → Nat → Nat → BitVec tableSize
  | v, _, 0 => v
  | v, a, n + 1 =>
    markWritten ram base (if ram a && inTable base a then v ||| BitVec.twoPow tableSize (a - base) else v) (a + 1) n

/-- The vector table's written bytes after a write of `n` bytes of memory from `a` on. -/
def State.tableAfter (s : State) (a n : Nat) : BitVec tableSize :=
  markWritten s.isRam s.cfg.vecBase.toNat s.tableWritten a n

/-- The state after a store: its bytes may not be fetched before IFETCH_DISTANCE more instructions have run (R89). -/
def State.stored (s : State) (a : Nat) (bytes : List Byte) : State :=
  { s with
    mem := writeBytes s.isDevice s.mem a bytes
    tableWritten := s.tableAfter a bytes.length
    recentStores := ⟨a, bytes.length, s.cfg.ifetchDistance + 1⟩ :: s.recentStores }

/-- `MemWrite(a, n, v)` with the bytes of `v`, the least significant first (R75). -/
def storeBytes (s : State) (a : Nat) (bytes : List Byte) : Res State :=
  match firstAddr s.isUnmapped a bytes.length with
  | some b => .error (.unmappedAddress b)
  | none =>
    match firstAddr s.isReadOnly a bytes.length with
    | some b => .error (.storeToReadOnly b)
    | none => .ok (s.stored a bytes)

/-- A recent store wrote the byte at the address. -/
def State.isFresh (s : State) (a : Nat) : Bool :=
  s.recentStores.any fun r => decide (r.addr ≤ a) && decide (a < r.addr + r.len)

/-- The half-word of memory at an address, little-endian (R73). -/
def State.halfAt (s : State) (a : Nat) : Half := halfOfBytes (s.byteAt a) (s.byteAt (a + 1))

/-- `MemRead(p, 2)` of an instruction fetch (R74, R76), with the fetch-after-store rule of R89. Every address may be
executed (R295): from a peripheral's the word is what the peripheral presents (R74, R82, log 32). -/
def fetchWord (s : State) (p : CodeAddr) : Res (Half × State) :=
  match firstAddr s.isUnmapped p.toNat 2 with
  | some b => .error (.unmappedAddress b)
  | none =>
    match firstAddr s.isFresh p.toNat 2 with
    | some b => .error (.fetchTooSoonAfterStore b)
    | none => .ok (s.busHalf p.toNat, s.afterRead p.toNat 2)

/-! ### The order of a step (R11) -/

/-- `pc + n`; an address above 2^33 - 2 stops the step (R28, D8). -/
def pcPlus (s : State) (n : Nat) : Res CodeAddr :=
  if s.pc.toNat + n ≤ 2 ^ 33 - 2 then .ok (s.pc + BitVec.ofNat 33 n) else .error .leavesAddressSpace

/-- The next pc of an instruction that sets none: the pending target in a delay slot, else `pc + 2` (R11 item 7,
R221). -/
def nextPc (s : State) : Res CodeAddr :=
  match s.bt with
  | some target => .ok target
  | none => pcPlus s 2

/-- One more instruction has run since each recent store; the ones old enough are forgotten (R89). -/
def ageStores (l : List RecentStore) : List RecentStore :=
  (l.map fun r => { r with left := r.left - 1 }).filter fun r => decide (0 < r.left)

/-- The end of every instruction but PFX: K, PFXF and NOPREQ are cleared, no target is pending, and the pc is `p`
(R11 items 6 and 7, R30, R49). -/
def State.retire (s : State) (p : CodeAddr) : State :=
  { s with pc := p, k := 0, pfxf := false, bt := none, nopReq := false, recentStores := ageStores s.recentStores }

/-- After a WRCTL to STATUS only NOP may run (R49, R312). -/
def requireNopDone (s : State) (isNop : Bool) : Res Unit := require (!s.nopReq || isNop) .nopRequired

/-- The instruction may not stand in a delay slot (R311). -/
def requireNoSlot (s : State) : Res Unit := require s.bt.isNone .forbiddenInDelaySlot

/-- An instruction that may stand in a delay slot and sets no pc: its effect, then the end of the instruction.
`isNop` says that it is the word 0x3000. -/
def ordinary (isNop : Bool) (s : State) (effect : State → Res State) : Host.Outcome State Fault Refusal :=
  outcome do
    requireNopDone s isNop
    let t ← effect s
    let p ← nextPc s
    return t.retire p

/-- BR, BSR, JMP, CALL: the target waits in BT while the delay slot at `pc + 2` runs (R221). The effect answers the
state and the target. -/
def transfer (s : State) (effect : State → Res (State × CodeAddr)) : Host.Outcome State Fault Refusal :=
  outcome do
    requireNopDone s false
    requireNoSlot s
    let (t, target) ← effect s
    let p ← pcPlus s 2
    return { t.retire p with bt := some target }

/-- The five opcode bits `10011` of PFX (R230, R231). -/
def isPfxWord (w : Half) : Bool := w.extractLsb' 11 5 == 0b10011#5

/-- How far a skip moves the pc, `next` being the word after it: a test that holds passes over that word, or over a PFX
and the instruction after it (R230, R231). -/
def skipLength (holds : Bool) (next : Half) : Nat := if holds then if isPfxWord next then 6 else 4 else 2

/-- Where a skip goes, and the state after its fetch. The word after it is fetched "regardless of the test outcome"
(R76, R230, R314). -/
def skipTarget (s : State) (holds : Bool) : Res (CodeAddr × State) := do
  let q ← pcPlus s 2
  let (w, t) ← fetchWord s q
  let p ← pcPlus s (skipLength holds w)
  return (p, t)

/-- The common operation of the skips (R230). -/
def skip (s : State) (test : State → Res Bool) : Host.Outcome State Fault Refusal :=
  outcome do
    requireNopDone s false
    requireNoSlot s
    let holds ← test s
    let (p, t) ← skipTarget s holds
    return t.retire p

/-! ### Exceptions -/

/-- The address of vector table entry `n` (R282). -/
def vectorAddr (s : State) (n : BitVec 6) : Nat := s.cfg.vecBase.toNat + 4 * n.toNat

/-- A register or memory word that holds a code address holds the byte address divided by two (R224). -/
def codeOfHalf (x : Word) : CodeAddr := x.zeroExtend 33 <<< 1

/-- The byte address divided by two, as a register holds it (R223, R281). -/
def halfOfCode (p : CodeAddr) : Word := (p >>> 1).setWidth 32

/-- The state with ISTATUS saved and STATUS set for the handler: steps 1 to 4 of R280, the flags kept. -/
def State.enter (s : State) (n : BitVec 6) (w : BitVec 5) : State :=
  { s with istatus := s.status, status := packStatus false n w s.flags }

/-- The state with control at `p` and the hidden state idle (R280 step 6). -/
def State.divert (s : State) (p : CodeAddr) : State :=
  { s with pc := p, k := 0, pfxf := false, bt := none, nopReq := false }

/-- Byte `i` of the vector table has been written. -/
def State.tableByte (s : State) (i : Nat) : Bool := s.tableWritten.getLsbD i

/-- A byte of the vector table is in memory that can be written, and nothing has written it: it "holds no defined value"
(R282). A table in read-only memory needs no initialisation, and a peripheral presents what it presents. -/
def State.isUnwritten (s : State) (a : Nat) : Bool :=
  s.isRam a && !s.tableByte (a - s.cfg.vecBase.toNat)

/-- The fetch of vector table entry `n`, a data read (R282). The jump through an entry that was never written is
undefined (R282, U14). -/
def loadVector (s : State) (n : BitVec 6) : Res (Word × State) := do
  let r ← loadWord s (vectorAddr s n)
  match firstAddr s.isUnwritten (vectorAddr s n) 4 with
  | some b => .error (.vectorNeverWritten b)
  | none => return r

/-- Taking exception `n` with return location `ret` (R280). CWP is decremented unless the cause is the underflow of a
SAVE, which has decremented it; at CWP = 0 there is no window to open (R287). The return location goes to `%o7` of the
new window, the handler's address comes from the vector table (R281, R282). -/
def takeException (n : BitVec 6) (ret : CodeAddr) (isUnderflow : Bool) (s : State) : Res State := do
  require (isUnderflow || s.cwp != 0) .windowPointerRange
  let t := s.enter n (if isUnderflow then s.cwp else s.cwp - 1)
  let t ← writeReg t 15 (halfOfCode ret)
  let (handler, t) ← loadVector t n
  return t.divert (codeOfHalf handler)

/-- A window exception is processed only when IE is 1 and its number is below IPRI; else it is dropped (R278). -/
def processes (s : State) (n : BitVec 6) : Bool := s.ie && decide (n.toNat < s.ipri.toNat)

/-- Returning from an exception: STATUS is ISTATUS whole, control goes to the address in the operand (R256, R283). -/
def returnFromException (operand : Word) (s : State) : State :=
  { s with status := s.istatus }.retire (codeOfHalf operand)

/-- An external interrupt with this number is accepted now (R276). -/
def accepts (s : State) (n : BitVec 6) : Bool :=
  s.ie && decide (n.toNat < s.ipri.toNat) && !s.pfxf && s.bt.isNone && !s.nopReq

/-- The bytes that the environment writes before this step and that memory takes: those where memory that can be written
stands (R86, D11). -/
def State.landing (s : State) : List BusWrite := (s.busWrites.headD []).filter fun w => s.isRam w.addr.toNat

/-- Memory after the environment's writes, in their order. -/
def landWrites : Memory → List BusWrite → Memory
  | m, [] => m
  | m, w :: rest => landWrites (m.write w.addr.toNat w.value) rest

/-- The vector table's written bytes after the environment's writes. -/
def landTable (ram : Nat → Bool) (base : Nat) : BitVec tableSize → List BusWrite → BitVec tableSize
  | v, [] => v
  | v, w :: rest => landTable ram base (markWritten ram base v w.addr.toNat 1) rest

/-- The environment's writes as stores whose bytes may not be fetched yet: R89 speaks of "a store", whoever makes it
(log 44). -/
def freshWrites (distance : Nat) (l : List BusWrite) : List RecentStore :=
  if 0 < distance then l.map fun w => ⟨w.addr.toNat, 1, distance⟩ else []

/-- The environment acts before a step: its writes land in memory (R86, D11) and the interrupt inputs are sampled
(R275). -/
def State.sampled (s : State) : State :=
  { s with
    mem := landWrites s.mem s.landing
    tableWritten := landTable s.isRam s.cfg.vecBase.toNat s.tableWritten s.landing
    recentStores := freshWrites s.cfg.ifetchDistance s.landing ++ s.recentStores
    irqInputs := s.irqInputs.tail
    busWrites := s.busWrites.tail }

/-- The number of the interrupt this step takes, if it takes one (R11 step 1, R276). -/
def interruptNow (s : State) : Option (BitVec 6) :=
  match s.irqInputs with
  | some n :: _ => if accepts s n then some n else none
  | _ => none

end Sys2Proof.Machine
end

