-- ==== Sys2Proof/Machine/Operands.lean ====
section
/-! DEFINITION. The operand forms: immediates with and without the K register, the second operand of the logical
instructions, effective addresses, lanes and branch targets (spec 30_encoding.md R105 to R108, 43_load_store.md R212,
20_memory.md R77 to R81, 44_control.md R222). -/

namespace Sys2Proof.Machine

/-- `%sp`, that is `%o6` (R22). -/
def spReg : RegIdx := 14

/-- `%o7`, the link register (R22). -/
def linkReg : RegIdx := 15

/-- `%i7`, the register RET reads (R22). -/
def returnReg : RegIdx := 31

/-- `%r(16 + P)`, one of `%L0` to `%L3` (R10, R102). -/
def ptrReg (p : BitVec 2) : RegIdx := 0b100#3 ++ p

/-- `zext_16(K : IMM5)` (R105, R106). -/
def imm16 (k : BitVec 11) (n : BitVec 5) : Word := (k ++ n).zeroExtend 32

/-- The second operand of AND, ANDN, OR and XOR: register `b`, or after a PFX the immediate `K : b` (R108). -/
def operandTwo (s : State) (b : BitVec 5) : Res Word := if s.pfxf then .ok (imm16 s.k b) else readReg s b

/-- `sext_11(K) × 4`, a signed offset in words (R105, R212). -/
def kOffset (s : State) : Word := s.k.signExtend 32 * 4

/-- The offset of LDP and STP: `IMM5 × 4` unsigned, or after a PFX `sext_16(K : IMM5) × 4` (R105, R201). -/
def ptrOffset (s : State) (n : BitVec 5) : Word :=
  if s.pfxf then (s.k ++ n).signExtend 32 * 4 else n.zeroExtend 32 * 4

/-- `align32(X)` (R7). -/
def align32 (x : Word) : Word := x &&& 0xFFFFFFFC

/-- The address of the word that holds an effective address, zero-extended to the bus (R71, R77, R78). -/
def wordAddr (ea : Word) : Nat := (align32 ea).toNat

/-- The address of byte lane `n` in the word that holds an effective address (R79, R81). -/
def byteAddr (ea : Word) (n : BitVec 2) : Nat := wordAddr ea + n.toNat

/-- The address of half-word lane `n` in the word that holds an effective address (R79, R81). -/
def halfAddr (ea : Word) (n : BitVec 1) : Nat := wordAddr ea + 2 * n.toNat

/-- The effective address through a register and K (R212). -/
def eaRegister (s : State) (b : RegIdx) : Word := s.reg b + kOffset s

/-- The effective address of LDP and STP (R212). -/
def eaPointer (s : State) (p : BitVec 2) (n : BitVec 5) : Word := s.reg (ptrReg p) + ptrOffset s n

/-- The effective address of LDS and STS, `%sp + IMM8 × 4` (R212). -/
def eaStackWord (s : State) (n : BitVec 8) : Word := s.reg spReg + n.zeroExtend 32 * 4

/-- The effective address of STS8s, `%sp + IMM10` (R212). -/
def eaStackByte (s : State) (n : BitVec 10) : Word := s.reg spReg + n.zeroExtend 32

/-- The effective address of STS16s, `%sp + IMM9 × 2` (R212). -/
def eaStackHalf (s : State) (n : BitVec 9) : Word := s.reg spReg + n.zeroExtend 32 * 2

/-- The byte lane that the low bits of an address register select (R79, R186, R205). -/
def byteLane (x : Word) : BitVec 2 := x.extractLsb' 0 2

/-- The half-word lane that bit 1 of an address register selects (R79, R188, R207). -/
def halfLane (x : Word) : BitVec 1 := x.extractLsb' 1 1

/-- The target of BR and BSR, `pc + ((sext_11(IMM11) + 1) << 1)`; a target outside 0 to 2^33 - 2 stops the step (R222,
D8). -/
def branchTarget (s : State) (n : BitVec 11) : Res CodeAddr :=
  let target : Int := s.pc.toNat + (n.toInt + 1) * 2
  if 0 ≤ target ∧ target ≤ 2 ^ 33 - 2 then .ok (BitVec.ofInt 33 target) else .error .leavesAddressSpace

end Sys2Proof.Machine
end

