-- ==== Sys2Proof/Machine/Arith.lean ====
section
/-! DEFINITION. The arithmetic instructions (spec 40_arith.md). -/

namespace Sys2Proof.Machine

/-- A sum or difference of register `a` and an operand is written to `a` with its flags. -/
def arithEffect (a : RegIdx) (y : Res Word) (op : Word → Word → Word) (flags : Word → Word → Flags) (s : State) :
    Res State := do
  let x ← readReg s a
  let y ← y
  let t ← writeReg s a (op x y)
  return t.setFlags (flags x y)

/-- A comparison of register `a` with an operand: the flags of the difference, no register. -/
def compareEffect (a : RegIdx) (y : Res Word) (s : State) : Res State := do
  let x ← readReg s a
  let y ← y
  return s.setFlags (flagsSub x y)

/-- Register `a` is replaced by a function of itself; no flag changes. -/
def unaryEffect (a : RegIdx) (op : Word → Word) (s : State) : Res State := do
  let x ← readReg s a
  writeReg s a (op x)

/-- `%r0` is replaced by a function of itself and register `a`; no flag changes (R26). -/
def onR0Effect (a : RegIdx) (op : Word → Word → Word) (s : State) : Res State := do
  let x ← readReg s 0
  let y ← readReg s a
  writeReg s 0 (op x y)

/-- ADD (R140). -/
def execAdd (a b : RegIdx) (s : State) : Host.Outcome State Fault Refusal :=
  ordinary false s fun s => arithEffect a (readReg s b) (· + ·) flagsAdd s

/-- ADDI (R141). -/
def execAddi (a : RegIdx) (n : BitVec 5) (s : State) : Host.Outcome State Fault Refusal :=
  ordinary false s fun s => arithEffect a (.ok (imm16 s.k n)) (· + ·) flagsAdd s

/-- SUB (R142). -/
def execSub (a b : RegIdx) (s : State) : Host.Outcome State Fault Refusal :=
  ordinary false s fun s => arithEffect a (readReg s b) (· - ·) flagsSub s

/-- SUBI (R143). -/
def execSubi (a : RegIdx) (n : BitVec 5) (s : State) : Host.Outcome State Fault Refusal :=
  ordinary false s fun s => arithEffect a (.ok (imm16 s.k n)) (· - ·) flagsSub s

/-- CMP (R144). -/
def execCmp (a b : RegIdx) (s : State) : Host.Outcome State Fault Refusal :=
  ordinary false s fun s => compareEffect a (readReg s b) s

/-- CMPI (R145). -/
def execCmpi (a : RegIdx) (n : BitVec 5) (s : State) : Host.Outcome State Fault Refusal :=
  ordinary false s fun s => compareEffect a (.ok (imm16 s.k n)) s

/-- NEG (R146). -/
def execNeg (a : RegIdx) (s : State) : Host.Outcome State Fault Refusal :=
  ordinary false s (unaryEffect a fun x => 0 - x)

/-- ABS; the most negative number stays as it is (R147). -/
def execAbs (a : RegIdx) (s : State) : Host.Outcome State Fault Refusal :=
  ordinary false s (unaryEffect a fun x => if x.msb then 0 - x else x)

/-- The unsigned product of the low half-words (R148). -/
def mulLow (x y : Word) : Word := (x &&& 0x0000FFFF) * (y &&& 0x0000FFFF)

/-- MUL (R148). -/
def execMul (a : RegIdx) (s : State) : Host.Outcome State Fault Refusal :=
  ordinary false s (onR0Effect a mulLow)

/-- One step of an unsigned multiply (R149). -/
def mulStep (x y : Word) : Word := if x.msb then (x <<< 1) + y else x <<< 1

/-- MSTEP (R149). -/
def execMstep (a : RegIdx) (s : State) : Host.Outcome State Fault Refusal :=
  ordinary false s (onR0Effect a mulStep)

end Sys2Proof.Machine
end

