-- ==== Sys2Proof/Machine/Control.lean ====
section
/-! DEFINITION. Branches, jumps and skips with their aliases (spec 44_control.md). -/

namespace Sys2Proof.Machine

/-- The link value `(pc + 4) >> 1` in `%o7` of the current window (R223, R225). -/
def linked (s : State) : Res State := do
  let p ← pcPlus s 4
  writeReg s linkReg (halfOfCode p)

/-- A jump to the half-word address in a register (R224). -/
def jumpTo (a : RegIdx) (s : State) : Host.Outcome State Fault Refusal :=
  transfer s fun s => do
    let x ← readReg s a
    return (s, codeOfHalf x)

/-- BR (R222). -/
def execBr (n : BitVec 11) (s : State) : Host.Outcome State Fault Refusal :=
  transfer s fun s => do
    let target ← branchTarget s n
    return (s, target)

/-- BSR (R223). -/
def execBsr (n : BitVec 11) (s : State) : Host.Outcome State Fault Refusal :=
  transfer s fun s => do
    let target ← branchTarget s n
    let t ← linked s
    return (t, target)

/-- JMP (R224). -/
def execJmp (a : RegIdx) (s : State) : Host.Outcome State Fault Refusal := jumpTo a s

/-- CALL: the operand is read before `%o7` is written (R225, D23). -/
def execCall (a : RegIdx) (s : State) : Host.Outcome State Fault Refusal :=
  transfer s fun s => do
    let x ← readReg s a
    let t ← linked s
    return (t, codeOfHalf x)

/-- LRET, the word of JMP %o7 (R226). -/
def execLret (s : State) : Host.Outcome State Fault Refusal := jumpTo linkReg s

/-- RET, the word of JMP %i7 (R227). -/
def execRet (s : State) : Host.Outcome State Fault Refusal := jumpTo returnReg s

/-- Skip when bit `n` of register `a` is `wanted` (R232, R233). -/
def skipOnBit (wanted : Bool) (a : RegIdx) (n : BitVec 5) (s : State) : Host.Outcome State Fault Refusal :=
  skip s fun s => do
    let x ← readReg s a
    return x.getLsbD n.toNat == wanted

/-- Skip when whether register `a` is zero is `wanted` (R234, R235). -/
def skipOnZero (wanted : Bool) (a : RegIdx) (s : State) : Host.Outcome State Fault Refusal :=
  skip s fun s => do
    let x ← readReg s a
    return (x == 0) == wanted

/-- Skip when the condition of the word is false (R236). -/
def skipUnless (c : BitVec 4) (s : State) : Host.Outcome State Fault Refusal :=
  skip s fun s =>
    match condition c s.flags with
    | some holds => .ok !holds
    | none => .error .undefinedCondition

/-- SKP0 (R232). -/
def execSkp0 (a : RegIdx) (n : BitVec 5) (s : State) : Host.Outcome State Fault Refusal := skipOnBit false a n s

/-- SKP1 (R233). -/
def execSkp1 (a : RegIdx) (n : BitVec 5) (s : State) : Host.Outcome State Fault Refusal := skipOnBit true a n s

/-- SKPRz (R234). -/
def execSkprz (a : RegIdx) (s : State) : Host.Outcome State Fault Refusal := skipOnZero true a s

/-- SKPRnz (R235). -/
def execSkprnz (a : RegIdx) (s : State) : Host.Outcome State Fault Refusal := skipOnZero false a s

/-- SKPS; `c` is the condition number of the word, the one IFS names (R236). -/
def execSkps (c : BitVec 4) (s : State) : Host.Outcome State Fault Refusal := skipUnless c s

/-- IF0, the word of SKP1 (R237). -/
def execIf0 (a : RegIdx) (n : BitVec 5) (s : State) : Host.Outcome State Fault Refusal := skipOnBit true a n s

/-- IF1, the word of SKP0 (R237). -/
def execIf1 (a : RegIdx) (n : BitVec 5) (s : State) : Host.Outcome State Fault Refusal := skipOnBit false a n s

/-- IFRnz, the word of SKPRz (R237). -/
def execIfrnz (a : RegIdx) (s : State) : Host.Outcome State Fault Refusal := skipOnZero true a s

/-- IFRz, the word of SKPRnz (R237). -/
def execIfrz (a : RegIdx) (s : State) : Host.Outcome State Fault Refusal := skipOnZero false a s

/-- IFS, the word of SKPS with the same condition number (R236, R237). -/
def execIfs (c : BitVec 4) (s : State) : Host.Outcome State Fault Refusal := skipUnless c s

end Sys2Proof.Machine
end

