-- ==== Sys2Proof/Machine/LoadStore.lean ====
section
/-! DEFINITION. The load and store instructions (spec 43_load_store.md). They write no flag, and no alignment is
checked: the low two bits of the address are dropped (R77, R78, R212). -/

namespace Sys2Proof.Machine

/-- A word is read from the word address and written to register `a`. The address is computed before the write. -/
def loadEffect (base : RegIdx) (ea : State → Word) (a : RegIdx) (s : State) : Res State := do
  let _ ← readReg s base
  let (v, t) ← loadWord s (wordAddr (ea s))
  writeReg t a v

/-- Register `a` is stored to the word address. -/
def storeWordEffect (base : RegIdx) (ea : State → Word) (a : RegIdx) (s : State) : Res State := do
  let _ ← readReg s base
  let x ← readReg s a
  storeBytes s (wordAddr (ea s)) (wordBytes x)

/-- A byte lane of `%r0` is stored to the same lane of the word in memory (R79). -/
def storeByteEffect (base : RegIdx) (ea : State → Word) (lane : State → BitVec 2) (s : State) : Res State := do
  let _ ← readReg s base
  let x ← readReg s 0
  storeBytes s (byteAddr (ea s) (lane s)) [byteOf x (lane s).toNat]

/-- A half-word lane of `%r0` is stored to the same lane of the word in memory (R79). -/
def storeHalfEffect (base : RegIdx) (ea : State → Word) (lane : State → BitVec 1) (s : State) : Res State := do
  let _ ← readReg s base
  let x ← readReg s 0
  storeBytes s (halfAddr (ea s) (lane s)) (halfBytes (halfOf x (lane s).toNat))

/-- LD (R200). -/
def execLd (a b : RegIdx) (s : State) : Host.Outcome State Fault Refusal :=
  ordinary false s (loadEffect b (fun s => eaRegister s b) a)

/-- LDP (R201). -/
def execLdp (p : BitVec 2) (n : BitVec 5) (a : RegIdx) (s : State) : Host.Outcome State Fault Refusal :=
  ordinary false s (loadEffect (ptrReg p) (fun s => eaPointer s p n) a)

/-- LDS; K is not used (R202). -/
def execLds (n : BitVec 8) (a : RegIdx) (s : State) : Host.Outcome State Fault Refusal :=
  ordinary false s (loadEffect spReg (fun s => eaStackWord s n) a)

/-- ST (R203). -/
def execSt (a b : RegIdx) (s : State) : Host.Outcome State Fault Refusal :=
  ordinary false s (storeWordEffect b (fun s => eaRegister s b) a)

/-- STP (R204). -/
def execStp (p : BitVec 2) (n : BitVec 5) (a : RegIdx) (s : State) : Host.Outcome State Fault Refusal :=
  ordinary false s (storeWordEffect (ptrReg p) (fun s => eaPointer s p n) a)

/-- STS; K is not used (R209). -/
def execSts (n : BitVec 8) (a : RegIdx) (s : State) : Host.Outcome State Fault Refusal :=
  ordinary false s (storeWordEffect spReg (fun s => eaStackWord s n) a)

/-- ST8d: the lane is bits 1:0 of the address register (R205). -/
def execSt8d (a : RegIdx) (s : State) : Host.Outcome State Fault Refusal :=
  ordinary false s (storeByteEffect a (fun s => eaRegister s a) fun s => byteLane (s.reg a))

/-- ST8s: the lane is the immediate (R206). -/
def execSt8s (a : RegIdx) (n : BitVec 2) (s : State) : Host.Outcome State Fault Refusal :=
  ordinary false s (storeByteEffect a (fun s => eaRegister s a) fun _ => n)

/-- ST16d: the lane is bit 1 of the address register (R207). -/
def execSt16d (a : RegIdx) (s : State) : Host.Outcome State Fault Refusal :=
  ordinary false s (storeHalfEffect a (fun s => eaRegister s a) fun s => halfLane (s.reg a))

/-- ST16s: the lane is the immediate (R208). -/
def execSt16s (a : RegIdx) (n : BitVec 1) (s : State) : Host.Outcome State Fault Refusal :=
  ordinary false s (storeHalfEffect a (fun s => eaRegister s a) fun _ => n)

/-- STS8s: the word from the aligned sum, the lane from the immediate (R210; PRESUMED for an unaligned %sp, log 14).
K is not used. -/
def execSts8s (n : BitVec 10) (s : State) : Host.Outcome State Fault Refusal :=
  ordinary false s (storeByteEffect spReg (fun s => eaStackByte s n) fun _ => n.extractLsb' 0 2)

/-- STS16s: the word from the aligned sum, the lane from the immediate (R211; PRESUMED for an unaligned %sp, log 14).
K is not used. -/
def execSts16s (n : BitVec 9) (s : State) : Host.Outcome State Fault Refusal :=
  ordinary false s (storeHalfEffect spReg (fun s => eaStackHalf s n) fun _ => n.extractLsb' 0 1)

end Sys2Proof.Machine
end

