-- ==== Sys2Proof/Machine/Logic.lean ====
section
/-! DEFINITION. The logical, shift, rotate and bit-generate instructions (spec 41_logic_shift.md). -/

namespace Sys2Proof.Machine

/-- A logical operation of register `a` and the second operand; N and Z from the result, V and C kept (R41, R44). -/
def logicEffect (a b : RegIdx) (op : Word → Word → Word) (s : State) : Res State := do
  let x ← readReg s a
  let y ← operandTwo s b
  let t ← writeReg s a (op x y)
  return t.setFlags (flagsNZ (op x y) s.flags)

/-- Register `a` is replaced by a function of itself and register `b`; no flag changes. -/
def binaryEffect (a b : RegIdx) (op : Word → Word → Word) (s : State) : Res State := do
  let x ← readReg s a
  let y ← readReg s b
  writeReg s a (op x y)

/-- AND (R160). -/
def execAnd (a b : RegIdx) (s : State) : Host.Outcome State Fault Refusal :=
  ordinary false s (logicEffect a b (· &&& ·))

/-- ANDN: the complement is taken after the zero extension (R161). -/
def execAndn (a b : RegIdx) (s : State) : Host.Outcome State Fault Refusal :=
  ordinary false s (logicEffect a b fun x y => x &&& ~~~y)

/-- OR (R162). -/
def execOr (a b : RegIdx) (s : State) : Host.Outcome State Fault Refusal :=
  ordinary false s (logicEffect a b (· ||| ·))

/-- XOR (R163). -/
def execXor (a b : RegIdx) (s : State) : Host.Outcome State Fault Refusal :=
  ordinary false s (logicEffect a b (· ^^^ ·))

/-- NOT; unlike the two-operand logical instructions it writes no flag (R164). -/
def execNot (a : RegIdx) (s : State) : Host.Outcome State Fault Refusal :=
  ordinary false s (unaryEffect a fun x => ~~~x)

/-- The shift count in a register: bits 4:0 (R165, R167, R169). -/
def shiftCount (y : Word) : Nat := (y.extractLsb' 0 5).toNat

/-- LSL (R165). -/
def execLsl (a b : RegIdx) (s : State) : Host.Outcome State Fault Refusal :=
  ordinary false s (binaryEffect a b fun x y => x <<< shiftCount y)

/-- LSLI; K is not used (R166). -/
def execLsli (a : RegIdx) (n : BitVec 5) (s : State) : Host.Outcome State Fault Refusal :=
  ordinary false s (unaryEffect a fun x => x <<< n.toNat)

/-- LSR (R167). -/
def execLsr (a b : RegIdx) (s : State) : Host.Outcome State Fault Refusal :=
  ordinary false s (binaryEffect a b fun x y => x >>> shiftCount y)

/-- LSRI; K is not used (R168). -/
def execLsri (a : RegIdx) (n : BitVec 5) (s : State) : Host.Outcome State Fault Refusal :=
  ordinary false s (unaryEffect a fun x => x >>> n.toNat)

/-- ASR (R169). -/
def execAsr (a b : RegIdx) (s : State) : Host.Outcome State Fault Refusal :=
  ordinary false s (binaryEffect a b fun x y => x.sshiftRight (shiftCount y))

/-- ASRI; K is not used (R170). -/
def execAsri (a : RegIdx) (n : BitVec 5) (s : State) : Host.Outcome State Fault Refusal :=
  ordinary false s (unaryEffect a fun x => x.sshiftRight n.toNat)

/-- RLC: a 33-bit rotate, the old C enters at bit 0 and bit 31 becomes C (R171, C10). -/
def execRlc (a : RegIdx) (s : State) : Host.Outcome State Fault Refusal :=
  ordinary false s fun s => do
    let x ← readReg s a
    let t ← writeReg s a (x.extractLsb' 0 31 ++ BitVec.ofBool s.flags.c)
    return t.setFlags { s.flags with c := x.getLsbD 31 }

/-- RRC: a 33-bit rotate, the old C enters at bit 31 and bit 0 becomes C (R172, C10). -/
def execRrc (a : RegIdx) (s : State) : Host.Outcome State Fault Refusal :=
  ordinary false s fun s => do
    let x ← readReg s a
    let t ← writeReg s a (BitVec.ofBool s.flags.c ++ x.extractLsb' 1 31)
    return t.setFlags { s.flags with c := x.getLsbD 0 }

/-- BGEN; the old value of RA and K are not used (R173). -/
def execBgen (a : RegIdx) (n : BitVec 5) (s : State) : Host.Outcome State Fault Refusal :=
  ordinary false s fun s => writeReg s a (1 <<< n.toNat)

end Sys2Proof.Machine
end

