-- ==== Sys2Proof/Machine/Move.lean ====
section
/-! DEFINITION. The prefix, move, extract, sign-extend, fill and swap instructions (spec 42_move_extract.md). -/

namespace Sys2Proof.Machine

/-- PFX. The only instruction that does not clear K and PFXF (R181, R107). It may follow neither a PFX (R313, U1) nor
stand in a delay slot (R311). -/
def execPfx (n : BitVec 11) (s : State) : Host.Outcome State Fault Refusal :=
  outcome do
    requireNopDone s false
    requireNoSlot s
    require (!s.pfxf) .consecutivePfx
    let p ← pcPlus s 2
    return { s.retire p with k := n, pfxf := true }

/-- Register `b` is copied to register `a` (R182). -/
def moveEffect (a b : RegIdx) (s : State) : Res State := do
  let y ← readReg s b
  writeReg s a y

/-- MOV; the word of MOV %g0,%g0 is NOP's (R182, R195). -/
def execMov (a b : RegIdx) (s : State) : Host.Outcome State Fault Refusal :=
  ordinary (decide (a = 0 ∧ b = 0)) s (moveEffect a b)

/-- NOP, "executed as the MOV it is" (R195). -/
def execNop (s : State) : Host.Outcome State Fault Refusal :=
  ordinary true s (moveEffect 0 0)

/-- MOVI (R183). -/
def execMovi (a : RegIdx) (n : BitVec 5) (s : State) : Host.Outcome State Fault Refusal :=
  ordinary false s fun s => writeReg s a (imm16 s.k n)

/-- MOVHI (R184). -/
def execMovhi (a : RegIdx) (n : BitVec 5) (s : State) : Host.Outcome State Fault Refusal :=
  ordinary false s fun s => unaryEffect a (fun x => (s.k ++ n) ++ halfOf x 0) s

/-- EXT8d (R186). -/
def execExt8d (a b : RegIdx) (s : State) : Host.Outcome State Fault Refusal :=
  ordinary false s (binaryEffect a b fun x y => (byteOf x (byteLane y).toNat).zeroExtend 32)

/-- EXT8s (R187). -/
def execExt8s (a : RegIdx) (n : BitVec 2) (s : State) : Host.Outcome State Fault Refusal :=
  ordinary false s (unaryEffect a fun x => (byteOf x n.toNat).zeroExtend 32)

/-- EXT16d (R188). -/
def execExt16d (a b : RegIdx) (s : State) : Host.Outcome State Fault Refusal :=
  ordinary false s (binaryEffect a b fun x y => (halfOf x (halfLane y).toNat).zeroExtend 32)

/-- EXT16s (R189). -/
def execExt16s (a : RegIdx) (n : BitVec 1) (s : State) : Host.Outcome State Fault Refusal :=
  ordinary false s (unaryEffect a fun x => (halfOf x n.toNat).zeroExtend 32)

/-- SEXT8 (R190). -/
def execSext8 (a : RegIdx) (s : State) : Host.Outcome State Fault Refusal :=
  ordinary false s (unaryEffect a fun x => (byteOf x 0).signExtend 32)

/-- SEXT16 (R191). -/
def execSext16 (a : RegIdx) (s : State) : Host.Outcome State Fault Refusal :=
  ordinary false s (unaryEffect a fun x => (halfOf x 0).signExtend 32)

/-- FILL8 (R192). -/
def execFill8 (a : RegIdx) (s : State) : Host.Outcome State Fault Refusal :=
  ordinary false s fun s => do
    let x ← readReg s a
    writeReg s 0 (byteOf x 0 ++ byteOf x 0 ++ byteOf x 0 ++ byteOf x 0)

/-- FILL16 (R193). -/
def execFill16 (a : RegIdx) (s : State) : Host.Outcome State Fault Refusal :=
  ordinary false s fun s => do
    let x ← readReg s a
    writeReg s 0 (halfOf x 0 ++ halfOf x 0)

/-- SWAP (R194). -/
def execSwap (a : RegIdx) (s : State) : Host.Outcome State Fault Refusal :=
  ordinary false s (unaryEffect a fun x => halfOf x 0 ++ halfOf x 1)

end Sys2Proof.Machine
end

