-- ==== Sys2Proof/Machine/System.lean ====
section
/-! DEFINITION. The register-window, trap and control-register instructions (spec 45_system.md). There is one mode:
any code may run them (60_exceptions.md R295). -/

namespace Sys2Proof.Machine

/-- The end of a SAVE or RESTORE: its exception is taken if it arose and is processed, and dropped otherwise (R278,
D16). The return location is the pc the instruction left (R281). -/
def windowException (arose : Bool) (n : BitVec 6) (isUnderflow : Bool) (s : State) : Res State :=
  if arose && processes s n then takeException n s.pc isUnderflow s else .ok s

/-- SAVE (R251): `%sp` of the new window is `%sp` of the old one less `IMM8 × 4`; leaving LO_LIMIT raises window
underflow, exception 1 (R272). -/
def execSave (n : BitVec 8) (s : State) : Host.Outcome State Fault Refusal :=
  outcome do
    requireNopDone s false
    let old := s.cwp
    let sp ← readReg s spReg
    require (old != 0) .windowPointerRange
    let t ← writeReg (s.setCwp (old - 1)) spReg (sp - n.zeroExtend 32 * 4)
    let p ← nextPc s
    windowException (old == s.loLimit) 1 true (t.retire p)

/-- RESTORE (R253): leaving HI_LIMIT raises window overflow, exception 2 (R273). -/
def execRestore (s : State) : Host.Outcome State Fault Refusal :=
  outcome do
    requireNopDone s false
    let old := s.cwp
    require (old != 31) .windowPointerRange
    let p ← nextPc s
    windowException (old == s.hiLimit) 2 false ((s.setCwp (old + 1)).retire p)

/-- TRAP: always processed, with the instruction after it as return location (R255). -/
def execTrap (n : BitVec 6) (s : State) : Host.Outcome State Fault Refusal :=
  outcome do
    requireNopDone s false
    requireNoSlot s
    let p ← pcPlus s 2
    takeException n p false (s.retire p)

/-- TRET: the operand is read through the handler's window, before STATUS changes (R256, D23). -/
def execTret (a : RegIdx) (s : State) : Host.Outcome State Fault Refusal :=
  outcome do
    requireNopDone s false
    requireNoSlot s
    let x ← readReg s a
    return returnFromException x s

/-- What RDCTL reads of control register `k` into 32 bits, and the state after the read. The source gives no bits
31:16: they are the parameter RDCTL_HIGH (R258, D17). A read of CLR_IE or SET_IE is "an undefined result", a free
value (R40, U2); the other numbers are no register (D15). -/
def readControl (s : State) (k : BitVec 11) : Res (Word × State) :=
  match k.toNat with
  | 0 => .ok (s.cfg.rdctlHigh ++ s.status, s)
  | 1 => .ok (s.cfg.rdctlHigh ++ s.istatus, s)
  | 2 => .ok (s.cfg.rdctlHigh ++ s.wvalid, s)
  | 8 | 9 => .ok (Config.undefinedControlRead s.freeCount, { s with freeCount := s.freeCount + 1 })
  | _ => .error (.undefinedControlRegister k)

/-- WRCTL of a value to control register `k` (R259). CLR_IE and SET_IE have no storage and ignore the value (R40);
WVALID keeps bits 9:0 when it can be written (R39); the other numbers are no register (D15). -/
def writeControl (s : State) (k : BitVec 11) (v : Word) : Res State :=
  match k.toNat with
  | 0 => .ok { s with status := halfOf v 0 }
  | 1 => .ok { s with istatus := halfOf v 0 }
  | 2 => .ok (if s.cfg.wvalidWritable then { s with wvalid := (v.extractLsb' 0 10).zeroExtend 16 } else s)
  | 8 => .ok (s.setIe false)
  | 9 => .ok (s.setIe true)
  | _ => .error (.undefinedControlRegister k)

/-- RDCTL (R257, R258). -/
def execRdctl (a : RegIdx) (s : State) : Host.Outcome State Fault Refusal :=
  ordinary false s fun s => do
    let (v, t) ← readControl s s.k
    writeReg t a v

/-- WRCTL (R257, R259); a write of STATUS asks for a NOP (R49, R260). -/
def execWrctl (a : RegIdx) (s : State) : Host.Outcome State Fault Refusal :=
  outcome do
    requireNopDone s false
    let x ← readReg s a
    let t ← writeControl s s.k x
    let p ← nextPc s
    return { t.retire p with nopReq := s.k == 0 }

end Sys2Proof.Machine
end

