-- ==== Sys2Proof/Machine/Dispatch.lean ====
section
/-! DEFINITION. The meaning of every instruction (spec 00_scope.md R11 items 3 to 8). -/

namespace Sys2Proof.Machine

/-- The effect of one instruction that stands at the pc of the state. -/
def exec (i : Instr) (s : State) : Host.Outcome State Fault Refusal :=
  match i with
  | .add a b => Sys2Proof.Machine.execAdd a b s
  | .addi a n => Sys2Proof.Machine.execAddi a n s
  | .sub a b => Sys2Proof.Machine.execSub a b s
  | .subi a n => Sys2Proof.Machine.execSubi a n s
  | .cmp a b => Sys2Proof.Machine.execCmp a b s
  | .cmpi a n => Sys2Proof.Machine.execCmpi a n s
  | .lsl a b => Sys2Proof.Machine.execLsl a b s
  | .lsli a n => Sys2Proof.Machine.execLsli a n s
  | .lsr a b => Sys2Proof.Machine.execLsr a b s
  | .lsri a n => Sys2Proof.Machine.execLsri a n s
  | .asr a b => Sys2Proof.Machine.execAsr a b s
  | .asri a n => Sys2Proof.Machine.execAsri a n s
  | .mov a b => Sys2Proof.Machine.execMov a b s
  | .movi a n => Sys2Proof.Machine.execMovi a n s
  | .and a b => Sys2Proof.Machine.execAnd a b s
  | .andn a b => Sys2Proof.Machine.execAndn a b s
  | .or a b => Sys2Proof.Machine.execOr a b s
  | .xor a b => Sys2Proof.Machine.execXor a b s
  | .bgen a n => Sys2Proof.Machine.execBgen a n s
  | .ext8d a b => Sys2Proof.Machine.execExt8d a b s
  | .skp0 a n => Sys2Proof.Machine.execSkp0 a n s
  | .skp1 a n => Sys2Proof.Machine.execSkp1 a n s
  | .ld a b => Sys2Proof.Machine.execLd a b s
  | .st a b => Sys2Proof.Machine.execSt a b s
  | .ext16d a b => Sys2Proof.Machine.execExt16d a b s
  | .movhi a n => Sys2Proof.Machine.execMovhi a n s
  | .sts8s n => Sys2Proof.Machine.execSts8s n s
  | .sts16s n => Sys2Proof.Machine.execSts16s n s
  | .ext8s a n => Sys2Proof.Machine.execExt8s a n s
  | .ext16s a n => Sys2Proof.Machine.execExt16s a n s
  | .st8s a n => Sys2Proof.Machine.execSt8s a n s
  | .st16s a n => Sys2Proof.Machine.execSt16s a n s
  | .save n => Sys2Proof.Machine.execSave n s
  | .trap n => Sys2Proof.Machine.execTrap n s
  | .not a => Sys2Proof.Machine.execNot a s
  | .neg a => Sys2Proof.Machine.execNeg a s
  | .abs a => Sys2Proof.Machine.execAbs a s
  | .sext8 a => Sys2Proof.Machine.execSext8 a s
  | .sext16 a => Sys2Proof.Machine.execSext16 a s
  | .rlc a => Sys2Proof.Machine.execRlc a s
  | .rrc a => Sys2Proof.Machine.execRrc a s
  | .swap a => Sys2Proof.Machine.execSwap a s
  | .restore => Sys2Proof.Machine.execRestore s
  | .tret a => Sys2Proof.Machine.execTret a s
  | .st8d a => Sys2Proof.Machine.execSt8d a s
  | .st16d a => Sys2Proof.Machine.execSt16d a s
  | .fill8 a => Sys2Proof.Machine.execFill8 a s
  | .fill16 a => Sys2Proof.Machine.execFill16 a s
  | .mstep a => Sys2Proof.Machine.execMstep a s
  | .mul a => Sys2Proof.Machine.execMul a s
  | .skprz a => Sys2Proof.Machine.execSkprz a s
  | .skps c => Sys2Proof.Machine.execSkps c s
  | .wrctl a => Sys2Proof.Machine.execWrctl a s
  | .rdctl a => Sys2Proof.Machine.execRdctl a s
  | .skprnz a => Sys2Proof.Machine.execSkprnz a s
  | .jmp a => Sys2Proof.Machine.execJmp a s
  | .call a => Sys2Proof.Machine.execCall a s
  | .br n => Sys2Proof.Machine.execBr n s
  | .bsr n => Sys2Proof.Machine.execBsr n s
  | .pfx n => Sys2Proof.Machine.execPfx n s
  | .stp p n a => Sys2Proof.Machine.execStp p n a s
  | .ldp p n a => Sys2Proof.Machine.execLdp p n a s
  | .sts n a => Sys2Proof.Machine.execSts n a s
  | .lds n a => Sys2Proof.Machine.execLds n a s
  | .nop => Sys2Proof.Machine.execNop s
  | .lret => Sys2Proof.Machine.execLret s
  | .ret => Sys2Proof.Machine.execRet s
  | .if0 a n => Sys2Proof.Machine.execIf0 a n s
  | .if1 a n => Sys2Proof.Machine.execIf1 a n s
  | .ifrnz a => Sys2Proof.Machine.execIfrnz a s
  | .ifrz a => Sys2Proof.Machine.execIfrz a s
  | .ifs c => Sys2Proof.Machine.execIfs c s

end Sys2Proof.Machine
end

