-- ==== Sys2Proof/Machine/Fetch.lean ====
section
/-! DEFINITION. Fetching and reading the next instruction, the two things a step can be, and placing a word where the
step fetches (spec 00_scope.md R11 items 1 and 2, 20_memory.md R76, 60_exceptions.md R276). -/

namespace Sys2Proof.Machine

/-- The instruction at the pc, and the state after its fetch. A word that is no instruction stops the step (R130),
and so does a general-knowledge encoding where ADMIT_GK_ENCODINGS is off (D14). -/
def fetchInstr (s : State) : Res (Instr × State) := do
  let (w, t) ← fetchWord s s.pc
  match decodeWord w with
  | .ok i =>
    require (s.cfg.admitGk || !i.fromGeneralKnowledge) .unconfirmedEncoding
    return (i, t)
  | .error e => .error (.unassignedEncoding e)

/-- A step that runs an instruction. -/
def instructionStep (s : State) : Host.Outcome State Fault Refusal :=
  match fetchInstr s with
  | .ok (i, t) => exec i t
  | .error r => .refused r

/-- A step that takes external interrupt `n`; the return location is the instruction that did not yet run (R276,
R281). -/
def interruptStep (n : BitVec 6) (s : State) : Host.Outcome State Fault Refusal :=
  outcome (takeException n s.pc false s)

/-- The inputs without the request of the next step, the later samples as they are. -/
def withoutRequest : List (Option (BitVec 6)) → List (Option (BitVec 6))
  | [] => []
  | _ :: rest => none :: rest

/-- The environment's writes without those of the next step, the later ones as they are. -/
def withoutWrites : List (List BusWrite) → List (List BusWrite)
  | [] => []
  | _ :: rest => [] :: rest

/-- The state with an instruction word at the pc: the two bytes in memory, counted as loaded from outside (R89), and
at the next step no interrupt requested and no byte written by the environment. -/
def placeWord (s : State) (w : Half) : State :=
  { s with
    mem := (s.mem.write s.pc.toNat (w.extractLsb' 0 8)).write (s.pc.toNat + 1) (w.extractLsb' 8 8)
    tableWritten := s.tableAfter s.pc.toNat 2
    recentStores := s.recentStores.filter fun r =>
      decide (r.addr + r.len ≤ s.pc.toNat) || decide (s.pc.toNat + 2 ≤ r.addr)
    irqInputs := withoutRequest s.irqInputs
    busWrites := withoutWrites s.busWrites }

end Sys2Proof.Machine
end

