-- ==== Sys2Proof/Machine/Step.lean ====
section
/-! DEFINITION. One step of the machine (spec 00_scope.md R11), and the instruction placed where it fetches. -/

namespace Sys2Proof.Machine

/-- One step: the environment's writes land and the interrupt inputs are sampled, and either an external
interrupt is taken or the instruction at the pc runs (R11). -/
def step (s : State) : Host.Outcome State Fault Refusal :=
  match interruptNow s with
  | some n => interruptStep n s.sampled
  | none => instructionStep s.sampled

/-- The state with the instruction whose bits are `w` where the next step fetches: `nbits` bits of a table row, every
bit above them 0. -/
def State.withFetchWord (s : State) (nbits w : Nat) : State := placeWord s (BitVec.ofNat 16 (w % 2 ^ nbits))

end Sys2Proof.Machine
end

