-- ==== Sys2Proof/Safety.lean ====
section
/-! DEFINITION. What counts as a run that goes on, the invariant of the machine, and the words in which the statements
of Certificates/Slice0/Obligations.lean say what an instruction needs and what it leaves alone. -/

namespace Sys2Proof.Machine

/-! ### Runs -/

/-- The state after `n` steps, none where one of them has no next state. -/
def runFor : Nat → State → Option State
  | 0, s => some s
  | n + 1, s =>
    match step s with
    | .next t => runFor n t
    | .fault _ => none
    | .refused _ => none

/-- The end of a run that stops at the address `a`: the pc is there and no delay slot is pending
(92_eei_decisions.md D20). The hardware has no halt. -/
def State.atEnd (a : CodeAddr) (s : State) : Bool := s.pc == a && s.bt.isNone

/-- A safe run of at most `n` steps to the address `a`: every step up to the end has a next state. -/
def safeRun (a : CodeAddr) : Nat → State → Bool
  | 0, s => s.atEnd a
  | n + 1, s =>
    s.atEnd a ||
      match step s with
      | .next t => safeRun a n t
      | .fault _ => false
      | .refused _ => false

/-! ### The invariant -/

/-- What every step keeps, from any state that has it. -/
structure State.Inv (s : State) : Prop where
  /-- Memory is in its canonical form. -/
  memory : s.mem.wf = true
  /-- Bit 0 of the pc is 0 (R27). -/
  pcEven : s.pc.getLsbD 0 = false
  /-- Bit 0 of a pending target is 0 (R32). -/
  targetEven : ∀ p, s.bt = some p → p.getLsbD 0 = false
  /-- WVALID uses bits 9:0 (R39, D17). -/
  wvalidHigh : s.wvalid.extractLsb' 10 6 = 0
  /-- K is 0 except right after a PFX (R29, R30). -/
  kIdle : s.pfxf = false → s.k = 0
  /-- No instruction is at once prefixed and in a delay slot (R311). -/
  prefixed : s.pfxf = true → s.bt = none ∧ s.nopReq = false
  /-- A WRCTL is no control transfer (R49). -/
  nopAlone : s.nopReq = true → s.bt = none
  /-- A store is remembered for at least one and at most IFETCH_DISTANCE more instructions (R89). -/
  recent : ∀ r ∈ s.recentStores, 0 < r.left ∧ r.left ≤ s.cfg.ifetchDistance

/-! ### What an instruction needs -/

/-- The address `n` bytes after the pc is a code address (R28). -/
def State.pcFits (s : State) (n : Nat) : Prop := s.pc.toNat + n ≤ 2 ^ 33 - 2

/-- The next pc of an instruction that sets none: the pending target in a delay slot, else `pc + 2` (R11). -/
def State.followPc (s : State) : CodeAddr :=
  match s.bt with
  | some target => target
  | none => s.pc + 2

/-- An instruction that may stand in a delay slot can end here: no NOP is owed (R49), and outside a delay slot `pc + 2`
is a code address (R28). -/
def State.Ready (s : State) : Prop := s.nopReq = false ∧ (s.bt = none → s.pcFits 2)

/-- An instruction that may not stand in a delay slot can run here (R311): no NOP is owed and no target is pending. -/
def State.ReadyAlone (s : State) : Prop := s.nopReq = false ∧ s.bt = none

/-- Every one of the `n` bytes from `a` on is memory or read-only memory. -/
def State.Readable (s : State) (a n : Nat) : Prop :=
  ∀ i < n, s.kindAt (a + i) = some .ram ∨ s.kindAt (a + i) = some .rom

/-- Every one of the `n` bytes from `a` on is memory that can be written. -/
def State.Writable (s : State) (a n : Nat) : Prop := ∀ i < n, s.kindAt (a + i) = some .ram

/-- Something stands behind every one of the `n` bytes from `a` on. -/
def State.Present (s : State) (a n : Nat) : Prop := ∀ i < n, s.kindAt (a + i) ≠ none

/-- The first of the `n` bytes from `a` on behind which nothing stands is byte `i` of them. -/
def State.FirstUnmapped (s : State) (a n i : Nat) : Prop :=
  i < n ∧ s.kindAt (a + i) = none ∧ ∀ j < i, s.kindAt (a + j) ≠ none

/-- Something stands behind each of the `n` bytes from `a` on, and the first in read-only memory is byte `i` of them. -/
def State.FirstReadOnly (s : State) (a n i : Nat) : Prop :=
  s.Present a n ∧ i < n ∧ s.kindAt (a + i) = some .rom ∧ ∀ j < i, s.kindAt (a + j) ≠ some .rom

/-- Every one of the `n` bytes from `a` on is a peripheral's. -/
def State.OnDevice (s : State) (a n : Nat) : Prop := ∀ i < n, s.kindAt (a + i) = some .device

/-- The word in memory at four addresses, little-endian (R72). -/
def State.wordAt (s : State) (a : Nat) : Word :=
  wordOfFour (s.byteAt a) (s.byteAt (a + 1)) (s.byteAt (a + 2)) (s.byteAt (a + 3))

/-- The half-word at `p` can be fetched from memory and is `w`. -/
def State.Fetches (s : State) (p : CodeAddr) (w : Half) : Prop :=
  s.Readable p.toNat 2 ∧ s.isFresh p.toNat = false ∧ s.isFresh (p.toNat + 1) = false ∧ s.halfAt p.toNat = w

/-! ### What an instruction leaves alone -/

/-- The hidden state after every instruction that is no PFX, no transfer and no WRCTL to STATUS (R30, R49). -/
structure Idle (t : State) : Prop where
  k : t.k = 0
  pfxf : t.pfxf = false
  bt : t.bt = none
  nopReq : t.nopReq = false

/-- The registers and the environment outside STATUS's flags, the register file, memory and the hidden state. -/
structure KeepsControl (s t : State) : Prop where
  cfg : t.cfg = s.cfg
  ie : t.ie = s.ie
  ipri : t.ipri = s.ipri
  cwp : t.cwp = s.cwp
  istatus : t.istatus = s.istatus
  wvalid : t.wvalid = s.wvalid
  irqInputs : t.irqInputs = s.irqInputs
  busWrites : t.busWrites = s.busWrites

/-- Every physical register but those named keeps its value. -/
def KeepsRegisters (s t : State) (written : Nat → Prop) : Prop := ∀ q, ¬ written q → t.phys q = s.phys q

/-- Every byte of memory but the `n` from `a` on reads as before, and none of the vector table's counts as written that
did not (R282). -/
def KeepsBytesBut (s t : State) (a n : Nat) : Prop :=
  (∀ b, (b < a ∨ a + n ≤ b) → t.byteAt b = s.byteAt b) ∧
    ∀ i < tableSize, (s.cfg.vecBase.toNat + i < a ∨ a + n ≤ s.cfg.vecBase.toNat + i) → t.tableByte i = s.tableByte i

/-- Every byte of memory reads as before, and the same bytes of the vector table count as written (R282). -/
def KeepsMemory (s t : State) : Prop := (∀ a, t.byteAt a = s.byteAt a) ∧ t.tableWritten = s.tableWritten

/-- The bytes of the vector table among the `n` from `a` on count as written (R282). -/
def FillsTable (s t : State) (a n : Nat) : Prop :=
  ∀ i < tableSize, a ≤ s.cfg.vecBase.toNat + i → s.cfg.vecBase.toNat + i < a + n → t.tableByte i = true

/-- The frame of an instruction that writes register `i`, perhaps flags, and nothing else. -/
structure WritesOnly (s t : State) (i : RegIdx) : Prop where
  others : KeepsRegisters s t (· = physIndex s.cwp i)
  memory : KeepsMemory s t
  control : KeepsControl s t
  freeCount : t.freeCount = s.freeCount

/-- The frame of an instruction that writes no register and no memory. -/
structure WritesNothing (s t : State) : Prop where
  others : KeepsRegisters s t fun _ => False
  memory : KeepsMemory s t
  control : KeepsControl s t
  freeCount : t.freeCount = s.freeCount

/-- The frame of an instruction that stores `n` bytes from `a` on, and nothing else. -/
structure StoresOnly (s t : State) (a n : Nat) : Prop where
  others : KeepsRegisters s t fun _ => False
  memory : KeepsBytesBut s t a n
  table : FillsTable s t a n
  control : KeepsControl s t
  flags : t.flags = s.flags
  freeCount : t.freeCount = s.freeCount

/-- The end of an instruction that sets no pc: the hidden state is idle and the pc follows (R11 items 6 and 7). -/
def Follows (s t : State) : Prop := Idle t ∧ t.pc = s.followPc

/-! ### Flags in terms of unlimited precision (R37, Table 7) -/

/-- The flags of a sum: sign, signed overflow, zero, carry-out. -/
def SumFlags (x y : Word) (f : Flags) : Prop :=
  f.n = decide ((x + y).toInt < 0) ∧ f.v = decide ((x + y).toInt ≠ x.toInt + y.toInt) ∧
    f.z = decide ((x + y).toNat = 0) ∧ f.c = decide (2 ^ 32 ≤ x.toNat + y.toNat)

/-- The flags of a difference: sign, signed overflow, zero, borrow-out. -/
def DifferenceFlags (x y : Word) (f : Flags) : Prop :=
  f.n = decide ((x - y).toInt < 0) ∧ f.v = decide ((x - y).toInt ≠ x.toInt - y.toInt) ∧
    f.z = decide (x.toNat = y.toNat) ∧ f.c = decide (x.toNat < y.toNat)

/-- The flags of a logical result: N and Z from it, V and C as they were (R41). -/
def LogicFlags (r : Word) (old f : Flags) : Prop :=
  f.n = decide (r.toInt < 0) ∧ f.z = decide (r.toNat = 0) ∧ f.v = old.v ∧ f.c = old.c

/-! ### Skips and exceptions -/

/-- What a skip does when its test is `test` and the word after it can be fetched (R230, R231): with a false test the
next pc is `pc + 2`; with a true one it passes over the next word, or over a PFX and the word after it. Registers, flags
and memory stay as they were. -/
def SkipsWhen (i : Instr) (s : State) (test : Bool) : Prop :=
  (test = false → ∀ w, s.Fetches (s.pc + 2) w → s.pcFits 2 →
    ∃ t, exec i s = .next t ∧ t.pc = s.pc + 2 ∧ Idle t ∧ WritesNothing s t ∧ t.flags = s.flags) ∧
  (test = true → ∀ w, s.Fetches (s.pc + 2) w → w.extractLsb' 11 5 ≠ 0b10011#5 → s.pcFits 4 →
    ∃ t, exec i s = .next t ∧ t.pc = s.pc + 4 ∧ Idle t ∧ WritesNothing s t ∧ t.flags = s.flags) ∧
  (test = true → ∀ w, s.Fetches (s.pc + 2) w → w.extractLsb' 11 5 = 0b10011#5 → s.pcFits 6 →
    ∃ t, exec i s = .next t ∧ t.pc = s.pc + 6 ∧ Idle t ∧ WritesNothing s t ∧ t.flags = s.flags)

/-- The handler of exception `n` is entered from `s` (R280): ISTATUS holds `saved`, the window is `w`, `%o7` of that
window holds half of the return location `ret`, and the pc is twice the vector table's entry. -/
structure EntersHandler (s t : State) (n : BitVec 6) (ret : CodeAddr) (saved : Half) (w : BitVec 5) : Prop where
  istatus : t.istatus = saved
  cwp : t.cwp = w
  ie : t.ie = false
  ipri : t.ipri = n
  flags : t.flags = s.flags
  link : (t.reg 15).toNat = ret.toNat / 2
  pc : t.pc.toNat = 2 * (s.wordAt (s.cfg.vecBase.toNat + 4 * n.toNat)).toNat
  idle : Idle t
  memory : KeepsMemory s t
  wvalid : t.wvalid = s.wvalid
  cfg : t.cfg = s.cfg
  irqInputs : t.irqInputs = s.irqInputs
  busWrites : t.busWrites = s.busWrites
  freeCount : t.freeCount = s.freeCount

/-- The entry of exception `n` in the vector table can be read, and its bytes have been written where they are in memory
that can be (R282). -/
def State.VectorReadable (s : State) (n : BitVec 6) : Prop :=
  s.Readable (s.cfg.vecBase.toNat + 4 * n.toNat) 4 ∧
    ∀ i < 4, s.kindAt (s.cfg.vecBase.toNat + 4 * n.toNat + i) = some .ram → s.tableByte (4 * n.toNat + i) = true

/-- All four bytes of entry `n` of the vector table are there, and the first in memory that can be written that nothing
has written is byte `i` of them (R282). -/
def State.FirstUnwritten (s : State) (n : BitVec 6) (i : Nat) : Prop :=
  s.Present (s.cfg.vecBase.toNat + 4 * n.toNat) 4 ∧ i < 4 ∧
    s.kindAt (s.cfg.vecBase.toNat + 4 * n.toNat + i) = some .ram ∧ s.tableByte (4 * n.toNat + i) = false ∧
    ∀ j < i, s.kindAt (s.cfg.vecBase.toNat + 4 * n.toNat + j) = some .ram → s.tableByte (4 * n.toNat + j) = true

/-- The jump through the entry of exception `n` stops with `r` (R282, U14): nothing stands behind a byte of it, or all its
bytes are there and one in memory that can be written never was. -/
def State.VectorStops (s : State) (n : BitVec 6) (r : Refusal) : Prop :=
  (∃ i, s.FirstUnmapped (s.cfg.vecBase.toNat + 4 * n.toNat) 4 i ∧
      r = .unmappedAddress (s.cfg.vecBase.toNat + 4 * n.toNat + i)) ∨
    ∃ i, s.FirstUnwritten n i ∧ r = .vectorNeverWritten (s.cfg.vecBase.toNat + 4 * n.toNat + i)

/-- Window `w` is mapped: all its registers exist (R24). -/
def State.Mapped (s : State) (w : BitVec 5) : Prop := w.toNat ≤ s.cfg.regFile.maxWindow

end Sys2Proof.Machine

namespace Sys2Proof

open Machine

/-! ### Which instructions are which -/

/-- The instructions of the flag table (R44). -/
def Instr.inFlagTable : Instr → Bool
  | .add _ _ | .addi _ _ | .sub _ _ | .subi _ _ | .cmp _ _ | .cmpi _ _ => true
  | .and _ _ | .andn _ _ | .or _ _ | .xor _ _ => true
  | .rlc _ | .rrc _ | .wrctl _ | .tret _ => true
  | _ => false

/-- The store instructions (43_load_store.md). -/
def Instr.isStore : Instr → Bool
  | .st _ _ | .stp _ _ _ | .sts _ _ => true
  | .st8d _ | .st8s _ _ | .st16d _ | .st16s _ _ | .sts8s _ | .sts16s _ => true
  | _ => false

/-- The address that a load instruction reads its word from (R77, R212). -/
def Instr.loadsAt (s : State) : Instr → Option Nat
  | .ld _ b => some (wordAddr (eaRegister s b))
  | .ldp p n _ => some (wordAddr (eaPointer s p n))
  | .lds n _ => some (wordAddr (eaStackWord s n))
  | _ => none

/-- The first address that a store instruction writes, and how many bytes (R78, R79, R81, R212). -/
def Instr.storesAt (s : State) : Instr → Option (Nat × Nat)
  | .st _ b => some (wordAddr (eaRegister s b), 4)
  | .stp p n _ => some (wordAddr (eaPointer s p n), 4)
  | .sts n _ => some (wordAddr (eaStackWord s n), 4)
  | .st8d a => some (byteAddr (eaRegister s a) (byteLane (s.reg a)), 1)
  | .st8s a n => some (byteAddr (eaRegister s a) n, 1)
  | .st16d a => some (halfAddr (eaRegister s a) (halfLane (s.reg a)), 2)
  | .st16s a n => some (halfAddr (eaRegister s a) n, 2)
  | .sts8s n => some (byteAddr (eaStackByte s n) (n.extractLsb' 0 2), 1)
  | .sts16s n => some (halfAddr (eaStackHalf s n) (n.extractLsb' 0 1), 2)
  | _ => none

/-- The visible registers of the current window that an instruction reads or writes, its implicit ones included (R26);
`prefixed` says that a PFX makes the second field of AND, ANDN, OR and XOR an immediate (R108). -/
def Instr.registers (prefixed : Bool) : Instr → List RegIdx
  | .add a b | .sub a b | .cmp a b | .lsl a b | .lsr a b | .asr a b | .mov a b | .ext8d a b | .ext16d a b => [a, b]
  | .and a b | .andn a b | .or a b | .xor a b => if prefixed then [a] else [a, b]
  | .ld a b | .st a b => [a, b]
  | .ldp p _ a | .stp p _ a => [ptrReg p, a]
  | .lds _ a | .sts _ a => [spReg, a]
  | .addi a _ | .subi a _ | .cmpi a _ | .lsli a _ | .lsri a _ | .asri a _ | .bgen a _ | .movi a _ | .movhi a _ => [a]
  | .neg a | .abs a | .not a | .rlc a | .rrc a | .sext8 a | .sext16 a | .swap a => [a]
  | .mul a | .mstep a | .fill8 a | .fill16 a => [0, a]
  | .ext8s a _ => [a]
  | .ext16s a _ => [a]
  | .st8d a | .st16d a => [0, a]
  | .st8s a _ => [0, a]
  | .st16s a _ => [0, a]
  | .sts8s _ => [0, spReg]
  | .sts16s _ => [0, spReg]
  | .jmp a => [a]
  | .call a => [a, linkReg]
  | .lret => [linkReg]
  | .ret => [returnReg]
  | .bsr _ => [linkReg]
  | .skp0 a _ | .skp1 a _ | .if0 a _ | .if1 a _ => [a]
  | .skprz a | .skprnz a | .ifrz a | .ifrnz a => [a]
  | .save _ => [spReg]
  | .tret a | .rdctl a | .wrctl a => [a]
  | .nop => [0]
  | .br _ | .skps _ | .ifs _ | .restore | .trap _ | .pfx _ => []

/-- The instructions that write a control register's field other than a flag (R25, R34 to R39). -/
def Instr.writesControl : Instr → Bool
  | .save _ | .restore | .trap _ | .tret _ | .wrctl _ => true
  | _ => false

/-- The instructions that may not stand in a delay slot, with their aliases (R311). -/
def Instr.forbiddenInSlot : Instr → Bool
  | .br _ | .bsr _ | .jmp _ | .call _ | .lret | .ret => true
  | .tret _ | .trap _ | .pfx _ => true
  | .skp0 _ _ | .skp1 _ _ | .skprz _ | .skprnz _ | .skps _ => true
  | .if0 _ _ | .if1 _ _ | .ifrz _ | .ifrnz _ | .ifs _ => true
  | _ => false

/-- The instruction is NOP, under either of its names (R195). -/
def Instr.isNop : Instr → Bool
  | .nop => true
  | .mov a b => a == 0 && b == 0
  | _ => false

end Sys2Proof
end

