-- ==== Sys2Proof/Certificates/Slice0/Obligations.lean ====
section
/-! DEFINITION. The statements about the model that are to be proved. Each docstring names the rules of spec/ it rests
on; OBLIGATIONS.json lists them with their tiers. Sys2Proof/Tests/Slice0.lean shows for each that its hypotheses can be
met. -/

open Sys2Proof Sys2Proof.Machine

/-! ### Encoding -/

/-- Decoding the encoding of a well-formed instruction gives it back, under the name the decoder uses for its word, and
leaves the bytes after it (R100 to R114, R128). -/
def Obligations.DecodeOfEncodeIsCanonical : Prop :=
  ∀ (i : Instr) (rest : List Byte), i.wellFormed = true → decode (encode i ++ rest) = .ok (i.canonical, rest)

/-- Encoding what was decoded gives the word back: every bit of an instruction word is read (R100 to R114). -/
def Obligations.EncodeOfDecodeIsTheWord : Prop :=
  ∀ (w : Half) (i : Instr), decodeWord w = .ok i → encodeWord i = w ∧ i.wellFormed = true ∧ i.canonical = i

/-- The words that are no instruction are exactly those of R130's list. -/
def Obligations.UndecodedWordsAreTheUnassigned : Prop :=
  ∀ w : Half, (∃ e, decodeWord w = .error e) ↔
    (w.extractLsb' 10 6 = 0b011100#6 ∨
      (w.extractLsb' 10 6 = 0b011101#6 ∧
        (w.extractLsb' 7 3 = 0b010#3 ∨ w.extractLsb' 7 3 = 0b011#3 ∨ w.extractLsb' 7 3 = 0b110#3 ∨
          w.extractLsb' 7 3 = 0b111#3 ∨
          ((w.extractLsb' 7 3 = 0b001#3 ∨ w.extractLsb' 7 3 = 0b101#3) ∧ w.extractLsb' 5 1 = 1#1))) ∨
      (w.extractLsb' 10 6 = 0b011110#6 ∧
        (w.extractLsb' 8 2 = 0b10#2 ∨ w.extractLsb' 8 2 = 0b11#2 ∨
          (w.extractLsb' 8 2 = 0b01#2 ∧ w.extractLsb' 6 2 ≠ 0b00#2))) ∨
      (w.extractLsb' 10 6 = 0b011111#6 ∧
        (w.extractLsb' 5 5 ∈ [0b00111#5, 0b01001#5, 0b01010#5, 0b01011#5, 0b01100#5, 0b01111#5, 0b11011#5, 0b11100#5,
            0b11101#5] ∨
          (w.extractLsb' 5 5 = 0b01101#5 ∧ w.extractLsb' 0 5 ≠ 0b00000#5) ∨
          (w.extractLsb' 5 5 = 0b10111#5 ∧ w.extractLsb' 4 1 = 1#1) ∨
          (w.extractLsb' 5 5 = 0b10111#5 ∧ w.extractLsb' 4 1 = 0#1 ∧
            (w.extractLsb' 0 4 = 0xe#4 ∨ w.extractLsb' 0 4 = 0xf#4)))) ∨
      (w.extractLsb' 10 6 = 0b011001#6 ∧ w.extractLsb' 0 1 = 1#1) ∨
      w.extractLsb' 11 5 = 0b10010#5)

/-- Words of every family, written out from their formats, decode to the instructions they stand for (R101 to R114,
R128). Two of the opcodes are not the source's own: RDCTL's is general knowledge in R113 (G12; log 2), and the word of
STS is R114's derivation (log 39). -/
def Obligations.WrittenOutWordsDecode : Prop :=
  decodeWord 0b000000_00000_10011#16 = .ok (.add 19 0) ∧
    decodeWord 0b001110_00001_00000#16 = .ok (.and 0 1) ∧
    decodeWord 0b011010_11100_11011#16 = .ok (.ext16d 27 28) ∧
    decodeWord 0b1011_10_00011_01011#16 = .ok (.ldp 2 3 11) ∧
    decodeWord 0b110_00000011_01001#16 = .ok (.sts 3 9) ∧
    decodeWord 0b10000_11111111110#16 = .ok (.br 2046) ∧
    decodeWord 0b011111_10111_0_0010#16 = .ok (.skps 2) ∧
    decodeWord 0b011110_00_00010111#16 = .ok (.save 23) ∧
    decodeWord 0b011111_11001_00001#16 = .ok (.rdctl 1) ∧
    decodeWord 0b001100_00000_00000#16 = .ok .nop

/-- Each alias has the word of its partner and does what its partner does (R128, R195, R226, R227, R237). -/
def Obligations.AliasesAreTheirPartners : Prop :=
  (encodeWord .nop = encodeWord (.mov 0 0) ∧ encodeWord .lret = encodeWord (.jmp 15) ∧
      encodeWord .ret = encodeWord (.jmp 31)) ∧
    (∀ a n, encodeWord (.if0 a n) = encodeWord (.skp1 a n) ∧ encodeWord (.if1 a n) = encodeWord (.skp0 a n)) ∧
    (∀ a, encodeWord (.ifrz a) = encodeWord (.skprnz a) ∧ encodeWord (.ifrnz a) = encodeWord (.skprz a)) ∧
    (∀ c, encodeWord (.ifs c) = encodeWord (.skps c)) ∧
    ∀ s : State, exec .nop s = exec (.mov 0 0) s ∧ exec .lret s = exec (.jmp 15) s ∧ exec .ret s = exec (.jmp 31) s ∧
      (∀ a n, exec (.if0 a n) s = exec (.skp1 a n) s ∧ exec (.if1 a n) s = exec (.skp0 a n) s) ∧
      (∀ a, exec (.ifrz a) s = exec (.skprnz a) s ∧ exec (.ifrnz a) s = exec (.skprz a) s) ∧
      ∀ c, exec (.ifs c) s = exec (.skps c) s

/-! ### The step -/

/-- When no interrupt is accepted and the two bytes at the pc, as they stand after the environment has acted, decode to
an admitted instruction, the step is that instruction's effect on that state (R11, R74, R76). Nothing else is added around
it. A byte at a peripheral's address is the one the environment presents, and its fetch draws a free value (R82, R295;
log 32). -/
def Obligations.StepRunsTheDecodedInstruction : Prop :=
  ∀ (s u : State) (i : Instr), u = s.sampled → interruptNow s = none → u.Present u.pc.toNat 2 →
    u.isFresh u.pc.toNat = false → u.isFresh (u.pc.toNat + 1) = false →
    decode [u.busByte u.pc.toNat, u.busByte (u.pc.toNat + 1)] = .ok (i, []) → i.wellFormed = true →
    (u.cfg.admitGk = true ∨ i.fromGeneralKnowledge = false) →
    (u.Readable u.pc.toNat 2 → step s = exec i u) ∧
      (¬u.Readable u.pc.toNat 2 → step s = exec i { u with freeCount := u.freeCount + 1 })

/-- A word that is no instruction stops the step, with no effect, and so does a general-knowledge encoding where the
configuration does not admit them (R130, D14). Both are decisions of the spec (log 2, 28). -/
def Obligations.StepRefusesUnassignedWords : Prop :=
  ∀ (s : State) (w : Half), interruptNow s = none → s.sampled.Fetches s.pc w →
    (∀ e, decodeWord w = .error e → step s = .refused (.unassignedEncoding e)) ∧
      ∀ i, decodeWord w = .ok i → i.fromGeneralKnowledge = true → s.cfg.admitGk = false →
        step s = .refused .unconfirmedEncoding

/-- An interrupt that R276 accepts is taken at once: the exception sequence runs with the pc as return location (R276,
R280, R281). That it is taken promptly is the model's choice (R276 leaves it; log 20). -/
def Obligations.AcceptedInterruptEntersHandler : Prop :=
  ∀ (s : State) (n : BitVec 6) (later : List (Option (BitVec 6))), s.irqInputs = some n :: later →
    s.ie = true → n.toNat < s.ipri.toNat → s.pfxf = false → s.bt = none → s.nopReq = false →
    s.cwp ≠ 0 → s.Mapped (s.cwp - 1) → s.sampled.VectorReadable n →
    ∃ t, step s = .next t ∧ EntersHandler s.sampled t n s.pc s.status (s.cwp - 1) ∧ t.irqInputs = later ∧
      KeepsRegisters s t (· = physIndex (s.cwp - 1) 15)

/-- An interrupt is not taken when `irq` is 0, IE is 0, its number is not below IPRI, after a PFX, before a delay slot,
or before the NOP that a WRCTL to STATUS asks for: the step is the instruction's (R276). That none is taken before a
delay slot or that NOP is a decision of the spec (log 19). -/
def Obligations.OtherInterruptsAreIgnored : Prop :=
  ∀ s : State,
    (s.irqInputs = [] ∨ (∃ later, s.irqInputs = none :: later) ∨
      ∃ n later, s.irqInputs = some n :: later ∧
        (s.ie = false ∨ s.ipri.toNat ≤ n.toNat ∨ s.pfxf = true ∨ s.bt ≠ none ∨ s.nopReq = true)) →
    step s = instructionStep s.sampled

/-- What the environment writes before a step stands in memory when the step runs (R86, D11): an address in memory that
can be written reads as the last byte written to it, every other address reads as before, and nothing else changes but
the inputs, which move on to the next step's. That R89 holds of the environment's writes too is the model's reading of "a
store" (log 44). -/
def Obligations.EnvironmentWritesLand : Prop :=
  ∀ (s : State) (writes : List BusWrite), s.busWrites.head? = some writes ∨ (s.busWrites = [] ∧ writes = []) →
    (∀ before w after, writes = before ++ w :: after → (∀ v ∈ after, v.addr ≠ w.addr) →
      s.kindAt w.addr.toNat = some .ram →
      s.sampled.byteAt w.addr.toNat = w.value ∧
        (0 < s.cfg.ifetchDistance → s.sampled.isFresh w.addr.toNat = true) ∧
        ∀ i < tableSize, w.addr.toNat = s.cfg.vecBase.toNat + i → s.sampled.tableByte i = true) ∧
    (∀ a, (∀ w ∈ writes, w.addr.toNat = a → s.kindAt a ≠ some .ram) →
      s.sampled.byteAt a = s.byteAt a ∧ s.sampled.isFresh a = s.isFresh a ∧
        ∀ i < tableSize, a = s.cfg.vecBase.toNat + i → s.sampled.tableByte i = s.tableByte i) ∧
    KeepsRegisters s s.sampled (fun _ => False) ∧ s.sampled.pc = s.pc ∧ s.sampled.k = s.k ∧
    s.sampled.pfxf = s.pfxf ∧ s.sampled.bt = s.bt ∧ s.sampled.nopReq = s.nopReq ∧ s.sampled.status = s.status ∧
    s.sampled.istatus = s.istatus ∧ s.sampled.wvalid = s.wvalid ∧ s.sampled.cfg = s.cfg ∧
    s.sampled.freeCount = s.freeCount ∧ s.sampled.irqInputs = s.irqInputs.tail ∧
    s.sampled.busWrites = s.busWrites.tail

/-! ### Reset and invariants -/

/-- The reset values the source states, for every configuration (R50): IE 0, IPRI 63, CWP and HI_LIMIT the highest
mapped window, ISTATUS 0, LO_LIMIT 1; with 256 registers WVALID is 0x01C1 and STATUS
is 0x7EE0 but for the flags. -/
def Obligations.ResetValuesTheSourceStates : Prop :=
  ∀ c : Config,
    (State.resetWith c).ie = false ∧ (State.resetWith c).ipri = 63 ∧
      (State.resetWith c).cwp.toNat = c.regFile.size / 16 - 2 ∧ (State.resetWith c).istatus = 0 ∧
      (State.resetWith c).loLimit = 1 ∧ (State.resetWith c).hiLimit.toNat = c.regFile.size / 16 - 2 ∧
      (c.regFile = .regs256 → (State.resetWith c).wvalid = 0x01C1 ∧ (State.resetWith c).status &&& 0xFFF0 = 0x7EE0)

/-- The invariant holds at reset, for every configuration that the spec allows (R301). That the pc is even is D2's, an
empty memory and the idle K, PFXF, BT and NOPREQ are the model's and the spec's choices (D1, D5; log 3, 5, 10). -/
def Obligations.ResetSatisfiesInvariant : Prop :=
  State.reset.Inv ∧ platform.legal = true ∧ ∀ c : Config, c.legal = true → (State.resetWith c).Inv

/-- Every step keeps the invariant: memory stays canonical, the pc and a pending target stay even (R27, R32), bits
15:10 of WVALID stay 0 (R39, D17), K is 0 except after a PFX (R29, R30), no prefixed instruction stands in a delay slot
(R311), and a store is remembered for at most IFETCH_DISTANCE instructions (R89). No step changes the implementation
parameters (R4). That bits 15:10 of WVALID read 0 and how stores are counted follow decisions of the spec (log 13, 9).
-/
def Obligations.EveryStepKeepsInvariant : Prop :=
  ∀ s t : State, step s = .next t → (s.Inv → t.Inv) ∧ t.cfg = s.cfg

/-- Every instruction but PFX ends with K 0 and PFXF false, and so does taking an interrupt (R29, R30); PFX ends with
IMM11 in K and PFXF true (R29, R181). -/
def Obligations.OnlyPfxLeavesK : Prop :=
  (∀ (i : Instr) (s t : State), (∀ n, i ≠ .pfx n) → exec i s = .next t → t.k = 0 ∧ t.pfxf = false) ∧
    (∀ (n : BitVec 11) (s t : State), exec (.pfx n) s = .next t → t.k = n ∧ t.pfxf = true) ∧
    ∀ (n : BitVec 6) (s t : State), interruptStep n s = .next t → t.k = 0 ∧ t.pfxf = false

/-- The flags change only by the rows of R44's table, and as each row says. -/
def Obligations.FlagsChangeByTheTable : Prop :=
  ∀ (i : Instr) (s t : State), exec i s = .next t →
    (i.inFlagTable = false → t.flags = s.flags) ∧
    (∀ a b, i = .add a b → t.flags = flagsAdd (s.reg a) (s.reg b)) ∧
    (∀ a n, i = .addi a n → t.flags = flagsAdd (s.reg a) (imm16 s.k n)) ∧
    (∀ a b, i = .sub a b ∨ i = .cmp a b → t.flags = flagsSub (s.reg a) (s.reg b)) ∧
    (∀ a n, i = .subi a n ∨ i = .cmpi a n → t.flags = flagsSub (s.reg a) (imm16 s.k n)) ∧
    (∀ a b, i = .and a b ∨ i = .andn a b ∨ i = .or a b ∨ i = .xor a b →
      t.flags.n = (t.reg a).msb ∧ t.flags.z = (t.reg a == 0) ∧ t.flags.v = s.flags.v ∧ t.flags.c = s.flags.c) ∧
    (∀ a, i = .rlc a → t.flags = { s.flags with c := (s.reg a).getLsbD 31 }) ∧
    (∀ a, i = .rrc a → t.flags = { s.flags with c := (s.reg a).getLsbD 0 }) ∧
    (∀ a, i = .wrctl a → t.flags = if s.k = 0 then flagsOf ((s.reg a).extractLsb' 0 16) else s.flags) ∧
    ∀ a, i = .tret a → t.flags = flagsOf s.istatus

/-- The flags after SUB, SUBI, CMP and CMPI, bit by bit: N and Z of the difference, C exactly when the first operand is
below the second as unsigned numbers, V when the operands' signs differ and the difference has not the first's (R43). The
second operand is a register, or the immediate `K : IMM5`. -/
def Obligations.FlagsOfADifference : Prop :=
  ∀ (i : Instr) (s t : State) (a : RegIdx) (y : Word), exec i s = .next t →
    ((∃ b, (i = .sub a b ∨ i = .cmp a b) ∧ y = s.reg b) ∨
      ∃ n : BitVec 5, (i = .subi a n ∨ i = .cmpi a n) ∧ y.toNat = 32 * s.k.toNat + n.toNat) →
    t.flags.n = (s.reg a - y).getLsbD 31 ∧ t.flags.z = decide (s.reg a - y = 0) ∧
      t.flags.c = decide ((s.reg a).toNat < y.toNat) ∧
      (t.flags.v = true ↔
        (s.reg a).getLsbD 31 ≠ y.getLsbD 31 ∧ (s.reg a - y).getLsbD 31 ≠ (s.reg a).getLsbD 31)

/-- IE, IPRI, CWP, ISTATUS, WVALID and the inputs change only under SAVE, RESTORE, TRAP, TRET and WRCTL; of those, only
WRCTL with K = 2 can change WVALID, and TRET leaves ISTATUS (R25, R34 to R39, R256, R259). -/
def Obligations.ControlRegistersHaveFiveWriters : Prop :=
  ∀ (i : Instr) (s t : State), exec i s = .next t →
    (i.writesControl = false → KeepsControl s t) ∧
    ((∀ a, i ≠ .wrctl a) ∨ s.k ≠ 2 ∨ s.cfg.wvalidWritable = false → t.wvalid = s.wvalid) ∧
    ((∃ a, i = .tret a) ∨ (∃ a, i = .wrctl a ∧ s.k ≠ 1) → t.istatus = s.istatus)

/-- Memory changes only under the nine store instructions (43_load_store.md). -/
def Obligations.OnlyStoresChangeMemory : Prop :=
  ∀ (i : Instr) (s t : State), i.isStore = false → exec i s = .next t → KeepsMemory s t

/-! ### Arithmetic -/

/-- ADD, ADDI, SUB and SUBI write the sum or the difference and all four flags. The second operand is a register, or the
16-bit immediate `K : IMM5`, zero-extended (R105, R106, R140 to R143). -/
def Obligations.AddAndSubOfTwoOperands : Prop :=
  ∀ (s : State) (a : RegIdx), s.Ready → s.reachable a = true →
    (∀ b, s.reachable b = true →
      (∃ t, exec (.add a b) s = .next t ∧ t.reg a = s.reg a + s.reg b ∧ SumFlags (s.reg a) (s.reg b) t.flags ∧
        WritesOnly s t a ∧ Follows s t) ∧
      ∃ t, exec (.sub a b) s = .next t ∧ t.reg a = s.reg a - s.reg b ∧ DifferenceFlags (s.reg a) (s.reg b) t.flags ∧
        WritesOnly s t a ∧ Follows s t) ∧
    ∀ (n : BitVec 5) (y : Word), y.toNat = 32 * s.k.toNat + n.toNat →
      (∃ t, exec (.addi a n) s = .next t ∧ t.reg a = s.reg a + y ∧ SumFlags (s.reg a) y t.flags ∧ WritesOnly s t a ∧
        Follows s t) ∧
      ∃ t, exec (.subi a n) s = .next t ∧ t.reg a = s.reg a - y ∧ DifferenceFlags (s.reg a) y t.flags ∧
        WritesOnly s t a ∧ Follows s t

/-- CMP and CMPI set the flags of the difference and write nothing else (R144, R145). -/
def Obligations.ComparesSetFlagsOnly : Prop :=
  ∀ (s : State) (a : RegIdx), s.Ready → s.reachable a = true →
    (∀ b, s.reachable b = true →
      ∃ t, exec (.cmp a b) s = .next t ∧ DifferenceFlags (s.reg a) (s.reg b) t.flags ∧ WritesNothing s t ∧
        Follows s t) ∧
    ∀ (n : BitVec 5) (y : Word), y.toNat = 32 * s.k.toNat + n.toNat →
      ∃ t, exec (.cmpi a n) s = .next t ∧ DifferenceFlags (s.reg a) y t.flags ∧ WritesNothing s t ∧ Follows s t

/-- NEG, ABS and NOT replace a register by its negation, absolute value or complement and leave the flags (R146, R147,
R164). The most negative number is its own negation and absolute value. -/
def Obligations.NegAbsNotReplaceARegister : Prop :=
  ∀ (s : State) (a : RegIdx), s.Ready → s.reachable a = true →
    (∃ t, exec (.neg a) s = .next t ∧
      (if s.reg a = 0x80000000#32 then t.reg a = 0x80000000#32 else (t.reg a).toInt = -(s.reg a).toInt) ∧
      WritesOnly s t a ∧ t.flags = s.flags ∧ Follows s t) ∧
    (∃ t, exec (.abs a) s = .next t ∧
      (if s.reg a = 0x80000000#32 then t.reg a = 0x80000000#32 else (t.reg a).toInt = ((s.reg a).toInt.natAbs : Int)) ∧
      WritesOnly s t a ∧ t.flags = s.flags ∧ Follows s t) ∧
    ∃ t, exec (.not a) s = .next t ∧ (t.reg a).toNat = 2 ^ 32 - 1 - (s.reg a).toNat ∧
      WritesOnly s t a ∧ t.flags = s.flags ∧ Follows s t

/-- MUL writes the product of two low half-words to `%r0`; MSTEP shifts `%r0` left and adds the register when the bit
shifted out was 1 (R148, R149). That the product is unsigned is the spec's resolution of a conflict (log 34). -/
def Obligations.MulAndMstepWriteR0 : Prop :=
  ∀ (s : State) (a : RegIdx), s.Ready → s.reachable a = true →
    (∃ t, exec (.mul a) s = .next t ∧
      (t.reg 0).toNat = (s.reg 0).toNat % 2 ^ 16 * ((s.reg a).toNat % 2 ^ 16) ∧
      WritesOnly s t 0 ∧ t.flags = s.flags ∧ Follows s t) ∧
    ∃ t, exec (.mstep a) s = .next t ∧
      (t.reg 0).toNat =
        (2 * (s.reg 0).toNat + (if 2 ^ 31 ≤ (s.reg 0).toNat then (s.reg a).toNat else 0)) % 2 ^ 32 ∧
      WritesOnly s t 0 ∧ t.flags = s.flags ∧ Follows s t

/-! ### Logic, shifts, rotates -/

/-- AND, ANDN, OR and XOR write the result and set N and Z. With no PFX before them the second operand is a register;
after a PFX, even PFX 0, the field that names it is an immediate: the operand is `K : IMM5`, zero-extended (R31, R41,
R105, R108, R160 to R163). -/
def Obligations.LogicOfTwoOperands : Prop :=
  ∀ (s : State) (a b : RegIdx) (y : Word), s.Ready → s.reachable a = true →
    (s.pfxf = false ∧ s.reachable b = true ∧ y = s.reg b) ∨
      (s.pfxf = true ∧ y.toNat = 32 * s.k.toNat + b.toNat) →
    (∃ t, exec (.and a b) s = .next t ∧ t.reg a = s.reg a &&& y ∧ LogicFlags (t.reg a) s.flags t.flags ∧
      WritesOnly s t a ∧ Follows s t) ∧
    (∃ t, exec (.andn a b) s = .next t ∧ t.reg a = s.reg a &&& ~~~y ∧ LogicFlags (t.reg a) s.flags t.flags ∧
      WritesOnly s t a ∧ Follows s t) ∧
    (∃ t, exec (.or a b) s = .next t ∧ t.reg a = s.reg a ||| y ∧ LogicFlags (t.reg a) s.flags t.flags ∧
      WritesOnly s t a ∧ Follows s t) ∧
    ∃ t, exec (.xor a b) s = .next t ∧ t.reg a = s.reg a ^^^ y ∧ LogicFlags (t.reg a) s.flags t.flags ∧
      WritesOnly s t a ∧ Follows s t

/-- The shifts by a register use its bits 4:0 as the count, the shifts by an immediate IMM5 alone, whatever K is; no flag
changes (R165 to R170). That the immediate shifts do not read K is the spec's resolution of a conflict and its decision
(C3, D6; log 15). -/
def Obligations.ShiftsUseFiveBitCounts : Prop :=
  ∀ (s : State) (a : RegIdx), s.Ready → s.reachable a = true →
    (∀ b, s.reachable b = true →
      (∃ t, exec (.lsl a b) s = .next t ∧
        (t.reg a).toNat = (s.reg a).toNat * 2 ^ ((s.reg b).toNat % 32) % 2 ^ 32 ∧
        WritesOnly s t a ∧ t.flags = s.flags ∧ Follows s t) ∧
      (∃ t, exec (.lsr a b) s = .next t ∧ (t.reg a).toNat = (s.reg a).toNat / 2 ^ ((s.reg b).toNat % 32) ∧
        WritesOnly s t a ∧ t.flags = s.flags ∧ Follows s t) ∧
      ∃ t, exec (.asr a b) s = .next t ∧ (t.reg a).toInt = (s.reg a).toInt / 2 ^ ((s.reg b).toNat % 32) ∧
        WritesOnly s t a ∧ t.flags = s.flags ∧ Follows s t) ∧
    ∀ n : BitVec 5,
      (∃ t, exec (.lsli a n) s = .next t ∧ (t.reg a).toNat = (s.reg a).toNat * 2 ^ n.toNat % 2 ^ 32 ∧
        WritesOnly s t a ∧ t.flags = s.flags ∧ Follows s t) ∧
      (∃ t, exec (.lsri a n) s = .next t ∧ (t.reg a).toNat = (s.reg a).toNat / 2 ^ n.toNat ∧
        WritesOnly s t a ∧ t.flags = s.flags ∧ Follows s t) ∧
      ∃ t, exec (.asri a n) s = .next t ∧ (t.reg a).toInt = (s.reg a).toInt / 2 ^ n.toNat ∧
        WritesOnly s t a ∧ t.flags = s.flags ∧ Follows s t

/-- RLC and RRC rotate the 33 bits of C and a register by one; N, V and Z stay (R171, R172). That the old C enters is
the spec's resolution of a conflict (log 35). -/
def Obligations.RotatesThroughCarry : Prop :=
  ∀ (s : State) (a : RegIdx), s.Ready → s.reachable a = true →
    (∃ t, exec (.rlc a) s = .next t ∧ (t.reg a).toNat = 2 * (s.reg a).toNat % 2 ^ 32 + s.flags.c.toNat ∧
      t.flags.c = decide (2 ^ 31 ≤ (s.reg a).toNat) ∧
      t.flags.n = s.flags.n ∧ t.flags.v = s.flags.v ∧ t.flags.z = s.flags.z ∧ WritesOnly s t a ∧ Follows s t) ∧
    ∃ t, exec (.rrc a) s = .next t ∧ (t.reg a).toNat = (s.reg a).toNat / 2 + 2 ^ 31 * s.flags.c.toNat ∧
      t.flags.c = decide ((s.reg a).toNat % 2 = 1) ∧
      t.flags.n = s.flags.n ∧ t.flags.v = s.flags.v ∧ t.flags.z = s.flags.z ∧ WritesOnly s t a ∧ Follows s t

/-! ### Moves and extracts -/

/-- BGEN writes the power of two that IMM5 names; MOVI writes the 16-bit immediate; MOVHI writes it to the high
half-word and keeps the low one (R105, R173, R183, R184). -/
def Obligations.BgenMoviMovhiWriteConstants : Prop :=
  ∀ (s : State) (a : RegIdx) (n : BitVec 5), s.Ready → s.reachable a = true →
    (∃ t, exec (.bgen a n) s = .next t ∧ (t.reg a).toNat = 2 ^ n.toNat ∧
      WritesOnly s t a ∧ t.flags = s.flags ∧ Follows s t) ∧
    (∃ t, exec (.movi a n) s = .next t ∧ (t.reg a).toNat = 32 * s.k.toNat + n.toNat ∧
      WritesOnly s t a ∧ t.flags = s.flags ∧ Follows s t) ∧
    ∃ t, exec (.movhi a n) s = .next t ∧
      (t.reg a).toNat = 2 ^ 16 * (32 * s.k.toNat + n.toNat) + (s.reg a).toNat % 2 ^ 16 ∧
      WritesOnly s t a ∧ t.flags = s.flags ∧ Follows s t

/-- MOV copies a register. NOP is MOV %g0,%g0: it changes no register, and it is the one instruction that runs after a
WRCTL to STATUS, which it clears (R49, R182, R195, R312). -/
def Obligations.MovCopiesAndNopIdles : Prop :=
  ∀ s : State, (s.bt = none → s.pcFits 2) →
    (∀ a b, s.nopReq = false → s.reachable a = true → s.reachable b = true →
      ∃ t, exec (.mov a b) s = .next t ∧ t.reg a = s.reg b ∧ WritesOnly s t a ∧ t.flags = s.flags ∧ Follows s t) ∧
    ∃ t, exec .nop s = .next t ∧ exec (.mov 0 0) s = .next t ∧ WritesNothing s t ∧ t.flags = s.flags ∧ Follows s t

/-- PFX puts IMM11 in K, marks the next instruction as prefixed, and changes nothing else (R29, R107, R181). -/
def Obligations.PfxLoadsK : Prop :=
  ∀ (s : State) (n : BitVec 11), s.ReadyAlone → s.pfxf = false → s.pcFits 2 →
    ∃ t, exec (.pfx n) s = .next t ∧ t.k = n ∧ t.pfxf = true ∧ t.bt = none ∧ t.nopReq = false ∧ t.pc = s.pc + 2 ∧
      WritesNothing s t ∧ t.flags = s.flags

/-- The extracts keep one byte or half-word of a register, zero-extended: the lane is in the low bits of a register or
in an immediate (R180, R186 to R189). -/
def Obligations.ExtractsKeepOneLane : Prop :=
  ∀ (s : State) (a : RegIdx), s.Ready → s.reachable a = true →
    (∀ b, s.reachable b = true →
      (∃ t, exec (.ext8d a b) s = .next t ∧
        (t.reg a).toNat = (s.reg a).toNat / 2 ^ (8 * ((s.reg b).toNat % 4)) % 2 ^ 8 ∧
        WritesOnly s t a ∧ t.flags = s.flags ∧ Follows s t) ∧
      ∃ t, exec (.ext16d a b) s = .next t ∧
        (t.reg a).toNat = (s.reg a).toNat / 2 ^ (16 * ((s.reg b).toNat / 2 % 2)) % 2 ^ 16 ∧
        WritesOnly s t a ∧ t.flags = s.flags ∧ Follows s t) ∧
    (∀ n : BitVec 2, ∃ t, exec (.ext8s a n) s = .next t ∧
      (t.reg a).toNat = (s.reg a).toNat / 2 ^ (8 * n.toNat) % 2 ^ 8 ∧
      WritesOnly s t a ∧ t.flags = s.flags ∧ Follows s t) ∧
    ∀ n : BitVec 1, ∃ t, exec (.ext16s a n) s = .next t ∧
      (t.reg a).toNat = (s.reg a).toNat / 2 ^ (16 * n.toNat) % 2 ^ 16 ∧
      WritesOnly s t a ∧ t.flags = s.flags ∧ Follows s t

/-- SEXT8 and SEXT16 make the signed number of the low byte or half-word (R190, R191); SWAP exchanges the half-words
(R194); FILL8 and FILL16 put the low byte or half-word into every lane of `%r0` (R192, R193). That SWAP puts the high
half-word low and leaves the flags is general knowledge in R194 (G7; log 2). -/
def Obligations.SignExtendsFillsAndSwap : Prop :=
  ∀ (s : State) (a : RegIdx), s.Ready → s.reachable a = true →
    (∃ t, exec (.sext8 a) s = .next t ∧
      (t.reg a).toInt = (if (s.reg a).toNat % 2 ^ 8 < 2 ^ 7 then (((s.reg a).toNat % 2 ^ 8 : Nat) : Int)
        else (((s.reg a).toNat % 2 ^ 8 : Nat) : Int) - 2 ^ 8) ∧
      WritesOnly s t a ∧ t.flags = s.flags ∧ Follows s t) ∧
    (∃ t, exec (.sext16 a) s = .next t ∧
      (t.reg a).toInt = (if (s.reg a).toNat % 2 ^ 16 < 2 ^ 15 then (((s.reg a).toNat % 2 ^ 16 : Nat) : Int)
        else (((s.reg a).toNat % 2 ^ 16 : Nat) : Int) - 2 ^ 16) ∧
      WritesOnly s t a ∧ t.flags = s.flags ∧ Follows s t) ∧
    (∃ t, exec (.swap a) s = .next t ∧
      (t.reg a).toNat = 2 ^ 16 * ((s.reg a).toNat % 2 ^ 16) + (s.reg a).toNat / 2 ^ 16 ∧
      WritesOnly s t a ∧ t.flags = s.flags ∧ Follows s t) ∧
    (∃ t, exec (.fill8 a) s = .next t ∧
      (t.reg 0).toNat = (s.reg a).toNat % 2 ^ 8 * (1 + 2 ^ 8 + 2 ^ 16 + 2 ^ 24) ∧
      WritesOnly s t 0 ∧ t.flags = s.flags ∧ Follows s t) ∧
    ∃ t, exec (.fill16 a) s = .next t ∧ (t.reg 0).toNat = (s.reg a).toNat % 2 ^ 16 * (1 + 2 ^ 16) ∧
      WritesOnly s t 0 ∧ t.flags = s.flags ∧ Follows s t

/-! ### Loads and stores -/

/-- The effective addresses of R212 as numbers: a signed word offset K for LD, ST and the partial stores through a
register; IMM5 words without PFX and signed `K : IMM5` words with it for LDP and STP; IMM8 words, IMM10 bytes and IMM9
half-words above `%sp`. The word address drops the low two bits (R77, R78). -/
def Obligations.EffectiveAddresses : Prop :=
  (∀ (s : State) (b : RegIdx), ((eaRegister s b).toNat : Int) = ((s.reg b).toNat + 4 * s.k.toInt) % 2 ^ 32) ∧
    (∀ (s : State) (p : BitVec 2) (n : BitVec 5),
      (ptrReg p).toNat = 16 + p.toNat ∧
      (s.pfxf = false → (eaPointer s p n).toNat = ((s.reg (ptrReg p)).toNat + 4 * n.toNat) % 2 ^ 32) ∧
      (s.pfxf = true →
        ((eaPointer s p n).toNat : Int) = ((s.reg (ptrReg p)).toNat + 4 * (s.k ++ n).toInt) % 2 ^ 32)) ∧
    (∀ s : State,
      (∀ n : BitVec 8, (eaStackWord s n).toNat = ((s.reg 14).toNat + 4 * n.toNat) % 2 ^ 32) ∧
      (∀ n : BitVec 10, (eaStackByte s n).toNat = ((s.reg 14).toNat + n.toNat) % 2 ^ 32) ∧
      ∀ n : BitVec 9, (eaStackHalf s n).toNat = ((s.reg 14).toNat + 2 * n.toNat) % 2 ^ 32) ∧
    ∀ ea : Word, wordAddr ea = ea.toNat / 4 * 4

/-- LD, LDP and LDS read the aligned word of memory and write it to the register, the address taken first; nothing else
changes (R74, R77, R200 to R202). -/
def Obligations.LoadsReadTheAlignedWord : Prop :=
  ∀ (s : State) (a : RegIdx), s.Ready → s.reachable a = true →
    (∀ b, s.reachable b = true → s.Readable (wordAddr (eaRegister s b)) 4 →
      ∃ t, exec (.ld a b) s = .next t ∧ t.reg a = s.wordAt (wordAddr (eaRegister s b)) ∧
        WritesOnly s t a ∧ t.flags = s.flags ∧ Follows s t) ∧
    (∀ p n, s.reachable (ptrReg p) = true → s.Readable (wordAddr (eaPointer s p n)) 4 →
      ∃ t, exec (.ldp p n a) s = .next t ∧ t.reg a = s.wordAt (wordAddr (eaPointer s p n)) ∧
        WritesOnly s t a ∧ t.flags = s.flags ∧ Follows s t) ∧
    ∀ n, s.reachable 14 = true → s.Readable (wordAddr (eaStackWord s n)) 4 →
      ∃ t, exec (.lds n a) s = .next t ∧ t.reg a = s.wordAt (wordAddr (eaStackWord s n)) ∧
        WritesOnly s t a ∧ t.flags = s.flags ∧ Follows s t

/-- A load from a peripheral gives four bytes that the environment chooses, a fresh choice each time, and is otherwise
a load like any other (R74, R82). That the bytes are free values is the model's form (log 22). -/
def Obligations.LoadsFromAPeripheralAreFree : Prop :=
  ∀ (s : State) (a b : RegIdx) (p : BitVec 2) (n5 : BitVec 5) (n8 : BitVec 8) (x : Nat), s.Ready →
    s.reachable a = true → s.OnDevice x 4 →
    (s.reachable b = true → wordAddr (eaRegister s b) = x →
      ∃ t, exec (.ld a b) s = .next t ∧
        (∀ i < 4, byteOf (t.reg a) i = Config.deviceByte s.freeCount (x + i)) ∧ t.freeCount = s.freeCount + 1 ∧
        KeepsRegisters s t (· = physIndex s.cwp a) ∧ KeepsMemory s t ∧ KeepsControl s t ∧ t.flags = s.flags ∧
        Follows s t) ∧
    (s.reachable (ptrReg p) = true → wordAddr (eaPointer s p n5) = x →
      ∃ t, exec (.ldp p n5 a) s = .next t ∧
        (∀ i < 4, byteOf (t.reg a) i = Config.deviceByte s.freeCount (x + i)) ∧ t.freeCount = s.freeCount + 1 ∧
        KeepsRegisters s t (· = physIndex s.cwp a) ∧ KeepsMemory s t ∧ KeepsControl s t ∧ t.flags = s.flags ∧
        Follows s t) ∧
    (s.reachable 14 = true → wordAddr (eaStackWord s n8) = x →
      ∃ t, exec (.lds n8 a) s = .next t ∧
        (∀ i < 4, byteOf (t.reg a) i = Config.deviceByte s.freeCount (x + i)) ∧ t.freeCount = s.freeCount + 1 ∧
        KeepsRegisters s t (· = physIndex s.cwp a) ∧ KeepsMemory s t ∧ KeepsControl s t ∧ t.flags = s.flags ∧
        Follows s t)

/-- A store to a peripheral completes: the bytes go to the environment, and the machine's memory, its registers and its
flags stay as they were (R75, R82). That the model keeps nothing of such a store is its form of R82 (log 22). -/
def Obligations.StoresToAPeripheralLeaveMemory : Prop :=
  ∀ (i : Instr) (s : State) (x n : Nat), i.storesAt s = some (x, n) → s.Ready →
    (∀ r ∈ i.registers s.pfxf, s.reachable r = true) → s.OnDevice x n →
    ∃ t, exec i s = .next t ∧ KeepsRegisters s t (fun _ => False) ∧ KeepsMemory s t ∧ KeepsControl s t ∧
      t.flags = s.flags ∧ t.freeCount = s.freeCount ∧ Follows s t

/-- ST, STP and STS put the register at the aligned word, little-endian, and change no other byte (R72, R75, R78, R203,
R204, R209). -/
def Obligations.WordStoresWriteTheAlignedWord : Prop :=
  ∀ (s : State) (a : RegIdx), s.Ready → s.reachable a = true →
    (∀ b, s.reachable b = true → s.Writable (wordAddr (eaRegister s b)) 4 →
      ∃ t, exec (.st a b) s = .next t ∧ t.wordAt (wordAddr (eaRegister s b)) = s.reg a ∧
        StoresOnly s t (wordAddr (eaRegister s b)) 4 ∧ Follows s t) ∧
    (∀ p n, s.reachable (ptrReg p) = true → s.Writable (wordAddr (eaPointer s p n)) 4 →
      ∃ t, exec (.stp p n a) s = .next t ∧ t.wordAt (wordAddr (eaPointer s p n)) = s.reg a ∧
        StoresOnly s t (wordAddr (eaPointer s p n)) 4 ∧ Follows s t) ∧
    ∀ n, s.reachable 14 = true → s.Writable (wordAddr (eaStackWord s n)) 4 →
      ∃ t, exec (.sts n a) s = .next t ∧ t.wordAt (wordAddr (eaStackWord s n)) = s.reg a ∧
        StoresOnly s t (wordAddr (eaStackWord s n)) 4 ∧ Follows s t

/-- ST8d, ST8s, ST16d and ST16s store one byte or half-word of `%r0` in the lane it comes from: the address register's
low bits or the immediate say which (R79, R81, R205 to R208). -/
def Obligations.PartialStoresKeepTheLane : Prop :=
  ∀ (s : State) (a : RegIdx), s.Ready → s.reachable a = true →
    (∀ x, x = wordAddr (eaRegister s a) + (s.reg a).toNat % 4 → s.Writable x 1 →
      ∃ t, exec (.st8d a) s = .next t ∧
        (t.byteAt x).toNat = (s.reg 0).toNat / 2 ^ (8 * ((s.reg a).toNat % 4)) % 2 ^ 8 ∧
        StoresOnly s t x 1 ∧ Follows s t) ∧
    (∀ (n : BitVec 2) (x : Nat), x = wordAddr (eaRegister s a) + n.toNat → s.Writable x 1 →
      ∃ t, exec (.st8s a n) s = .next t ∧ (t.byteAt x).toNat = (s.reg 0).toNat / 2 ^ (8 * n.toNat) % 2 ^ 8 ∧
        StoresOnly s t x 1 ∧ Follows s t) ∧
    (∀ x, x = wordAddr (eaRegister s a) + 2 * ((s.reg a).toNat / 2 % 2) → s.Writable x 2 →
      ∃ t, exec (.st16d a) s = .next t ∧
        (t.halfAt x).toNat = (s.reg 0).toNat / 2 ^ (16 * ((s.reg a).toNat / 2 % 2)) % 2 ^ 16 ∧
        StoresOnly s t x 2 ∧ Follows s t) ∧
    ∀ (n : BitVec 1) (x : Nat), x = wordAddr (eaRegister s a) + 2 * n.toNat → s.Writable x 2 →
      ∃ t, exec (.st16s a n) s = .next t ∧ (t.halfAt x).toNat = (s.reg 0).toNat / 2 ^ (16 * n.toNat) % 2 ^ 16 ∧
        StoresOnly s t x 2 ∧ Follows s t

/-- STS8s and STS16s store one lane of `%r0` above `%sp`: the word comes from the aligned sum, the lane from the
immediate (R210, R211). That the lane comes from the immediate for an unaligned `%sp` is general knowledge (log 14); for
an aligned one the byte written is at `%sp` plus the offset. -/
def Obligations.StackPartialStores : Prop :=
  ∀ s : State, s.Ready → s.reachable 14 = true →
    (∀ (n : BitVec 10) (x : Nat), x = wordAddr (eaStackByte s n) + n.toNat % 4 → s.Writable x 1 →
      ((s.reg 14).toNat % 4 = 0 → x = ((s.reg 14).toNat + n.toNat) % 2 ^ 32) ∧
      ∃ t, exec (.sts8s n) s = .next t ∧ (t.byteAt x).toNat = (s.reg 0).toNat / 2 ^ (8 * (n.toNat % 4)) % 2 ^ 8 ∧
        StoresOnly s t x 1 ∧ Follows s t) ∧
    ∀ (n : BitVec 9) (x : Nat), x = wordAddr (eaStackHalf s n) + 2 * (n.toNat % 2) → s.Writable x 2 →
      ((s.reg 14).toNat % 4 = 0 → x = ((s.reg 14).toNat + 2 * n.toNat) % 2 ^ 32) ∧
      ∃ t, exec (.sts16s n) s = .next t ∧ (t.halfAt x).toNat = (s.reg 0).toNat / 2 ^ (16 * (n.toNat % 2)) % 2 ^ 16 ∧
        StoresOnly s t x 2 ∧ Follows s t

/-- A word stored with ST is what the next instruction loads from the same address (R86, R315). That stores take effect
in program order, each before the next access, is the spec's decision (D11; log 36). -/
def Obligations.StoredWordIsLoadedBack : Prop :=
  ∀ (s : State) (a b c : RegIdx), s.ReadyAlone → s.pcFits 4 → s.k = 0 → s.reachable a = true → s.reachable b = true →
    s.reachable c = true → s.Writable (wordAddr (s.reg b)) 4 →
    ∃ t u, exec (.st a b) s = .next t ∧ exec (.ld c b) t = .next u ∧ u.reg c = s.reg a

/-- Where a byte of an access does not exist, the machine stops at the first such byte and the access has no effect: every
load, every store, the instruction fetch, and the vector fetch of TRAP, of an interrupt and of the two window exceptions
(R271, D1). So it does at the first byte of a store that is in read-only memory, and at a vector entry in memory that can
be written of which a byte never was (R282). The stops are the spec's treatment of what the source leaves open (U14; log
8, 24). -/
def Obligations.AccessesOutsideMemoryStop : Prop :=
  (∀ (i : Instr) (s : State), s.Ready → (∀ r ∈ i.registers s.pfxf, s.reachable r = true) →
    (∀ x j, i.loadsAt s = some x → s.FirstUnmapped x 4 j → exec i s = .refused (.unmappedAddress (x + j))) ∧
    (∀ x n j, i.storesAt s = some (x, n) → s.FirstUnmapped x n j → exec i s = .refused (.unmappedAddress (x + j))) ∧
    ∀ x n j, i.storesAt s = some (x, n) → s.FirstReadOnly x n j → exec i s = .refused (.storeToReadOnly (x + j))) ∧
  (∀ (s : State) (j : Nat), interruptNow s = none → s.FirstUnmapped s.pc.toNat 2 j →
    step s = .refused (.unmappedAddress (s.pc.toNat + j))) ∧
  (∀ (s : State) (n : BitVec 6) (r : Refusal), s.VectorStops n r → s.cwp ≠ 0 → s.Mapped (s.cwp - 1) →
    interruptStep n s = .refused r ∧ (s.ReadyAlone → s.pcFits 2 → exec (.trap n) s = .refused r)) ∧
  (∀ (s : State) (m : BitVec 8) (r : Refusal), s.VectorStops 1 r → s.Ready → s.cwp ≠ 0 → s.Mapped s.cwp →
    s.cwp = s.loLimit → s.ie = true → 1 < s.ipri.toNat → exec (.save m) s = .refused r) ∧
  ∀ (s : State) (r : Refusal), s.VectorStops 2 r → s.Ready → s.cwp ≠ 31 → s.Mapped s.cwp → s.cwp = s.hiLimit →
    s.ie = true → 2 < s.ipri.toNat → exec .restore s = .refused r

/-- The bytes that a store writes may not be fetched as an instruction until IFETCH_DISTANCE more instructions have run:
the step stops there (R89). A store of any form is remembered with IFETCH_DISTANCE instructions to go; every instruction
takes one off every earlier store and forgets it only at none to go; taking an interrupt, which runs no instruction, takes
none off. The distance and its counting are the spec's decision and the model's (D13, log 9). -/
def Obligations.FreshlyStoredCodeStops : Prop :=
  (∀ (i : Instr) (s t : State), exec i s = .next t → ∀ r : RecentStore,
    r ∈ t.recentStores ↔ 0 < r.left ∧
      ((∃ x n, i.storesAt s = some (x, n) ∧ r = ⟨x, n, s.cfg.ifetchDistance⟩) ∨
        ⟨r.addr, r.len, r.left + 1⟩ ∈ s.recentStores)) ∧
  (∀ (i : Instr) (s t : State) (x n : Nat), i.storesAt s = some (x, n) → exec i s = .next t →
    0 < s.cfg.ifetchDistance → ∀ j < n, t.isFresh (x + j) = true) ∧
  (∀ (n : BitVec 6) (s t : State), interruptStep n s = .next t → t.recentStores = s.recentStores) ∧
  ∀ (s : State) (c : Nat), interruptNow s = none → s.Present s.pc.toNat 2 → s.sampled.isFresh c = true →
    (c = s.pc.toNat ∨ (c = s.pc.toNat + 1 ∧ s.sampled.isFresh s.pc.toNat = false)) →
    step s = .refused (.fetchTooSoonAfterStore c)

/-! ### Control transfers and skips -/

/-- BR and BSR set the pending target `pc + 2 (IMM11 + 1)`, IMM11 signed, and go on to the delay slot; BSR puts half of
`pc + 4` in `%o7` (R221 to R223). -/
def Obligations.BranchesSetTheTarget : Prop :=
  ∀ (s : State) (n : BitVec 11) (target : CodeAddr), s.ReadyAlone → s.pcFits 2 →
    (target.toNat : Int) = s.pc.toNat + 2 * (n.toInt + 1) → target.toNat ≤ 2 ^ 33 - 2 →
    (∃ t, exec (.br n) s = .next t ∧ t.bt = some target ∧ t.pc = s.pc + 2 ∧ t.k = 0 ∧ t.pfxf = false ∧
      t.nopReq = false ∧ WritesNothing s t ∧ t.flags = s.flags) ∧
    (s.pcFits 4 → s.reachable 15 = true →
      ∃ t, exec (.bsr n) s = .next t ∧ t.bt = some target ∧ t.pc = s.pc + 2 ∧ t.k = 0 ∧ t.pfxf = false ∧
        t.nopReq = false ∧ (t.reg 15).toNat = (s.pc.toNat + 4) / 2 ∧ WritesOnly s t 15 ∧ t.flags = s.flags)

/-- JMP, LRET and RET set the pending target to twice a register: any, `%o7`, `%i7`. CALL does as JMP and puts half of
`pc + 4` in `%o7`; its target is the register as it was before, so CALL %o7 jumps through the old `%o7` (R224 to R227).
That the operand is read first is a decision of the spec (log 35). -/
def Obligations.JumpsSetTheTarget : Prop :=
  ∀ s : State, s.ReadyAlone → s.pcFits 2 →
    (∀ a, s.reachable a = true →
      ∃ t p, exec (.jmp a) s = .next t ∧ t.bt = some p ∧ p.toNat = 2 * (s.reg a).toNat ∧ t.pc = s.pc + 2 ∧
        t.k = 0 ∧ t.pfxf = false ∧ t.nopReq = false ∧ WritesNothing s t ∧ t.flags = s.flags) ∧
    (s.reachable 15 = true →
      ∃ t p, exec .lret s = .next t ∧ t.bt = some p ∧ p.toNat = 2 * (s.reg 15).toNat ∧ t.pc = s.pc + 2 ∧
        t.k = 0 ∧ t.pfxf = false ∧ t.nopReq = false ∧ WritesNothing s t ∧ t.flags = s.flags) ∧
    (s.reachable 31 = true →
      ∃ t p, exec .ret s = .next t ∧ t.bt = some p ∧ p.toNat = 2 * (s.reg 31).toNat ∧ t.pc = s.pc + 2 ∧
        t.k = 0 ∧ t.pfxf = false ∧ t.nopReq = false ∧ WritesNothing s t ∧ t.flags = s.flags) ∧
    ∀ a, s.pcFits 4 → s.reachable a = true → s.reachable 15 = true →
      ∃ t p, exec (.call a) s = .next t ∧ t.bt = some p ∧ p.toNat = 2 * (s.reg a).toNat ∧ t.pc = s.pc + 2 ∧
        t.k = 0 ∧ t.pfxf = false ∧ t.nopReq = false ∧ (t.reg 15).toNat = (s.pc.toNat + 4) / 2 ∧ WritesOnly s t 15 ∧
        t.flags = s.flags

/-- The instruction in a delay slot is followed by the one at the target: whatever runs while a target is pending ends
with that target as pc and none pending, unless it is a SAVE or RESTORE whose window exception is taken (R221, R281,
R310). Which address such an exception returns to is the spec's derivation (log 37). -/
def Obligations.DelaySlotEndsAtTheTarget : Prop :=
  ∀ (s t : State) (j : Instr) (p : CodeAddr), s.bt = some p → exec j s = .next t →
    t.bt = none ∧
      (t.pc = p ∨ (∃ n, j = .save n ∧ s.cwp = s.loLimit ∧ processes s 1 = true) ∨
        (j = .restore ∧ s.cwp = s.hiLimit ∧ processes s 2 = true))

/-- The skips with their aliases: SKP0, SKP1, IF0 and IF1 test a register's bit, SKPRz, SKPRnz, IFRz and IFRnz whether a
register is 0, and SKPS and IFS with the 14 condition numbers skip when the condition of the table is false (R230 to R237).
That a skip needs its next word fetched in its own step is the model's choice (log 40). -/
def Obligations.SkipsTestARegisterOrACondition : Prop :=
  (∀ (s : State) (a : RegIdx), s.ReadyAlone → s.reachable a = true →
    (∀ n : BitVec 5,
      SkipsWhen (.skp0 a n) s (!(s.reg a).getLsbD n.toNat) ∧ SkipsWhen (.skp1 a n) s ((s.reg a).getLsbD n.toNat) ∧
      SkipsWhen (.if0 a n) s ((s.reg a).getLsbD n.toNat) ∧ SkipsWhen (.if1 a n) s (!(s.reg a).getLsbD n.toNat)) ∧
    SkipsWhen (.skprz a) s (decide ((s.reg a).toNat = 0)) ∧ SkipsWhen (.skprnz a) s (decide ((s.reg a).toNat ≠ 0)) ∧
    SkipsWhen (.ifrz a) s (decide ((s.reg a).toNat ≠ 0)) ∧ SkipsWhen (.ifrnz a) s (decide ((s.reg a).toNat = 0))) ∧
  ∀ s : State, s.ReadyAlone → ∀ e ∈ [
      (0x0#4, !s.flags.c), (0x1#4, s.flags.c), (0x2#4, !s.flags.z), (0x3#4, s.flags.z), (0x4#4, !s.flags.n),
      (0x5#4, s.flags.n), (0x6#4, s.flags.n != s.flags.v), (0x7#4, s.flags.n == s.flags.v),
      (0x8#4, !s.flags.z && s.flags.n == s.flags.v), (0x9#4, s.flags.z || s.flags.n != s.flags.v),
      (0xa#4, !s.flags.v), (0xb#4, s.flags.v), (0xc#4, !s.flags.c && !s.flags.z), (0xd#4, s.flags.c || s.flags.z)],
    SkipsWhen (.skps e.1) s (!e.2) ∧ SkipsWhen (.ifs e.1) s (!e.2)

/-- After CMP %rA,%rB the conditions compare the registers: equality, and order signed and unsigned (R43, R144, R236).
An IFS of the condition runs the next instruction exactly when the comparison holds. -/
def Obligations.ConditionsAfterCompare : Prop :=
  ∀ (s t : State) (a b : RegIdx), exec (.cmp a b) s = .next t →
    condition 0x3 t.flags = some (decide (s.reg a = s.reg b)) ∧
      condition 0x2 t.flags = some (decide (s.reg a ≠ s.reg b)) ∧
      condition 0x6 t.flags = some (decide ((s.reg a).toInt < (s.reg b).toInt)) ∧
      condition 0x7 t.flags = some (decide ((s.reg a).toInt ≥ (s.reg b).toInt)) ∧
      condition 0x8 t.flags = some (decide ((s.reg a).toInt > (s.reg b).toInt)) ∧
      condition 0x9 t.flags = some (decide ((s.reg a).toInt ≤ (s.reg b).toInt)) ∧
      condition 0x1 t.flags = some (decide ((s.reg a).toNat < (s.reg b).toNat)) ∧
      condition 0x0 t.flags = some (decide ((s.reg a).toNat ≥ (s.reg b).toNat)) ∧
      condition 0xc t.flags = some (decide ((s.reg a).toNat > (s.reg b).toNat)) ∧
      condition 0xd t.flags = some (decide ((s.reg a).toNat ≤ (s.reg b).toNat))

/-! ### Windows and exceptions -/

/-- SAVE with no exception moves the window down one and sets the new `%sp` to the old one less IMM8 words; the old out
registers are the new in registers, so the new `%fp` is the old `%sp` (R23, R25, R251). An underflow that is not processed
is dropped (R278; the model's choice D16, log 18). -/
def Obligations.SaveMovesTheWindowDown : Prop :=
  ∀ (s : State) (n : BitVec 8), s.Ready → s.cwp ≠ 0 → s.Mapped s.cwp →
    (s.cwp ≠ s.loLimit ∨ s.ie = false ∨ s.ipri.toNat ≤ 1) →
    ∃ t, exec (.save n) s = .next t ∧ t.cwp = s.cwp - 1 ∧ t.reg 14 = s.reg 14 - BitVec.ofNat 32 (4 * n.toNat) ∧
      KeepsRegisters s t (· = physIndex (s.cwp - 1) 14) ∧
      (∀ i : RegIdx, 8 ≤ i.toNat → i.toNat < 16 → t.reg (i + 16) = s.reg i) ∧ t.reg 30 = s.reg 14 ∧
      t.ie = s.ie ∧ t.ipri = s.ipri ∧ t.flags = s.flags ∧ t.istatus = s.istatus ∧ t.wvalid = s.wvalid ∧
      KeepsMemory s t ∧ Follows s t

/-- SAVE at LO_LIMIT with the exception processed completes and enters handler 1 in the window it opened, with one
decrement of CWP; the return location is the instruction after it (R251, R272, R278, R280, R281). The return location
in a delay slot is the spec's derivation (log 37). -/
def Obligations.SaveUnderflowEntersHandler : Prop :=
  ∀ (s : State) (n : BitVec 8), s.Ready → s.cwp ≠ 0 → s.Mapped s.cwp →
    s.cwp = s.loLimit → s.ie = true → 1 < s.ipri.toNat → s.VectorReadable 1 →
    ∃ t, exec (.save n) s = .next t ∧
      EntersHandler s t 1 s.followPc (packStatus s.ie s.ipri (s.cwp - 1) s.flags) (s.cwp - 1) ∧
      t.reg 14 = s.reg 14 - BitVec.ofNat 32 (4 * n.toNat) ∧
      KeepsRegisters s t fun q => q = physIndex (s.cwp - 1) 14 ∨ q = physIndex (s.cwp - 1) 15

/-- RESTORE with no exception moves the window up one and writes no register: the in registers are the out registers of
the window it returns to (R23, R25, R253). An overflow that is not processed is dropped (R278; D16, log 18). That IPRI
masks it at 2 and below is the spec's derivation (log 16). -/
def Obligations.RestoreMovesTheWindowUp : Prop :=
  ∀ s : State, s.Ready → s.cwp ≠ 31 → (s.cwp ≠ s.hiLimit ∨ s.ie = false ∨ s.ipri.toNat ≤ 2) →
    ∃ t, exec .restore s = .next t ∧ t.cwp = s.cwp + 1 ∧ KeepsRegisters s t (fun _ => False) ∧
      (∀ i : RegIdx, 8 ≤ i.toNat → i.toNat < 16 → t.reg i = s.reg (i + 16)) ∧
      t.ie = s.ie ∧ t.ipri = s.ipri ∧ t.flags = s.flags ∧ t.istatus = s.istatus ∧ t.wvalid = s.wvalid ∧
      KeepsMemory s t ∧ Follows s t

/-- RESTORE at HI_LIMIT with the exception processed enters handler 2 at HI_LIMIT again; ISTATUS keeps the incremented
CWP (R253, R273, R278, R280, R281). That the overflow is masked as the underflow is (log 16) and the return location in
a delay slot (log 37) are the spec's derivations. -/
def Obligations.RestoreOverflowEntersHandler : Prop :=
  ∀ s : State, s.Ready → s.cwp ≠ 31 → s.Mapped s.cwp → s.cwp = s.hiLimit → s.ie = true → 2 < s.ipri.toNat →
    s.VectorReadable 2 →
    ∃ t, exec .restore s = .next t ∧
      EntersHandler s t 2 s.followPc (packStatus s.ie s.ipri (s.cwp + 1) s.flags) s.cwp ∧
      KeepsRegisters s t (· = physIndex s.cwp 15)

/-- TRAP is always taken, whatever IE and IPRI are: ISTATUS gets STATUS, the window below opens, IE is 0, IPRI is the
number, `%o7` gets half of `pc + 2` and the pc twice the vector's entry (R255, R280, R281, R282). -/
def Obligations.TrapEntersHandler : Prop :=
  ∀ (s : State) (n : BitVec 6), s.ReadyAlone → s.pcFits 2 → s.cwp ≠ 0 → s.Mapped (s.cwp - 1) → s.VectorReadable n →
    ∃ t, exec (.trap n) s = .next t ∧ EntersHandler s t n (s.pc + 2) s.status (s.cwp - 1) ∧
      KeepsRegisters s t (· = physIndex (s.cwp - 1) 15)

/-- TRET copies ISTATUS into STATUS whole, jumps to twice the register read through the old window, and has no delay slot
(R256, R283). That the register is read before STATUS changes is the spec's derivation and decision (D23; log 35). -/
def Obligations.TretRestoresStatus : Prop :=
  ∀ (s : State) (a : RegIdx), s.ReadyAlone → s.reachable a = true →
    ∃ t, exec (.tret a) s = .next t ∧ t.status = s.istatus ∧ t.istatus = s.istatus ∧
      t.pc.toNat = 2 * (s.reg a).toNat ∧ Idle t ∧ t.wvalid = s.wvalid ∧ t.cfg = s.cfg ∧ t.irqInputs = s.irqInputs ∧
      t.busWrites = s.busWrites ∧ t.freeCount = s.freeCount ∧ KeepsRegisters s t (fun _ => False) ∧ KeepsMemory s t

/-- A TRAP and the handler's TRET %o7 right after it bring the interrupted program back to the instruction after the
TRAP, with its STATUS and all its registers but the `%o7` of the window below (R283, R288). -/
def Obligations.TrapAndReturnIsTransparent : Prop :=
  ∀ (s : State) (n : BitVec 6), s.ReadyAlone → s.pcFits 2 → s.cwp ≠ 0 → s.Mapped s.cwp → s.VectorReadable n →
    s.pc.getLsbD 0 = false →
    ∃ t u, exec (.trap n) s = .next t ∧ exec (.tret 15) t = .next u ∧ u.pc = s.pc + 2 ∧ u.status = s.status ∧
      Idle u ∧ u.wvalid = s.wvalid ∧ KeepsMemory s u ∧ (∀ i : RegIdx, u.reg i = s.reg i) ∧
      KeepsRegisters s u (· = physIndex (s.cwp - 1) 15)

/-- A SAVE and the RESTORE after it, with no window exception, bring back the window and every register of it (R23, R25,
R251, R253): the limits are not left, or IE is 0, or IPRI masks the exception. That a masked exception is dropped (log 18)
and that IPRI masks the overflow as it does the underflow (log 16) are not the source's words. -/
def Obligations.SaveAndRestoreKeepTheWindow : Prop :=
  ∀ (s : State) (n : BitVec 8), s.ReadyAlone → s.pcFits 4 → s.cwp ≠ 0 → s.Mapped s.cwp →
    (s.cwp ≠ s.loLimit ∨ s.ie = false ∨ s.ipri.toNat ≤ 1) →
    (s.cwp - 1 ≠ s.hiLimit ∨ s.ie = false ∨ s.ipri.toNat ≤ 2) →
    ∃ t u, exec (.save n) s = .next t ∧ exec .restore t = .next u ∧ u.status = s.status ∧
      (∀ i : RegIdx, u.reg i = s.reg i) ∧ u.pc = s.pc + 4

/-! ### Control registers -/

/-- RDCTL reads STATUS, ISTATUS and WVALID for K = 0, 1, 2; bits 31:16 are the parameter RDCTL_HIGH (R257, R258, D17). -/
def Obligations.RdctlReadsControlRegisters : Prop :=
  ∀ (s : State) (a : RegIdx), s.Ready → s.reachable a = true →
    (s.k = 0 → ∃ t, exec (.rdctl a) s = .next t ∧ t.reg a = s.cfg.rdctlHigh ++ s.status ∧ WritesOnly s t a ∧
      t.flags = s.flags ∧ Follows s t) ∧
    (s.k = 1 → ∃ t, exec (.rdctl a) s = .next t ∧ t.reg a = s.cfg.rdctlHigh ++ s.istatus ∧ WritesOnly s t a ∧
      t.flags = s.flags ∧ Follows s t) ∧
    (s.k = 2 → ∃ t, exec (.rdctl a) s = .next t ∧ t.reg a = s.cfg.rdctlHigh ++ s.wvalid ∧ WritesOnly s t a ∧
      t.flags = s.flags ∧ Follows s t)

/-- RDCTL of CLR_IE or SET_IE goes on with an undefined result: a free value, a fresh one each time, in the register
and nowhere else (R40, R258). That the undefined result is a free value is the model's form (log 23). -/
def Obligations.RdctlOfWriteOnlyRegisterIsFree : Prop :=
  ∀ (s : State) (a : RegIdx), s.Ready → s.reachable a = true → (s.k = 8 ∨ s.k = 9) →
    ∃ t, exec (.rdctl a) s = .next t ∧ t.reg a = Config.undefinedControlRead s.freeCount ∧
      t.freeCount = s.freeCount + 1 ∧ KeepsRegisters s t (· = physIndex s.cwp a) ∧ KeepsMemory s t ∧
      KeepsControl s t ∧ t.flags = s.flags ∧ Follows s t

/-- WRCTL writes STATUS whole for K = 0 and asks for a NOP, ISTATUS for K = 1, bits 9:0 of WVALID for K = 2 where it is
writable, clears IE for K = 8 and sets it for K = 9 (R39, R40, R49, R259). That bits 15:10 of WVALID become 0 and that
only K = 0 asks for a NOP are decisions of the spec (log 13, 19). -/
def Obligations.WrctlWritesControlRegisters : Prop :=
  ∀ (s : State) (a : RegIdx), s.Ready → s.reachable a = true → s.k ∈ [0#11, 1#11, 2#11, 8#11, 9#11] →
    ∃ t, exec (.wrctl a) s = .next t ∧
      t.status = (if s.k = 0 then (s.reg a).extractLsb' 0 16 else if s.k = 8 then packStatus false s.ipri s.cwp s.flags
        else if s.k = 9 then packStatus true s.ipri s.cwp s.flags else s.status) ∧
      t.istatus = (if s.k = 1 then (s.reg a).extractLsb' 0 16 else s.istatus) ∧
      t.wvalid = (if s.k = 2 ∧ s.cfg.wvalidWritable = true then 0#6 ++ (s.reg a).extractLsb' 0 10 else s.wvalid) ∧
      t.nopReq = decide (s.k = 0) ∧ t.k = 0 ∧ t.pfxf = false ∧ t.bt = none ∧ t.pc = s.followPc ∧
      KeepsRegisters s t (fun _ => False) ∧ KeepsMemory s t ∧ t.cfg = s.cfg ∧ t.irqInputs = s.irqInputs ∧
      t.busWrites = s.busWrites ∧ t.freeCount = s.freeCount

/-! ### Where the spec gives no meaning -/

/-- The instructions of R311 do not run in a delay slot, whatever their operands, and after a WRCTL to STATUS nothing
but NOP runs (R49, R311, R312). That they stop is the spec's treatment of what the source leaves undefined (log 30). -/
def Obligations.HazardsStop : Prop :=
  ∀ (i : Instr) (s : State),
    (s.nopReq = false → s.bt ≠ none → i.forbiddenInSlot = true → exec i s = .refused .forbiddenInDelaySlot) ∧
      (s.nopReq = true → i.isNop = false → exec i s = .refused .nopRequired)

/-- PFX after PFX, SKPS and IFS with an undefined condition, and RDCTL and WRCTL of a number that is no control
register do not run (R40, R130, R181, R236, R313). That they stop is the spec's treatment of what the source leaves
undefined (log 28, 29, 30). -/
def Obligations.UndefinedUsesStop : Prop :=
  ∀ s : State,
    (∀ n, s.ReadyAlone → s.pfxf = true → exec (.pfx n) s = .refused .consecutivePfx) ∧
    (∀ c : BitVec 4, s.ReadyAlone → 14 ≤ c.toNat →
      exec (.skps c) s = .refused .undefinedCondition ∧ exec (.ifs c) s = .refused .undefinedCondition) ∧
    ∀ a, s.Ready → s.reachable a = true → s.k ∉ [0#11, 1#11, 2#11, 8#11, 9#11] →
      exec (.rdctl a) s = .refused (.undefinedControlRegister s.k) ∧
        exec (.wrctl a) s = .refused (.undefinedControlRegister s.k)

/-- A window pointer below 0 or above 31 has no meaning: SAVE and TRAP at CWP 0 and RESTORE at CWP 31 do not run, nor
is an interrupt taken at CWP 0 (R36, R287, D7). A register of an unmapped window cannot be read or written, and no
instruction that names one, or has one as an implicit operand, has a next state (R24). That they stop is a decision of the
spec (log 26). -/
def Obligations.WindowEdgesStop : Prop :=
  ∀ s : State,
    (s.cwp = 0 → (∀ n, s.Ready → exec (.save n) s = .refused .windowPointerRange) ∧
      (∀ n, s.ReadyAlone → s.pcFits 2 → exec (.trap n) s = .refused .windowPointerRange) ∧
      ∀ n, interruptStep n s = .refused .windowPointerRange) ∧
    (s.cwp = 31 → s.Ready → exec .restore s = .refused .windowPointerRange) ∧
    (s.cfg.regFile.maxWindow < s.cwp.toNat → ∀ r : RegIdx, 8 ≤ r.toNat →
      readReg s r = .error .unmappedWindow ∧ (∀ v, writeReg s r v = .error .unmappedWindow) ∧
        (∀ (i : Instr) (t : State), r ∈ i.registers s.pfxf → exec i s ≠ .next t) ∧
        (s.Ready → exec (.mov r 0) s = .refused .unmappedWindow ∧ exec (.mov 0 r) s = .refused .unmappedWindow ∧
          exec (.add 0 r) s = .refused .unmappedWindow ∧ ∀ n, exec (.bgen r n) s = .refused .unmappedWindow))

/-- The pc does not pass the ends of the code space, 0 and 2^33 - 2 (R28, D8): no instruction but TRET, which sets the pc
itself, has a next state outside a delay slot where `pc + 2` is past the end; a branch to a target outside stops, and so
do a link address and a skip past the end. That they stop is a decision of the spec (U8; log 27). -/
def Obligations.CodeSpaceEdgesStop : Prop :=
  (∀ (i : Instr) (s t : State), s.bt = none → ¬s.pcFits 2 → (∀ a, i ≠ .tret a) → exec i s ≠ .next t) ∧
  (∀ s : State, s.bt = none → ¬s.pcFits 2 → exec .nop s = .refused .leavesAddressSpace) ∧
  (∀ (s : State) (n : BitVec 11), s.ReadyAlone →
    (s.pc.toNat + 2 * (n.toInt + 1) < 0 ∨ (2 : Int) ^ 33 - 2 < s.pc.toNat + 2 * (n.toInt + 1)) →
    exec (.br n) s = .refused .leavesAddressSpace ∧ exec (.bsr n) s = .refused .leavesAddressSpace) ∧
  (∀ s : State, s.ReadyAlone → ¬s.pcFits 4 →
    (∀ n, exec (.bsr n) s = .refused .leavesAddressSpace) ∧
      ∀ a, s.reachable a = true → exec (.call a) s = .refused .leavesAddressSpace) ∧
  ∀ (s : State) (a : RegIdx) (w : Half), s.ReadyAlone → s.reachable a = true → s.pcFits 2 → s.Fetches (s.pc + 2) w →
    ((w.extractLsb' 11 5 ≠ 0b10011#5 ∧ ¬s.pcFits 4) ∨ (w.extractLsb' 11 5 = 0b10011#5 ∧ ¬s.pcFits 6)) →
    (∀ n : BitVec 5,
      ((s.reg a).getLsbD n.toNat = false →
        exec (.skp0 a n) s = .refused .leavesAddressSpace ∧ exec (.if1 a n) s = .refused .leavesAddressSpace) ∧
      ((s.reg a).getLsbD n.toNat = true →
        exec (.skp1 a n) s = .refused .leavesAddressSpace ∧ exec (.if0 a n) s = .refused .leavesAddressSpace)) ∧
    (s.reg a = 0 → exec (.skprz a) s = .refused .leavesAddressSpace ∧ exec (.ifrnz a) s = .refused .leavesAddressSpace) ∧
    (s.reg a ≠ 0 → exec (.skprnz a) s = .refused .leavesAddressSpace ∧ exec (.ifrz a) s = .refused .leavesAddressSpace) ∧
    ∀ c : BitVec 4, condition c s.flags = some false →
      exec (.skps c) s = .refused .leavesAddressSpace ∧ exec (.ifs c) s = .refused .leavesAddressSpace
end

