-- ==== Sys2Proof/Laws/State.lean ====
section
/-! SUPPORT. One lemma per field per update of the state. -/

namespace Sys2Proof.Machine

/-! `State.setFlags` -/

@[simp] theorem State.setFlags_cfg (s : State) (f : Flags) : (s.setFlags f).cfg = s.cfg := rfl
@[simp] theorem State.setFlags_rf (s : State) (f : Flags) : (s.setFlags f).rf = s.rf := rfl
@[simp] theorem State.setFlags_pc (s : State) (f : Flags) : (s.setFlags f).pc = s.pc := rfl
@[simp] theorem State.setFlags_k (s : State) (f : Flags) : (s.setFlags f).k = s.k := rfl
@[simp] theorem State.setFlags_pfxf (s : State) (f : Flags) : (s.setFlags f).pfxf = s.pfxf := rfl
@[simp] theorem State.setFlags_bt (s : State) (f : Flags) : (s.setFlags f).bt = s.bt := rfl
@[simp] theorem State.setFlags_nopReq (s : State) (f : Flags) : (s.setFlags f).nopReq = s.nopReq := rfl
@[simp] theorem State.setFlags_status (s : State) (f : Flags) : (s.setFlags f).status = withFlagsOf s.status f := rfl
@[simp] theorem State.setFlags_istatus (s : State) (f : Flags) : (s.setFlags f).istatus = s.istatus := rfl
@[simp] theorem State.setFlags_wvalid (s : State) (f : Flags) : (s.setFlags f).wvalid = s.wvalid := rfl
@[simp] theorem State.setFlags_mem (s : State) (f : Flags) : (s.setFlags f).mem = s.mem := rfl
@[simp] theorem State.setFlags_recentStores (s : State) (f : Flags) : (s.setFlags f).recentStores = s.recentStores := rfl
@[simp] theorem State.setFlags_tableWritten (s : State) (f : Flags) : (s.setFlags f).tableWritten = s.tableWritten := rfl
@[simp] theorem State.setFlags_irqInputs (s : State) (f : Flags) : (s.setFlags f).irqInputs = s.irqInputs := rfl
@[simp] theorem State.setFlags_busWrites (s : State) (f : Flags) : (s.setFlags f).busWrites = s.busWrites := rfl
@[simp] theorem State.setFlags_freeCount (s : State) (f : Flags) : (s.setFlags f).freeCount = s.freeCount := rfl

/-! `State.setCwp` -/

@[simp] theorem State.setCwp_cfg (s : State) (w : BitVec 5) : (s.setCwp w).cfg = s.cfg := rfl
@[simp] theorem State.setCwp_rf (s : State) (w : BitVec 5) : (s.setCwp w).rf = s.rf := rfl
@[simp] theorem State.setCwp_pc (s : State) (w : BitVec 5) : (s.setCwp w).pc = s.pc := rfl
@[simp] theorem State.setCwp_k (s : State) (w : BitVec 5) : (s.setCwp w).k = s.k := rfl
@[simp] theorem State.setCwp_pfxf (s : State) (w : BitVec 5) : (s.setCwp w).pfxf = s.pfxf := rfl
@[simp] theorem State.setCwp_bt (s : State) (w : BitVec 5) : (s.setCwp w).bt = s.bt := rfl
@[simp] theorem State.setCwp_nopReq (s : State) (w : BitVec 5) : (s.setCwp w).nopReq = s.nopReq := rfl
@[simp] theorem State.setCwp_status (s : State) (w : BitVec 5) : (s.setCwp w).status = withCwpOf s.status w := rfl
@[simp] theorem State.setCwp_istatus (s : State) (w : BitVec 5) : (s.setCwp w).istatus = s.istatus := rfl
@[simp] theorem State.setCwp_wvalid (s : State) (w : BitVec 5) : (s.setCwp w).wvalid = s.wvalid := rfl
@[simp] theorem State.setCwp_mem (s : State) (w : BitVec 5) : (s.setCwp w).mem = s.mem := rfl
@[simp] theorem State.setCwp_recentStores (s : State) (w : BitVec 5) : (s.setCwp w).recentStores = s.recentStores := rfl
@[simp] theorem State.setCwp_tableWritten (s : State) (w : BitVec 5) : (s.setCwp w).tableWritten = s.tableWritten := rfl
@[simp] theorem State.setCwp_irqInputs (s : State) (w : BitVec 5) : (s.setCwp w).irqInputs = s.irqInputs := rfl
@[simp] theorem State.setCwp_busWrites (s : State) (w : BitVec 5) : (s.setCwp w).busWrites = s.busWrites := rfl
@[simp] theorem State.setCwp_freeCount (s : State) (w : BitVec 5) : (s.setCwp w).freeCount = s.freeCount := rfl

/-! `State.setIe` -/

@[simp] theorem State.setIe_cfg (s : State) (e : Bool) : (s.setIe e).cfg = s.cfg := rfl
@[simp] theorem State.setIe_rf (s : State) (e : Bool) : (s.setIe e).rf = s.rf := rfl
@[simp] theorem State.setIe_pc (s : State) (e : Bool) : (s.setIe e).pc = s.pc := rfl
@[simp] theorem State.setIe_k (s : State) (e : Bool) : (s.setIe e).k = s.k := rfl
@[simp] theorem State.setIe_pfxf (s : State) (e : Bool) : (s.setIe e).pfxf = s.pfxf := rfl
@[simp] theorem State.setIe_bt (s : State) (e : Bool) : (s.setIe e).bt = s.bt := rfl
@[simp] theorem State.setIe_nopReq (s : State) (e : Bool) : (s.setIe e).nopReq = s.nopReq := rfl
@[simp] theorem State.setIe_status (s : State) (e : Bool) : (s.setIe e).status = withIeOf s.status e := rfl
@[simp] theorem State.setIe_istatus (s : State) (e : Bool) : (s.setIe e).istatus = s.istatus := rfl
@[simp] theorem State.setIe_wvalid (s : State) (e : Bool) : (s.setIe e).wvalid = s.wvalid := rfl
@[simp] theorem State.setIe_mem (s : State) (e : Bool) : (s.setIe e).mem = s.mem := rfl
@[simp] theorem State.setIe_recentStores (s : State) (e : Bool) : (s.setIe e).recentStores = s.recentStores := rfl
@[simp] theorem State.setIe_tableWritten (s : State) (e : Bool) : (s.setIe e).tableWritten = s.tableWritten := rfl
@[simp] theorem State.setIe_irqInputs (s : State) (e : Bool) : (s.setIe e).irqInputs = s.irqInputs := rfl
@[simp] theorem State.setIe_busWrites (s : State) (e : Bool) : (s.setIe e).busWrites = s.busWrites := rfl
@[simp] theorem State.setIe_freeCount (s : State) (e : Bool) : (s.setIe e).freeCount = s.freeCount := rfl

/-! `State.setPhys` -/

@[simp] theorem State.setPhys_cfg (s : State) (q : Nat) (v : Word) : (s.setPhys q v).cfg = s.cfg := rfl
@[simp] theorem State.setPhys_pc (s : State) (q : Nat) (v : Word) : (s.setPhys q v).pc = s.pc := rfl
@[simp] theorem State.setPhys_k (s : State) (q : Nat) (v : Word) : (s.setPhys q v).k = s.k := rfl
@[simp] theorem State.setPhys_pfxf (s : State) (q : Nat) (v : Word) : (s.setPhys q v).pfxf = s.pfxf := rfl
@[simp] theorem State.setPhys_bt (s : State) (q : Nat) (v : Word) : (s.setPhys q v).bt = s.bt := rfl
@[simp] theorem State.setPhys_nopReq (s : State) (q : Nat) (v : Word) : (s.setPhys q v).nopReq = s.nopReq := rfl
@[simp] theorem State.setPhys_status (s : State) (q : Nat) (v : Word) : (s.setPhys q v).status = s.status := rfl
@[simp] theorem State.setPhys_istatus (s : State) (q : Nat) (v : Word) : (s.setPhys q v).istatus = s.istatus := rfl
@[simp] theorem State.setPhys_wvalid (s : State) (q : Nat) (v : Word) : (s.setPhys q v).wvalid = s.wvalid := rfl
@[simp] theorem State.setPhys_mem (s : State) (q : Nat) (v : Word) : (s.setPhys q v).mem = s.mem := rfl
@[simp] theorem State.setPhys_recentStores (s : State) (q : Nat) (v : Word) : (s.setPhys q v).recentStores = s.recentStores := rfl
@[simp] theorem State.setPhys_tableWritten (s : State) (q : Nat) (v : Word) : (s.setPhys q v).tableWritten = s.tableWritten := rfl
@[simp] theorem State.setPhys_irqInputs (s : State) (q : Nat) (v : Word) : (s.setPhys q v).irqInputs = s.irqInputs := rfl
@[simp] theorem State.setPhys_busWrites (s : State) (q : Nat) (v : Word) : (s.setPhys q v).busWrites = s.busWrites := rfl
@[simp] theorem State.setPhys_freeCount (s : State) (q : Nat) (v : Word) : (s.setPhys q v).freeCount = s.freeCount := rfl

/-! `State.setReg` -/

@[simp] theorem State.setReg_cfg (s : State) (i : RegIdx) (v : Word) : (s.setReg i v).cfg = s.cfg := rfl
@[simp] theorem State.setReg_pc (s : State) (i : RegIdx) (v : Word) : (s.setReg i v).pc = s.pc := rfl
@[simp] theorem State.setReg_k (s : State) (i : RegIdx) (v : Word) : (s.setReg i v).k = s.k := rfl
@[simp] theorem State.setReg_pfxf (s : State) (i : RegIdx) (v : Word) : (s.setReg i v).pfxf = s.pfxf := rfl
@[simp] theorem State.setReg_bt (s : State) (i : RegIdx) (v : Word) : (s.setReg i v).bt = s.bt := rfl
@[simp] theorem State.setReg_nopReq (s : State) (i : RegIdx) (v : Word) : (s.setReg i v).nopReq = s.nopReq := rfl
@[simp] theorem State.setReg_status (s : State) (i : RegIdx) (v : Word) : (s.setReg i v).status = s.status := rfl
@[simp] theorem State.setReg_istatus (s : State) (i : RegIdx) (v : Word) : (s.setReg i v).istatus = s.istatus := rfl
@[simp] theorem State.setReg_wvalid (s : State) (i : RegIdx) (v : Word) : (s.setReg i v).wvalid = s.wvalid := rfl
@[simp] theorem State.setReg_mem (s : State) (i : RegIdx) (v : Word) : (s.setReg i v).mem = s.mem := rfl
@[simp] theorem State.setReg_recentStores (s : State) (i : RegIdx) (v : Word) : (s.setReg i v).recentStores = s.recentStores := rfl
@[simp] theorem State.setReg_tableWritten (s : State) (i : RegIdx) (v : Word) : (s.setReg i v).tableWritten = s.tableWritten := rfl
@[simp] theorem State.setReg_irqInputs (s : State) (i : RegIdx) (v : Word) : (s.setReg i v).irqInputs = s.irqInputs := rfl
@[simp] theorem State.setReg_busWrites (s : State) (i : RegIdx) (v : Word) : (s.setReg i v).busWrites = s.busWrites := rfl
@[simp] theorem State.setReg_freeCount (s : State) (i : RegIdx) (v : Word) : (s.setReg i v).freeCount = s.freeCount := rfl

/-! `State.afterRead` -/

@[simp] theorem State.afterRead_cfg (s : State) (a n : Nat) : (s.afterRead a n).cfg = s.cfg := rfl
@[simp] theorem State.afterRead_rf (s : State) (a n : Nat) : (s.afterRead a n).rf = s.rf := rfl
@[simp] theorem State.afterRead_pc (s : State) (a n : Nat) : (s.afterRead a n).pc = s.pc := rfl
@[simp] theorem State.afterRead_k (s : State) (a n : Nat) : (s.afterRead a n).k = s.k := rfl
@[simp] theorem State.afterRead_pfxf (s : State) (a n : Nat) : (s.afterRead a n).pfxf = s.pfxf := rfl
@[simp] theorem State.afterRead_bt (s : State) (a n : Nat) : (s.afterRead a n).bt = s.bt := rfl
@[simp] theorem State.afterRead_nopReq (s : State) (a n : Nat) : (s.afterRead a n).nopReq = s.nopReq := rfl
@[simp] theorem State.afterRead_status (s : State) (a n : Nat) : (s.afterRead a n).status = s.status := rfl
@[simp] theorem State.afterRead_istatus (s : State) (a n : Nat) : (s.afterRead a n).istatus = s.istatus := rfl
@[simp] theorem State.afterRead_wvalid (s : State) (a n : Nat) : (s.afterRead a n).wvalid = s.wvalid := rfl
@[simp] theorem State.afterRead_mem (s : State) (a n : Nat) : (s.afterRead a n).mem = s.mem := rfl
@[simp] theorem State.afterRead_recentStores (s : State) (a n : Nat) : (s.afterRead a n).recentStores = s.recentStores := rfl
@[simp] theorem State.afterRead_tableWritten (s : State) (a n : Nat) : (s.afterRead a n).tableWritten = s.tableWritten := rfl
@[simp] theorem State.afterRead_irqInputs (s : State) (a n : Nat) : (s.afterRead a n).irqInputs = s.irqInputs := rfl
@[simp] theorem State.afterRead_busWrites (s : State) (a n : Nat) : (s.afterRead a n).busWrites = s.busWrites := rfl

/-! `State.stored` -/

@[simp] theorem State.stored_cfg (s : State) (a : Nat) (l : List Byte) : (s.stored a l).cfg = s.cfg := rfl
@[simp] theorem State.stored_rf (s : State) (a : Nat) (l : List Byte) : (s.stored a l).rf = s.rf := rfl
@[simp] theorem State.stored_pc (s : State) (a : Nat) (l : List Byte) : (s.stored a l).pc = s.pc := rfl
@[simp] theorem State.stored_k (s : State) (a : Nat) (l : List Byte) : (s.stored a l).k = s.k := rfl
@[simp] theorem State.stored_pfxf (s : State) (a : Nat) (l : List Byte) : (s.stored a l).pfxf = s.pfxf := rfl
@[simp] theorem State.stored_bt (s : State) (a : Nat) (l : List Byte) : (s.stored a l).bt = s.bt := rfl
@[simp] theorem State.stored_nopReq (s : State) (a : Nat) (l : List Byte) : (s.stored a l).nopReq = s.nopReq := rfl
@[simp] theorem State.stored_status (s : State) (a : Nat) (l : List Byte) : (s.stored a l).status = s.status := rfl
@[simp] theorem State.stored_istatus (s : State) (a : Nat) (l : List Byte) : (s.stored a l).istatus = s.istatus := rfl
@[simp] theorem State.stored_wvalid (s : State) (a : Nat) (l : List Byte) : (s.stored a l).wvalid = s.wvalid := rfl
@[simp] theorem State.stored_mem (s : State) (a : Nat) (l : List Byte) : (s.stored a l).mem = writeBytes s.isDevice s.mem a l := rfl
@[simp] theorem State.stored_recentStores (s : State) (a : Nat) (l : List Byte) : (s.stored a l).recentStores = ⟨a, l.length, s.cfg.ifetchDistance + 1⟩ :: s.recentStores := rfl
@[simp] theorem State.stored_tableWritten (s : State) (a : Nat) (l : List Byte) : (s.stored a l).tableWritten = s.tableAfter a l.length := rfl
@[simp] theorem State.stored_irqInputs (s : State) (a : Nat) (l : List Byte) : (s.stored a l).irqInputs = s.irqInputs := rfl
@[simp] theorem State.stored_busWrites (s : State) (a : Nat) (l : List Byte) : (s.stored a l).busWrites = s.busWrites := rfl
@[simp] theorem State.stored_freeCount (s : State) (a : Nat) (l : List Byte) : (s.stored a l).freeCount = s.freeCount := rfl

/-! `State.retire` -/

@[simp] theorem State.retire_cfg (s : State) (p : CodeAddr) : (s.retire p).cfg = s.cfg := rfl
@[simp] theorem State.retire_rf (s : State) (p : CodeAddr) : (s.retire p).rf = s.rf := rfl
@[simp] theorem State.retire_pc (s : State) (p : CodeAddr) : (s.retire p).pc = p := rfl
@[simp] theorem State.retire_k (s : State) (p : CodeAddr) : (s.retire p).k = 0 := rfl
@[simp] theorem State.retire_pfxf (s : State) (p : CodeAddr) : (s.retire p).pfxf = false := rfl
@[simp] theorem State.retire_bt (s : State) (p : CodeAddr) : (s.retire p).bt = none := rfl
@[simp] theorem State.retire_nopReq (s : State) (p : CodeAddr) : (s.retire p).nopReq = false := rfl
@[simp] theorem State.retire_status (s : State) (p : CodeAddr) : (s.retire p).status = s.status := rfl
@[simp] theorem State.retire_istatus (s : State) (p : CodeAddr) : (s.retire p).istatus = s.istatus := rfl
@[simp] theorem State.retire_wvalid (s : State) (p : CodeAddr) : (s.retire p).wvalid = s.wvalid := rfl
@[simp] theorem State.retire_mem (s : State) (p : CodeAddr) : (s.retire p).mem = s.mem := rfl
@[simp] theorem State.retire_recentStores (s : State) (p : CodeAddr) : (s.retire p).recentStores = ageStores s.recentStores := rfl
@[simp] theorem State.retire_tableWritten (s : State) (p : CodeAddr) : (s.retire p).tableWritten = s.tableWritten := rfl
@[simp] theorem State.retire_irqInputs (s : State) (p : CodeAddr) : (s.retire p).irqInputs = s.irqInputs := rfl
@[simp] theorem State.retire_busWrites (s : State) (p : CodeAddr) : (s.retire p).busWrites = s.busWrites := rfl
@[simp] theorem State.retire_freeCount (s : State) (p : CodeAddr) : (s.retire p).freeCount = s.freeCount := rfl

/-! `State.enter` -/

@[simp] theorem State.enter_cfg (s : State) (n : BitVec 6) (w : BitVec 5) : (s.enter n w).cfg = s.cfg := rfl
@[simp] theorem State.enter_rf (s : State) (n : BitVec 6) (w : BitVec 5) : (s.enter n w).rf = s.rf := rfl
@[simp] theorem State.enter_pc (s : State) (n : BitVec 6) (w : BitVec 5) : (s.enter n w).pc = s.pc := rfl
@[simp] theorem State.enter_k (s : State) (n : BitVec 6) (w : BitVec 5) : (s.enter n w).k = s.k := rfl
@[simp] theorem State.enter_pfxf (s : State) (n : BitVec 6) (w : BitVec 5) : (s.enter n w).pfxf = s.pfxf := rfl
@[simp] theorem State.enter_bt (s : State) (n : BitVec 6) (w : BitVec 5) : (s.enter n w).bt = s.bt := rfl
@[simp] theorem State.enter_nopReq (s : State) (n : BitVec 6) (w : BitVec 5) : (s.enter n w).nopReq = s.nopReq := rfl
@[simp] theorem State.enter_status (s : State) (n : BitVec 6) (w : BitVec 5) : (s.enter n w).status = packStatus false n w s.flags := rfl
@[simp] theorem State.enter_istatus (s : State) (n : BitVec 6) (w : BitVec 5) : (s.enter n w).istatus = s.status := rfl
@[simp] theorem State.enter_wvalid (s : State) (n : BitVec 6) (w : BitVec 5) : (s.enter n w).wvalid = s.wvalid := rfl
@[simp] theorem State.enter_mem (s : State) (n : BitVec 6) (w : BitVec 5) : (s.enter n w).mem = s.mem := rfl
@[simp] theorem State.enter_recentStores (s : State) (n : BitVec 6) (w : BitVec 5) : (s.enter n w).recentStores = s.recentStores := rfl
@[simp] theorem State.enter_tableWritten (s : State) (n : BitVec 6) (w : BitVec 5) : (s.enter n w).tableWritten = s.tableWritten := rfl
@[simp] theorem State.enter_irqInputs (s : State) (n : BitVec 6) (w : BitVec 5) : (s.enter n w).irqInputs = s.irqInputs := rfl
@[simp] theorem State.enter_busWrites (s : State) (n : BitVec 6) (w : BitVec 5) : (s.enter n w).busWrites = s.busWrites := rfl
@[simp] theorem State.enter_freeCount (s : State) (n : BitVec 6) (w : BitVec 5) : (s.enter n w).freeCount = s.freeCount := rfl

/-! `State.divert` -/

@[simp] theorem State.divert_cfg (s : State) (p : CodeAddr) : (s.divert p).cfg = s.cfg := rfl
@[simp] theorem State.divert_rf (s : State) (p : CodeAddr) : (s.divert p).rf = s.rf := rfl
@[simp] theorem State.divert_pc (s : State) (p : CodeAddr) : (s.divert p).pc = p := rfl
@[simp] theorem State.divert_k (s : State) (p : CodeAddr) : (s.divert p).k = 0 := rfl
@[simp] theorem State.divert_pfxf (s : State) (p : CodeAddr) : (s.divert p).pfxf = false := rfl
@[simp] theorem State.divert_bt (s : State) (p : CodeAddr) : (s.divert p).bt = none := rfl
@[simp] theorem State.divert_nopReq (s : State) (p : CodeAddr) : (s.divert p).nopReq = false := rfl
@[simp] theorem State.divert_status (s : State) (p : CodeAddr) : (s.divert p).status = s.status := rfl
@[simp] theorem State.divert_istatus (s : State) (p : CodeAddr) : (s.divert p).istatus = s.istatus := rfl
@[simp] theorem State.divert_wvalid (s : State) (p : CodeAddr) : (s.divert p).wvalid = s.wvalid := rfl
@[simp] theorem State.divert_mem (s : State) (p : CodeAddr) : (s.divert p).mem = s.mem := rfl
@[simp] theorem State.divert_recentStores (s : State) (p : CodeAddr) : (s.divert p).recentStores = s.recentStores := rfl
@[simp] theorem State.divert_tableWritten (s : State) (p : CodeAddr) : (s.divert p).tableWritten = s.tableWritten := rfl
@[simp] theorem State.divert_irqInputs (s : State) (p : CodeAddr) : (s.divert p).irqInputs = s.irqInputs := rfl
@[simp] theorem State.divert_busWrites (s : State) (p : CodeAddr) : (s.divert p).busWrites = s.busWrites := rfl
@[simp] theorem State.divert_freeCount (s : State) (p : CodeAddr) : (s.divert p).freeCount = s.freeCount := rfl

/-! `State.sampled` -/

@[simp] theorem State.sampled_cfg (s : State) : s.sampled.cfg = s.cfg := rfl
@[simp] theorem State.sampled_rf (s : State) : s.sampled.rf = s.rf := rfl
@[simp] theorem State.sampled_pc (s : State) : s.sampled.pc = s.pc := rfl
@[simp] theorem State.sampled_k (s : State) : s.sampled.k = s.k := rfl
@[simp] theorem State.sampled_pfxf (s : State) : s.sampled.pfxf = s.pfxf := rfl
@[simp] theorem State.sampled_bt (s : State) : s.sampled.bt = s.bt := rfl
@[simp] theorem State.sampled_nopReq (s : State) : s.sampled.nopReq = s.nopReq := rfl
@[simp] theorem State.sampled_status (s : State) : s.sampled.status = s.status := rfl
@[simp] theorem State.sampled_istatus (s : State) : s.sampled.istatus = s.istatus := rfl
@[simp] theorem State.sampled_wvalid (s : State) : s.sampled.wvalid = s.wvalid := rfl
@[simp] theorem State.sampled_mem (s : State) : s.sampled.mem = landWrites s.mem s.landing := rfl
@[simp] theorem State.sampled_recentStores (s : State) :
    s.sampled.recentStores = freshWrites s.cfg.ifetchDistance s.landing ++ s.recentStores := rfl
@[simp] theorem State.sampled_tableWritten (s : State) :
    s.sampled.tableWritten = landTable s.isRam s.cfg.vecBase.toNat s.tableWritten s.landing := rfl
@[simp] theorem State.sampled_irqInputs (s : State) : s.sampled.irqInputs = s.irqInputs.tail := rfl
@[simp] theorem State.sampled_busWrites (s : State) : s.sampled.busWrites = s.busWrites.tail := rfl
@[simp] theorem State.sampled_freeCount (s : State) : s.sampled.freeCount = s.freeCount := rfl

end Sys2Proof.Machine
end

