-- ==== Sys2Proof/Laws/Flags.lean ====
section
/-! SUPPORT. The fields of a packed STATUS, and what each update leaves of them. -/

namespace Sys2Proof.Machine

theorem flagBits_getLsbD (f : Flags) :
    (flagBits f).getLsbD 3 = f.n ∧ (flagBits f).getLsbD 2 = f.v ∧ (flagBits f).getLsbD 1 = f.z ∧
      (flagBits f).getLsbD 0 = f.c := by
  obtain ⟨n, v, z, c⟩ := f
  cases n <;> cases v <;> cases z <;> cases c <;> decide

@[simp] theorem ieOf_packStatus (ie : Bool) (p : BitVec 6) (w : BitVec 5) (f : Flags) :
    ieOf (packStatus ie p w f) = ie := by
  simp only [ieOf, packStatus, BitVec.getLsbD_append]
  simp

@[simp] theorem ipriOf_packStatus (ie : Bool) (p : BitVec 6) (w : BitVec 5) (f : Flags) :
    ipriOf (packStatus ie p w f) = p := by
  apply BitVec.eq_of_getLsbD_eq
  intro i hi
  simp only [ipriOf, packStatus, BitVec.getLsbD_extractLsb', BitVec.getLsbD_append]
  simp [hi, show ¬ 9 + i < 4 by omega, show ¬ 9 + i - 4 < 5 by omega, show 9 + i - 4 - 5 = i by omega]

@[simp] theorem cwpOf_packStatus (ie : Bool) (p : BitVec 6) (w : BitVec 5) (f : Flags) :
    cwpOf (packStatus ie p w f) = w := by
  apply BitVec.eq_of_getLsbD_eq
  intro i hi
  simp only [cwpOf, packStatus, BitVec.getLsbD_extractLsb', BitVec.getLsbD_append]
  simp [hi, show ¬ 4 + i < 4 by omega]

@[simp] theorem flagsOf_packStatus (ie : Bool) (p : BitVec 6) (w : BitVec 5) (f : Flags) :
    flagsOf (packStatus ie p w f) = f := by
  obtain ⟨h3, h2, h1, h0⟩ := flagBits_getLsbD f
  simp only [flagsOf, packStatus, BitVec.getLsbD_append]
  simp only [h3, h2, h1, h0]
  rfl

/-- The fields of STATUS fill it (R33). -/
theorem packStatus_fields (st : Half) : packStatus (ieOf st) (ipriOf st) (cwpOf st) (flagsOf st) = st := by
  apply BitVec.eq_of_getLsbD_eq
  intro i hi
  simp only [packStatus, flagBits, flagsOf, ieOf, ipriOf, cwpOf, BitVec.getLsbD_append, BitVec.getLsbD_extractLsb',
    BitVec.getLsbD_ofBool]
  have hi' : i = 0 ∨ i = 1 ∨ i = 2 ∨ i = 3 ∨ i = 4 ∨ i = 5 ∨ i = 6 ∨ i = 7 ∨ i = 8 ∨ i = 9 ∨ i = 10 ∨ i = 11 ∨
      i = 12 ∨ i = 13 ∨ i = 14 ∨ i = 15 := by omega
  rcases hi' with h | h | h | h | h | h | h | h | h | h | h | h | h | h | h | h <;> subst h <;> simp

@[simp] theorem flags_setFlags (s : State) (f : Flags) : (s.setFlags f).flags = f := by
  simp [State.flags, withFlagsOf]

@[simp] theorem cwp_setFlags (s : State) (f : Flags) : (s.setFlags f).cwp = s.cwp := by
  simp [State.cwp, withFlagsOf]

@[simp] theorem ie_setFlags (s : State) (f : Flags) : (s.setFlags f).ie = s.ie := by
  simp [State.ie, withFlagsOf]

@[simp] theorem ipri_setFlags (s : State) (f : Flags) : (s.setFlags f).ipri = s.ipri := by
  simp [State.ipri, withFlagsOf]

@[simp] theorem flags_setCwp (s : State) (w : BitVec 5) : (s.setCwp w).flags = s.flags := by
  simp [State.flags, withCwpOf]

@[simp] theorem cwp_setCwp (s : State) (w : BitVec 5) : (s.setCwp w).cwp = w := by
  simp [State.cwp, withCwpOf]

@[simp] theorem ie_setCwp (s : State) (w : BitVec 5) : (s.setCwp w).ie = s.ie := by
  simp [State.ie, withCwpOf]

@[simp] theorem ipri_setCwp (s : State) (w : BitVec 5) : (s.setCwp w).ipri = s.ipri := by
  simp [State.ipri, withCwpOf]

@[simp] theorem flags_setIe (s : State) (e : Bool) : (s.setIe e).flags = s.flags := by
  simp [State.flags, withIeOf]

@[simp] theorem cwp_setIe (s : State) (e : Bool) : (s.setIe e).cwp = s.cwp := by
  simp [State.cwp, withIeOf]

@[simp] theorem ie_setIe (s : State) (e : Bool) : (s.setIe e).ie = e := by
  simp [State.ie, withIeOf]

@[simp] theorem ipri_setIe (s : State) (e : Bool) : (s.setIe e).ipri = s.ipri := by
  simp [State.ipri, withIeOf]

@[simp] theorem flags_enter (s : State) (n : BitVec 6) (w : BitVec 5) : (s.enter n w).flags = s.flags := by
  simp [State.flags]

@[simp] theorem cwp_enter (s : State) (n : BitVec 6) (w : BitVec 5) : (s.enter n w).cwp = w := by
  simp [State.cwp]

@[simp] theorem ie_enter (s : State) (n : BitVec 6) (w : BitVec 5) : (s.enter n w).ie = false := by
  simp [State.ie]

@[simp] theorem ipri_enter (s : State) (n : BitVec 6) (w : BitVec 5) : (s.enter n w).ipri = n := by
  simp [State.ipri]

end Sys2Proof.Machine
end

