-- ==== Sys2Proof/Laws/Memory.lean ====
section
/-! SUPPORT. The laws of memory: a read after a write, and the canonical form kept by every operation. The read laws
hold of every list, canonical or not. -/

namespace Sys2Proof.Machine

@[simp] theorem Memory.read_nil (a : Nat) : Memory.read [] a = Memory.blank := rfl

theorem Memory.read_erase_same (m : Memory) (a : Nat) : (m.erase a).read a = Memory.blank := by
  induction m with
  | nil => rfl
  | cons e rest ih =>
    obtain ⟨b, v⟩ := e
    by_cases h : b = a <;> simp [Memory.erase, Memory.read, h, ih]

theorem Memory.read_erase_other (m : Memory) {a x : Nat} (h : x ≠ a) : (m.erase a).read x = m.read x := by
  induction m with
  | nil => rfl
  | cons e rest ih =>
    obtain ⟨b, v⟩ := e
    by_cases hb : b = a
    · subst hb
      simp [Memory.erase, Memory.read, ih, Ne.symm h]
    · simp [Memory.erase, Memory.read, hb, ih]

/-- No entry lists the address. -/
def Memory.unlisted (m : Memory) (a : Nat) : Prop := ∀ e ∈ m, e.1 ≠ a

theorem Memory.unlisted_erase (m : Memory) (a : Nat) : (m.erase a).unlisted a := by
  induction m with
  | nil => intro e he; simp [Memory.erase] at he
  | cons e rest ih =>
    obtain ⟨b, v⟩ := e
    by_cases hb : b = a
    · simpa [Memory.erase, hb] using ih
    · intro e he
      simp only [Memory.erase, hb, if_false, List.mem_cons] at he
      rcases he with rfl | he
      · exact hb
      · exact ih e he

theorem Memory.read_insert_same (m : Memory) (a : Nat) (v : Byte) (h : m.unlisted a) : (m.insert a v).read a = v := by
  induction m with
  | nil => simp [Memory.insert, Memory.read]
  | cons e rest ih =>
    obtain ⟨b, w⟩ := e
    have hb : b ≠ a := h (b, w) (by simp)
    have hr : Memory.unlisted rest a := fun e he => h e (by simp [he])
    by_cases hab : a < b
    · simp [Memory.insert, Memory.read, hab]
    · simp [Memory.insert, Memory.read, hab, hb, ih hr]

theorem Memory.read_insert_other (m : Memory) {a x : Nat} (v : Byte) (h : x ≠ a) :
    (m.insert a v).read x = m.read x := by
  induction m with
  | nil => simp [Memory.insert, Memory.read, Ne.symm h]
  | cons e rest ih =>
    obtain ⟨b, w⟩ := e
    by_cases hab : a < b
    · simp [Memory.insert, Memory.read, hab, Ne.symm h]
    · simp [Memory.insert, Memory.read, hab, ih]

/-- A read after a write to the same address gives the value written. -/
@[simp] theorem Memory.read_write_same (m : Memory) (a : Nat) (v : Byte) : (m.write a v).read a = v := by
  unfold Memory.write
  split
  · rename_i h
    rw [h, Memory.read_erase_same]
  · exact Memory.read_insert_same _ _ _ (Memory.unlisted_erase m a)

/-- A write leaves every other address alone. -/
theorem Memory.read_write_other (m : Memory) {a x : Nat} (v : Byte) (h : x ≠ a) : (m.write a v).read x = m.read x := by
  unfold Memory.write
  split
  · exact Memory.read_erase_other m h
  · rw [Memory.read_insert_other _ v h, Memory.read_erase_other m h]

theorem Memory.wfFrom_mono {lo lo' : Nat} (h : lo' ≤ lo) (m : Memory) (hm : Memory.wfFrom lo m = true) :
    Memory.wfFrom lo' m = true := by
  cases m with
  | nil => rfl
  | cons e rest =>
    obtain ⟨b, v⟩ := e
    simp only [Memory.wfFrom, Bool.and_eq_true, decide_eq_true_eq] at hm ⊢
    exact ⟨⟨⟨by omega, hm.1.1.2⟩, hm.1.2⟩, hm.2⟩

theorem Memory.wfFrom_erase (m : Memory) (a lo : Nat) (h : Memory.wfFrom lo m = true) :
    Memory.wfFrom lo (m.erase a) = true := by
  induction m generalizing lo with
  | nil => rfl
  | cons e rest ih =>
    obtain ⟨b, v⟩ := e
    simp only [Memory.wfFrom, Bool.and_eq_true, decide_eq_true_eq] at h
    by_cases hb : b = a
    · simpa [Memory.erase, hb] using Memory.wfFrom_mono (by omega) _ (ih (b + 1) h.2)
    · simp only [Memory.erase, hb, if_false, Memory.wfFrom, Bool.and_eq_true, decide_eq_true_eq]
      exact ⟨h.1, ih _ h.2⟩

theorem Memory.wfFrom_insert (m : Memory) (a lo : Nat) (v : Byte) (h : Memory.wfFrom lo m = true)
    (hu : m.unlisted a) (hlo : lo ≤ a) (ha : a < 2 ^ 33) (hv : v ≠ Memory.blank) :
    Memory.wfFrom lo (m.insert a v) = true := by
  induction m generalizing lo with
  | nil => simp [Memory.insert, Memory.wfFrom, hlo, hv]; exact ha
  | cons e rest ih =>
    obtain ⟨b, w⟩ := e
    have hb : b ≠ a := hu (b, w) (by simp)
    have hr : Memory.unlisted rest a := fun e he => hu e (by simp [he])
    simp only [Memory.wfFrom, Bool.and_eq_true, decide_eq_true_eq] at h
    by_cases hab : a < b
    · simp only [Memory.insert, hab, if_true, Memory.wfFrom, Bool.and_eq_true, decide_eq_true_eq]
      exact ⟨⟨⟨hlo, ha⟩, by simpa using hv⟩, ⟨⟨by omega, h.1.1.2⟩, h.1.2⟩, h.2⟩
    · simp only [Memory.insert, hab, if_false, Memory.wfFrom, Bool.and_eq_true, decide_eq_true_eq]
      exact ⟨h.1, ih (b + 1) h.2 hr (by omega)⟩

/-- A write inside the address space keeps the canonical form. -/
theorem Memory.wf_write (m : Memory) (a : Nat) (v : Byte) (h : m.wf = true) (ha : a < 2 ^ 33) :
    (m.write a v).wf = true := by
  unfold Memory.write Memory.wf
  split
  · exact Memory.wfFrom_erase m a 0 h
  · rename_i hv
    exact Memory.wfFrom_insert _ a 0 v (Memory.wfFrom_erase m a 0 h) (Memory.unlisted_erase m a) (by omega) ha hv

/-- Storing bytes inside the address space keeps the canonical form. -/
theorem wf_writeBytes (d : Nat → Bool) (l : List Byte) (m : Memory) (a : Nat) (h : m.wf = true)
    (ha : a + l.length ≤ 2 ^ 33) : (writeBytes d m a l).wf = true := by
  induction l generalizing m a with
  | nil => exact h
  | cons v rest ih =>
    rw [List.length_cons] at ha
    refine ih _ _ ?_ (by omega)
    split
    · exact h
    · exact Memory.wf_write m a v h (by omega)

/-- Storing bytes leaves every address outside them alone. -/
theorem read_writeBytes_other (d : Nat → Bool) (l : List Byte) (m : Memory) (a x : Nat)
    (hx : x < a ∨ a + l.length ≤ x) : (writeBytes d m a l).read x = m.read x := by
  induction l generalizing m a with
  | nil => rfl
  | cons v rest ih =>
    rw [List.length_cons] at hx
    unfold writeBytes
    rw [ih _ _ (by omega)]
    split
    · rfl
    · exact Memory.read_write_other m v (by omega)

/-- Storing bytes puts byte `i` of them at the address `i` above the first, where that is no peripheral's. -/
theorem read_writeBytes_at (d : Nat → Bool) (l : List Byte) (m : Memory) (a i : Nat) (hi : i < l.length)
    (hd : d (a + i) = false) : (writeBytes d m a l).read (a + i) = l[i] := by
  induction l generalizing m a i with
  | nil => simp at hi
  | cons v rest ih =>
    unfold writeBytes
    cases i with
    | zero =>
      rw [read_writeBytes_other _ _ _ _ _ (by omega)]
      simp at hd
      simp [hd]
    | succ j =>
      have := ih (if d a = true then m else m.write a v) (a + 1) j (by simpa using hi) (by rw [← hd]; congr 1; omega)
      rw [show a + (j + 1) = a + 1 + j by omega, this]
      rfl

/-- A store leaves every byte outside the stored ones as it was. -/
theorem byteAt_stored_other (s : State) (a : Nat) (l : List Byte) (x : Nat) (hx : x < a ∨ a + l.length ≤ x) :
    (s.stored a l).byteAt x = s.byteAt x :=
  read_writeBytes_other _ l s.mem a x hx

/-- A store puts its bytes in memory. -/
theorem byteAt_stored_at (s : State) (a : Nat) (l : List Byte) (i : Nat) (hi : i < l.length)
    (hd : s.isDevice (a + i) = false) : (s.stored a l).byteAt (a + i) = l[i] :=
  read_writeBytes_at _ l s.mem a i hi hd

/-! ### The environment's writes -/

/-- The environment's writes keep the canonical form: their addresses are bus addresses. -/
theorem wf_landWrites (l : List BusWrite) (m : Memory) (h : m.wf = true) : (landWrites m l).wf = true := by
  induction l generalizing m with
  | nil => exact h
  | cons w rest ih => exact ih _ (Memory.wf_write m _ w.value h w.addr.isLt)

/-- They leave every address none of them names alone. -/
theorem read_landWrites_other (l : List BusWrite) (m : Memory) (a : Nat) (h : ∀ w ∈ l, w.addr.toNat ≠ a) :
    (landWrites m l).read a = m.read a := by
  induction l generalizing m with
  | nil => rfl
  | cons w rest ih =>
    unfold landWrites
    rw [ih _ fun v hv => h v (by simp [hv])]
    exact Memory.read_write_other m w.value (Ne.symm (h w (by simp)))

/-- An address reads as the last of them that names it. -/
theorem read_landWrites_last (pre post : List BusWrite) (w : BusWrite) (m : Memory)
    (h : ∀ v ∈ post, v.addr.toNat ≠ w.addr.toNat) :
    (landWrites m (pre ++ w :: post)).read w.addr.toNat = w.value := by
  induction pre generalizing m with
  | nil =>
    simp only [List.nil_append, landWrites]
    rw [read_landWrites_other _ _ _ h, Memory.read_write_same]
  | cons v rest ih => exact ih _

/-! ### The vector table's written bytes -/

/-- A byte of the table counts as written after a write when it did before, or when the write reaches it. -/
theorem getLsbD_markWritten (ram : Nat → Bool) (base : Nat) (v : BitVec tableSize) (a n i : Nat) (hi : i < tableSize) :
    (markWritten ram base v a n).getLsbD i =
      (v.getLsbD i || (ram (base + i) && decide (a ≤ base + i) && decide (base + i < a + n))) := by
  induction n generalizing v a with
  | zero => simp [markWritten]
  | succ n ih =>
    have hb : (if (ram a && inTable base a) = true then v ||| BitVec.twoPow tableSize (a - base) else v).getLsbD i =
        (v.getLsbD i || (ram (base + i) && decide (a = base + i))) := by
      by_cases h : a = base + i
      · subst h
        cases ram (base + i) <;> simp [inTable, hi]
      · cases h1 : inTable base a
        · simp [h]
        · have h2 : ¬ a - base = i := by simp [inTable] at h1; omega
          cases ram a <;> simp [BitVec.getLsbD_twoPow, h, h2]
    have hs : (decide (a = base + i) || (decide (a + 1 ≤ base + i) && decide (base + i < a + 1 + n))) =
        (decide (a ≤ base + i) && decide (base + i < a + (n + 1))) := by
      rw [Bool.eq_iff_iff]; simp; omega
    rw [markWritten, ih, hb, Bool.or_assoc]
    cases ram (base + i)
    · simp
    · simp only [Bool.true_and, hs]

/-- A byte of the table counts as written after the environment's writes when it did before, or when one of them is to
it. -/
theorem getLsbD_landTable (ram : Nat → Bool) (base : Nat) (l : List BusWrite) (v : BitVec tableSize) (i : Nat)
    (hi : i < tableSize) :
    (landTable ram base v l).getLsbD i =
      (v.getLsbD i || (ram (base + i) && l.any fun w => w.addr.toNat == base + i)) := by
  induction l generalizing v with
  | nil => simp [landTable]
  | cons w rest ih =>
    have hw : (decide (w.addr.toNat ≤ base + i) && decide (base + i < w.addr.toNat + 1)) =
        (w.addr.toNat == base + i) := by
      rw [Bool.eq_iff_iff]; simp; omega
    rw [landTable, ih, getLsbD_markWritten _ _ _ _ _ _ hi, Bool.and_assoc, hw, List.any_cons]
    cases ram (base + i) <;> simp [Bool.or_assoc]

/-- A store leaves every byte of the vector table outside the stored ones as it was. -/
theorem tableByte_stored_other (s : State) (a : Nat) (l : List Byte) (i : Nat) (hi : i < tableSize)
    (h : s.cfg.vecBase.toNat + i < a ∨ a + l.length ≤ s.cfg.vecBase.toNat + i) :
    (s.stored a l).tableByte i = s.tableByte i := by
  simp only [State.tableByte, State.stored_tableWritten, State.tableAfter, getLsbD_markWritten _ _ _ _ _ _ hi]
  rcases h with h | h
  · simp [Nat.not_le.2 h]
  · simp [Nat.not_lt.2 h]

/-- A store marks the bytes of the vector table that it writes to memory. -/
theorem tableByte_stored_at (s : State) (a : Nat) (l : List Byte) (i : Nat) (hi : i < tableSize)
    (hr : s.isRam (s.cfg.vecBase.toNat + i) = true) (h1 : a ≤ s.cfg.vecBase.toNat + i)
    (h2 : s.cfg.vecBase.toNat + i < a + l.length) : (s.stored a l).tableByte i = true := by
  simp [State.tableByte, State.tableAfter, getLsbD_markWritten _ _ _ _ _ _ hi, hr, h1, h2]

/-- The memory of the reset state has the canonical form. -/
theorem wf_reset_mem (c : Config) : (State.resetWith c).mem.wf = true := rfl

end Sys2Proof.Machine
end

