-- ==== Sys2Proof/Laws/Registers.lean ====
section
/-! SUPPORT. The laws of the register file seen through the window, and what each update leaves of a register and of a
byte of memory. -/

namespace Sys2Proof.Machine

/-! ### Which physical register -/

theorem maxWindow_size (f : RegFile) : 16 * f.maxWindow + 31 < f.size := by cases f <;> decide

theorem size_le (f : RegFile) : f.size ≤ 512 := by cases f <;> decide

/-- The bound of the window index that a mapped window gives (R24). -/
theorem physIndex_lt_size (s : State) (i : RegIdx) (h : s.reachable i = true) :
    physIndex s.cwp i < s.cfg.regFile.size := by
  have h1 := maxWindow_size s.cfg.regFile
  have hi : i.toNat < 32 := i.isLt
  simp only [State.reachable, Bool.or_eq_true, decide_eq_true_eq] at h
  unfold physIndex
  split <;> omega

theorem physIndex_lt (s : State) (i : RegIdx) (h : s.reachable i = true) : physIndex s.cwp i < 512 :=
  Nat.lt_of_lt_of_le (physIndex_lt_size s i h) (size_le _)

/-- The globals do not move (R21, R23). -/
theorem physIndex_global (w w' : BitVec 5) (i : RegIdx) (h : i.toNat < 8) : physIndex w i = physIndex w' i := by
  simp [physIndex, h]

/-- The out registers of a window are the in registers of the window below it (R23). -/
theorem physIndex_out_in (w : BitVec 5) (i : RegIdx) (h8 : 8 ≤ i.toNat) (h16 : i.toNat < 16) (hw : w ≠ 0) :
    physIndex w i = physIndex (w - 1) (i + 16) := by
  have hw' : w.toNat ≠ 0 := fun h => hw (BitVec.eq_of_toNat_eq (by simpa using h))
  have hwl : w.toNat < 32 := w.isLt
  have h1 : (w - 1).toNat = w.toNat - 1 := by
    rw [BitVec.toNat_sub]; simp; omega
  have h2 : (i + 16).toNat = i.toNat + 16 := by
    rw [BitVec.toNat_add]; simp; omega
  simp only [physIndex, h1, h2]
  split <;> split <;> omega

theorem reachable_global (s : State) (i : RegIdx) (h : i.toNat < 8) : s.reachable i = true := by
  simp [State.reachable, h]

@[simp] theorem reachable_zero (s : State) : s.reachable 0 = true := reachable_global s 0 (by decide)

/-- In a mapped window every register can be reached (R24). -/
theorem reachable_of_mapped (s : State) (i : RegIdx) (h : s.cwp.toNat ≤ s.cfg.regFile.maxWindow) :
    s.reachable i = true := by
  simp [State.reachable, h]

theorem reachable_congr {s t : State} (hc : t.cwp = s.cwp) (hf : t.cfg = s.cfg) (i : RegIdx) :
    t.reachable i = s.reachable i := by
  simp [State.reachable, hc, hf]

/-! ### Reading after writing -/

theorem phys_setPhys_same (s : State) (q : Nat) (v : Word) (h : q < 512) : (s.setPhys q v).phys q = v := by
  simp [State.phys, State.setPhys, h]

theorem phys_setPhys_other (s : State) {q r : Nat} (v : Word) (h : r ≠ q) : (s.setPhys q v).phys r = s.phys r := by
  by_cases hq : q < 512 <;> by_cases hr : r < 512 <;> simp [State.phys, State.setPhys, hq, hr]
  exact Vector.getElem_set_ne hq hr (Ne.symm h)

theorem phys_setReg_same (s : State) (i : RegIdx) (v : Word) (h : s.reachable i = true) :
    (s.setReg i v).phys (physIndex s.cwp i) = v :=
  phys_setPhys_same s _ v (physIndex_lt s i h)

theorem phys_setReg_other (s : State) {q : Nat} (i : RegIdx) (v : Word) (h : q ≠ physIndex s.cwp i) :
    (s.setReg i v).phys q = s.phys q :=
  phys_setPhys_other s v h

@[simp] theorem cwp_setReg (s : State) (i : RegIdx) (v : Word) : (s.setReg i v).cwp = s.cwp := rfl
@[simp] theorem ie_setReg (s : State) (i : RegIdx) (v : Word) : (s.setReg i v).ie = s.ie := rfl
@[simp] theorem ipri_setReg (s : State) (i : RegIdx) (v : Word) : (s.setReg i v).ipri = s.ipri := rfl
@[simp] theorem flags_setReg (s : State) (i : RegIdx) (v : Word) : (s.setReg i v).flags = s.flags := rfl
@[simp] theorem byteAt_setReg (s : State) (i : RegIdx) (v : Word) (a : Nat) : (s.setReg i v).byteAt a = s.byteAt a := rfl
@[simp] theorem reachable_setReg (s : State) (i j : RegIdx) (v : Word) :
    (s.setReg i v).reachable j = s.reachable j := rfl

@[simp] theorem reg_setReg_same (s : State) (i : RegIdx) (v : Word) (h : s.reachable i = true) :
    (s.setReg i v).reg i = v :=
  phys_setReg_same s i v h

theorem reg_setReg_other (s : State) {i j : RegIdx} (v : Word) (h : physIndex s.cwp j ≠ physIndex s.cwp i) :
    (s.setReg i v).reg j = s.reg j :=
  phys_setReg_other s i v h

/-- Two visible registers of one window are two physical registers (R23). -/
theorem physIndex_ne (w : BitVec 5) {i j : RegIdx} (h : i ≠ j) : physIndex w i ≠ physIndex w j := by
  have hij : i.toNat ≠ j.toNat := fun e => h (BitVec.eq_of_toNat_eq e)
  unfold physIndex
  split <;> split <;> omega

/-! ### What other updates leave -/

@[simp] theorem phys_setFlags (s : State) (f : Flags) (q : Nat) : (s.setFlags f).phys q = s.phys q := rfl
@[simp] theorem phys_setCwp (s : State) (w : BitVec 5) (q : Nat) : (s.setCwp w).phys q = s.phys q := rfl
@[simp] theorem phys_setIe (s : State) (e : Bool) (q : Nat) : (s.setIe e).phys q = s.phys q := rfl
@[simp] theorem phys_afterRead (s : State) (a n q : Nat) : (s.afterRead a n).phys q = s.phys q := rfl
@[simp] theorem phys_stored (s : State) (a : Nat) (l : List Byte) (q : Nat) : (s.stored a l).phys q = s.phys q := rfl
@[simp] theorem phys_retire (s : State) (p : CodeAddr) (q : Nat) : (s.retire p).phys q = s.phys q := rfl
@[simp] theorem phys_enter (s : State) (n : BitVec 6) (w : BitVec 5) (q : Nat) : (s.enter n w).phys q = s.phys q := rfl
@[simp] theorem phys_divert (s : State) (p : CodeAddr) (q : Nat) : (s.divert p).phys q = s.phys q := rfl
@[simp] theorem phys_sampled (s : State) (q : Nat) : s.sampled.phys q = s.phys q := rfl

@[simp] theorem reg_setFlags (s : State) (f : Flags) (i : RegIdx) : (s.setFlags f).reg i = s.reg i := by
  simp [State.reg]
@[simp] theorem reg_setIe (s : State) (e : Bool) (i : RegIdx) : (s.setIe e).reg i = s.reg i := by
  simp [State.reg]
@[simp] theorem reg_afterRead (s : State) (a n : Nat) (i : RegIdx) : (s.afterRead a n).reg i = s.reg i := rfl
@[simp] theorem reg_stored (s : State) (a : Nat) (l : List Byte) (i : RegIdx) : (s.stored a l).reg i = s.reg i := rfl
@[simp] theorem reg_retire (s : State) (p : CodeAddr) (i : RegIdx) : (s.retire p).reg i = s.reg i := rfl
@[simp] theorem reg_divert (s : State) (p : CodeAddr) (i : RegIdx) : (s.divert p).reg i = s.reg i := rfl
@[simp] theorem reg_sampled (s : State) (i : RegIdx) : s.sampled.reg i = s.reg i := rfl

@[simp] theorem byteAt_setFlags (s : State) (f : Flags) (a : Nat) : (s.setFlags f).byteAt a = s.byteAt a := rfl
@[simp] theorem byteAt_setCwp (s : State) (w : BitVec 5) (a : Nat) : (s.setCwp w).byteAt a = s.byteAt a := rfl
@[simp] theorem byteAt_setIe (s : State) (e : Bool) (a : Nat) : (s.setIe e).byteAt a = s.byteAt a := rfl
@[simp] theorem byteAt_afterRead (s : State) (b n a : Nat) : (s.afterRead b n).byteAt a = s.byteAt a := rfl
@[simp] theorem byteAt_retire (s : State) (p : CodeAddr) (a : Nat) : (s.retire p).byteAt a = s.byteAt a := rfl
@[simp] theorem byteAt_enter (s : State) (n : BitVec 6) (w : BitVec 5) (a : Nat) :
    (s.enter n w).byteAt a = s.byteAt a := rfl
@[simp] theorem byteAt_divert (s : State) (p : CodeAddr) (a : Nat) : (s.divert p).byteAt a = s.byteAt a := rfl
@[simp] theorem tableByte_setReg (s : State) (i : RegIdx) (v : Word) (j : Nat) :
    (s.setReg i v).tableByte j = s.tableByte j := rfl
@[simp] theorem tableByte_setFlags (s : State) (f : Flags) (j : Nat) : (s.setFlags f).tableByte j = s.tableByte j := rfl
@[simp] theorem tableByte_afterRead (s : State) (b n j : Nat) : (s.afterRead b n).tableByte j = s.tableByte j := rfl
@[simp] theorem tableByte_retire (s : State) (p : CodeAddr) (j : Nat) : (s.retire p).tableByte j = s.tableByte j := rfl
@[simp] theorem tableByte_enter (s : State) (n : BitVec 6) (w : BitVec 5) (j : Nat) :
    (s.enter n w).tableByte j = s.tableByte j := rfl
@[simp] theorem tableByte_divert (s : State) (p : CodeAddr) (j : Nat) : (s.divert p).tableByte j = s.tableByte j := rfl

@[simp] theorem cwp_retire (s : State) (p : CodeAddr) : (s.retire p).cwp = s.cwp := rfl
@[simp] theorem ie_retire (s : State) (p : CodeAddr) : (s.retire p).ie = s.ie := rfl
@[simp] theorem ipri_retire (s : State) (p : CodeAddr) : (s.retire p).ipri = s.ipri := rfl
@[simp] theorem flags_retire (s : State) (p : CodeAddr) : (s.retire p).flags = s.flags := rfl
@[simp] theorem cwp_afterRead (s : State) (a n : Nat) : (s.afterRead a n).cwp = s.cwp := rfl
@[simp] theorem ie_afterRead (s : State) (a n : Nat) : (s.afterRead a n).ie = s.ie := rfl
@[simp] theorem ipri_afterRead (s : State) (a n : Nat) : (s.afterRead a n).ipri = s.ipri := rfl
@[simp] theorem flags_afterRead (s : State) (a n : Nat) : (s.afterRead a n).flags = s.flags := rfl
@[simp] theorem cwp_stored (s : State) (a : Nat) (l : List Byte) : (s.stored a l).cwp = s.cwp := rfl
@[simp] theorem ie_stored (s : State) (a : Nat) (l : List Byte) : (s.stored a l).ie = s.ie := rfl
@[simp] theorem ipri_stored (s : State) (a : Nat) (l : List Byte) : (s.stored a l).ipri = s.ipri := rfl
@[simp] theorem flags_stored (s : State) (a : Nat) (l : List Byte) : (s.stored a l).flags = s.flags := rfl
@[simp] theorem cwp_divert (s : State) (p : CodeAddr) : (s.divert p).cwp = s.cwp := rfl
@[simp] theorem ie_divert (s : State) (p : CodeAddr) : (s.divert p).ie = s.ie := rfl
@[simp] theorem ipri_divert (s : State) (p : CodeAddr) : (s.divert p).ipri = s.ipri := rfl
@[simp] theorem flags_divert (s : State) (p : CodeAddr) : (s.divert p).flags = s.flags := rfl
@[simp] theorem cwp_sampled (s : State) : s.sampled.cwp = s.cwp := rfl
@[simp] theorem ie_sampled (s : State) : s.sampled.ie = s.ie := rfl
@[simp] theorem ipri_sampled (s : State) : s.sampled.ipri = s.ipri := rfl
@[simp] theorem flags_sampled (s : State) : s.sampled.flags = s.flags := rfl
@[simp] theorem reachable_afterRead (s : State) (a n : Nat) (i : RegIdx) :
    (s.afterRead a n).reachable i = s.reachable i := rfl

/-! ### The two operations -/

theorem readReg_eq (s : State) (i : RegIdx) (h : s.reachable i = true) : readReg s i = .ok (s.reg i) := by
  simp [readReg, h]

theorem writeReg_eq (s : State) (i : RegIdx) (v : Word) (h : s.reachable i = true) :
    writeReg s i v = .ok (s.setReg i v) := by
  simp [writeReg, h]

theorem readReg_ok_iff (s : State) (i : RegIdx) (x : Word) :
    readReg s i = .ok x ↔ s.reachable i = true ∧ x = s.reg i := by
  unfold readReg
  split <;> simp [*, eq_comm]

theorem writeReg_ok_iff (s : State) (i : RegIdx) (v : Word) (t : State) :
    writeReg s i v = .ok t ↔ s.reachable i = true ∧ t = s.setReg i v := by
  unfold writeReg
  split <;> simp [*, eq_comm]

end Sys2Proof.Machine
end

