-- ==== Sys2Proof/Laws/Ops.lean ====
section
/-! SUPPORT. For each shared operation of Machine/Ops.lean: when it answers, and all that its answer can be
(`…_ok_iff`, `…_next_iff`), and the answer under the conditions it needs (`…_eq`). A proof about an instruction cites
these and does not unfold the operation. -/

namespace Sys2Proof.Machine

/-! ### Results -/

theorem res_bind_ok_iff {α β : Type} (x : Res α) (f : α → Res β) (b : β) :
    (x >>= f) = .ok b ↔ ∃ a, x = .ok a ∧ f a = .ok b := by
  cases x <;> simp [bind, Except.bind]

@[simp] theorem res_bind_ok {α β : Type} (a : α) (f : α → Res β) : ((.ok a : Res α) >>= f) = f a := rfl

@[simp] theorem res_bind_error {α β : Type} (e : Refusal) (f : α → Res β) :
    ((.error e : Res α) >>= f) = .error e := rfl

@[simp] theorem res_pure {α : Type} (a : α) : (pure a : Res α) = .ok a := rfl

@[simp] theorem outcome_ok (s : State) : outcome (.ok s) = .next s := rfl
@[simp] theorem outcome_refused (r : Refusal) : outcome (.error r) = .refused r := rfl

theorem outcome_next_iff (r : Res State) (t : State) : outcome r = .next t ↔ r = .ok t := by
  cases r <;> simp [outcome]

@[simp] theorem require_true (r : Refusal) : require true r = .ok () := rfl
@[simp] theorem require_false (r : Refusal) : require false r = .error r := rfl

theorem require_ok_iff (b : Bool) (r : Refusal) (u : Unit) : require b r = .ok u ↔ b = true := by
  cases b <;> simp [require]

theorem requireNopDone_ok_iff (s : State) (isNop : Bool) (u : Unit) :
    requireNopDone s isNop = .ok u ↔ s.nopReq = false ∨ isNop = true := by
  cases h : s.nopReq <;> cases isNop <;> simp [requireNopDone, h, require]

theorem requireNoSlot_ok_iff (s : State) (u : Unit) : requireNoSlot s = .ok u ↔ s.bt = none := by
  cases h : s.bt <;> simp [requireNoSlot, h, require]

theorem requireNopDone_eq (s : State) (isNop : Bool) (h : s.nopReq = false) : requireNopDone s isNop = .ok () := by
  simp [requireNopDone, h]

theorem requireNoSlot_eq (s : State) (h : s.bt = none) : requireNoSlot s = .ok () := by simp [requireNoSlot, h]

/-! ### Addresses -/

theorem pcPlus_ok_iff (s : State) (n : Nat) (p : CodeAddr) :
    pcPlus s n = .ok p ↔ s.pcFits n ∧ p = s.pc + BitVec.ofNat 33 n := by
  unfold pcPlus State.pcFits
  split
  · exact ⟨fun h => ⟨‹_›, (Except.ok.inj h).symm⟩, fun h => by rw [h.2]⟩
  · exact ⟨(fun h => nomatch h), (fun h => absurd h.1 ‹_›)⟩

theorem pcPlus_eq (s : State) (n : Nat) (h : s.pcFits n) : pcPlus s n = .ok (s.pc + BitVec.ofNat 33 n) :=
  (pcPlus_ok_iff _ _ _).2 ⟨h, rfl⟩

theorem nextPc_ok_iff (s : State) (p : CodeAddr) :
    nextPc s = .ok p ↔ (s.bt = none → s.pcFits 2) ∧ p = s.followPc := by
  unfold nextPc State.followPc
  cases s.bt
  · simp [pcPlus_ok_iff]
  · simp [eq_comm]

theorem nextPc_eq (s : State) (h : s.bt = none → s.pcFits 2) : nextPc s = .ok s.followPc :=
  (nextPc_ok_iff _ _).2 ⟨h, rfl⟩

theorem firstAddr_none_iff (p : Nat → Bool) (a n : Nat) : firstAddr p a n = none ↔ ∀ i < n, p (a + i) = false := by
  induction n generalizing a with
  | zero => simp [firstAddr]
  | succ n ih =>
    simp only [firstAddr]
    cases h : p a
    · simp only [Bool.false_eq_true, if_false, ih]
      constructor
      · intro hi i hin
        cases i with
        | zero => simpa using h
        | succ i => have := hi i (by omega); rwa [Nat.add_right_comm] at this
      · intro hi i hin
        have := hi (i + 1) (by omega); rwa [Nat.add_right_comm]
    · simp only [if_true, reduceCtorEq, false_iff]
      intro hi
      have := hi 0 (by omega)
      simp [h] at this

/-- The first address with the property, when the earlier ones have it not. -/
theorem firstAddr_eq_some {p : Nat → Bool} {a n i : Nat} (hi : i < n) (h : p (a + i) = true)
    (hj : ∀ j < i, p (a + j) = false) : firstAddr p a n = some (a + i) := by
  induction n generalizing a i with
  | zero => omega
  | succ n ih =>
    cases i with
    | zero => simp [firstAddr, show p a = true from h]
    | succ i =>
      have e (j : Nat) : a + 1 + j = a + (j + 1) := by omega
      simp only [firstAddr, show p a = false from hj 0 (by omega), Bool.false_eq_true, if_false]
      rw [ih (i := i) (by omega) (by rw [e]; exact h) (fun j h' => by rw [e]; exact hj (j + 1) (by omega)), e]

/-! ### The bus -/

theorem loadWord_ok_iff (s : State) (a : Nat) (v : Word) (t : State) :
    loadWord s a = .ok (v, t) ↔
      (∀ i < 4, s.isUnmapped (a + i) = false) ∧ v = s.busWord a ∧ t = s.afterRead a 4 := by
  unfold loadWord
  cases h : firstAddr s.isUnmapped a 4
  · have hm := (firstAddr_none_iff _ _ _).1 h
    constructor
    · intro h; cases h; exact ⟨hm, rfl, rfl⟩
    · rintro ⟨_, rfl, rfl⟩; rfl
  · simp only [reduceCtorEq, false_iff, not_and]
    intro hi
    simp [(firstAddr_none_iff _ _ _).2 hi] at h

theorem storeBytes_ok_iff (s : State) (a : Nat) (l : List Byte) (t : State) :
    storeBytes s a l = .ok t ↔
      (∀ i < l.length, s.isUnmapped (a + i) = false) ∧ (∀ i < l.length, s.isReadOnly (a + i) = false) ∧
        t = s.stored a l := by
  unfold storeBytes
  cases h : firstAddr s.isUnmapped a l.length
  · cases h' : firstAddr s.isReadOnly a l.length
    · have hm := (firstAddr_none_iff _ _ _).1 h
      have hm' := (firstAddr_none_iff _ _ _).1 h'
      constructor
      · intro h; cases h; exact ⟨hm, hm', rfl⟩
      · rintro ⟨_, _, rfl⟩; rfl
    · simp only [reduceCtorEq, false_iff, not_and]
      intro _ hi
      simp [(firstAddr_none_iff _ _ _).2 hi] at h'
  · simp only [reduceCtorEq, false_iff, not_and]
    intro hi
    simp [(firstAddr_none_iff _ _ _).2 hi] at h

theorem fetchWord_ok_iff (s : State) (p : CodeAddr) (w : Half) (t : State) :
    fetchWord s p = .ok (w, t) ↔
      (∀ i < 2, s.isUnmapped (p.toNat + i) = false) ∧ (∀ i < 2, s.isFresh (p.toNat + i) = false) ∧
        w = s.busHalf p.toNat ∧ t = s.afterRead p.toNat 2 := by
  unfold fetchWord
  cases h : firstAddr s.isUnmapped p.toNat 2
  · cases h' : firstAddr s.isFresh p.toNat 2
    · have hm := (firstAddr_none_iff _ _ _).1 h
      have hm' := (firstAddr_none_iff _ _ _).1 h'
      constructor
      · intro h; cases h; exact ⟨hm, hm', rfl, rfl⟩
      · rintro ⟨_, _, rfl, rfl⟩; rfl
    · simp only [reduceCtorEq, false_iff, not_and]
      intro _ hi
      simp [(firstAddr_none_iff _ _ _).2 hi] at h'
  · simp only [reduceCtorEq, false_iff, not_and]
    intro hi
    simp [(firstAddr_none_iff _ _ _).2 hi] at h

/-- What the stops of an access look at first: the first byte behind which nothing stands (R271, D1). -/
theorem firstAddr_of_firstUnmapped {s : State} {a n i : Nat} (h : s.FirstUnmapped a n i) :
    firstAddr s.isUnmapped a n = some (a + i) :=
  firstAddr_eq_some h.1 (by simp [State.isUnmapped, h.2.1]) fun j hj => by
    simpa [State.isUnmapped] using Option.isSome_iff_ne_none.2 (h.2.2 j hj)

/-- Where something stands behind every byte, none of them stops an access. -/
theorem firstAddr_of_present {s : State} {a n : Nat} (h : s.Present a n) : firstAddr s.isUnmapped a n = none :=
  (firstAddr_none_iff _ _ _).2 fun i hi => by
    simpa [State.isUnmapped] using Option.isSome_iff_ne_none.2 (h i hi)

/-- The first byte of a store that read-only memory does not take (R271). -/
theorem firstAddr_of_firstReadOnly {s : State} {a n i : Nat} (h : s.FirstReadOnly a n i) :
    firstAddr s.isReadOnly a n = some (a + i) :=
  firstAddr_eq_some h.2.1 (by simp [State.isReadOnly, h.2.2.1]) fun j hj => by
    simpa [State.isReadOnly] using h.2.2.2 j hj

theorem isUnmapped_of_readable (s : State) {a n : Nat} (h : s.Readable a n) :
    ∀ i < n, s.isUnmapped (a + i) = false := by
  intro i hi
  rcases h i hi with h | h <;> simp [State.isUnmapped, h]

theorem isDevice_of_readable (s : State) {a n : Nat} (h : s.Readable a n) : ∀ i < n, s.isDevice (a + i) = false := by
  intro i hi
  rcases h i hi with h | h <;> simp [State.isDevice, h]

theorem readable_of_writable (s : State) {a n : Nat} (h : s.Writable a n) : s.Readable a n :=
  fun i hi => .inl (h i hi)

theorem isReadOnly_of_writable (s : State) {a n : Nat} (h : s.Writable a n) :
    ∀ i < n, s.isReadOnly (a + i) = false := by
  intro i hi
  simp [State.isReadOnly, h i hi]

/-- Where no peripheral stands, a read presents memory's word (R74). -/
theorem busWord_of_readable (s : State) {a : Nat} (h : s.Readable a 4) : s.busWord a = s.wordAt a := by
  have hd := isDevice_of_readable s h
  have h0 : s.isDevice a = false := by simpa using hd 0 (by omega)
  simp [State.busWord, State.wordAt, State.busByte, h0, hd 1 (by omega), hd 2 (by omega), hd 3 (by omega)]

/-- Where no peripheral stands, a read draws no free value. -/
theorem afterRead_of_readable (s : State) {a n : Nat} (h : s.Readable a n) : s.afterRead a n = s := by
  simp [State.afterRead, (firstAddr_none_iff _ _ _).2 (isDevice_of_readable s h)]

theorem loadWord_eq (s : State) {a : Nat} (h : s.Readable a 4) : loadWord s a = .ok (s.wordAt a, s) :=
  (loadWord_ok_iff _ _ _ _).2 ⟨isUnmapped_of_readable s h, (busWord_of_readable s h).symm,
    (afterRead_of_readable s h).symm⟩

theorem storeBytes_eq (s : State) {a : Nat} {l : List Byte} (h : s.Writable a l.length) :
    storeBytes s a l = .ok (s.stored a l) :=
  (storeBytes_ok_iff _ _ _ _).2 ⟨isUnmapped_of_readable s (readable_of_writable s h), isReadOnly_of_writable s h, rfl⟩

/-- Where no peripheral stands, a fetch presents memory's half-word (R73, R74). -/
theorem busHalf_of_readable (s : State) {a : Nat} (h : s.Readable a 2) : s.busHalf a = s.halfAt a := by
  have hd := isDevice_of_readable s h
  have h0 : s.isDevice a = false := by simpa using hd 0 (by omega)
  simp [State.busHalf, State.halfAt, State.busByte, h0, hd 1 (by omega)]

theorem fetchWord_eq (s : State) {p : CodeAddr} {w : Half} (h : s.Fetches p w) : fetchWord s p = .ok (w, s) := by
  obtain ⟨hr, h0, h1, hw⟩ := h
  refine (fetchWord_ok_iff _ _ _ _).2 ⟨isUnmapped_of_readable s hr, ?_, by rw [busHalf_of_readable s hr, hw],
    (afterRead_of_readable s hr).symm⟩
  intro i hi
  match i, hi with
  | 0, _ => exact h0
  | 1, _ => exact h1

/-- The bytes of a store in memory that can be written read back as stored (R75, R86). -/
theorem byteAt_stored_writable (s : State) {a : Nat} {l : List Byte} (h : s.Writable a l.length) (i : Nat)
    (hi : i < l.length) : (s.stored a l).byteAt (a + i) = l[i] := by
  rw [byteAt_stored_at s a l i hi]
  simp [State.isDevice, h i hi]

/-! ### The shapes of an instruction -/

theorem ordinary_next_iff (isNop : Bool) (s : State) (effect : State → Res State) (u : State) :
    ordinary isNop s effect = .next u ↔
      (s.nopReq = false ∨ isNop = true) ∧ (s.bt = none → s.pcFits 2) ∧
        ∃ t, effect s = .ok t ∧ u = t.retire s.followPc := by
  unfold ordinary
  simp only [outcome_next_iff, res_bind_ok_iff, requireNopDone_ok_iff, nextPc_ok_iff, res_pure]
  constructor
  · rintro ⟨_, hn, t, ht, p, ⟨hp, rfl⟩, h⟩
    exact ⟨hn, hp, t, ht, (Except.ok.inj h).symm⟩
  · rintro ⟨hn, hp, t, ht, rfl⟩
    exact ⟨(), hn, t, ht, _, ⟨hp, rfl⟩, rfl⟩

theorem ordinary_eq {s : State} (isNop : Bool) {effect : State → Res State} {t : State} (h : s.Ready)
    (ht : effect s = .ok t) : ordinary isNop s effect = .next (t.retire s.followPc) :=
  (ordinary_next_iff _ _ _ _).2 ⟨.inl h.1, h.2, t, ht, rfl⟩

theorem transfer_next_iff (s : State) (effect : State → Res (State × CodeAddr)) (u : State) :
    transfer s effect = .next u ↔
      s.nopReq = false ∧ s.bt = none ∧ s.pcFits 2 ∧
        ∃ t p, effect s = .ok (t, p) ∧ u = { t.retire (s.pc + 2) with bt := some p } := by
  unfold transfer
  simp only [outcome_next_iff, res_bind_ok_iff, requireNopDone_ok_iff, requireNoSlot_ok_iff, Bool.false_eq_true,
    or_false]
  constructor
  · rintro ⟨_, hn, _, hb, ⟨t, p⟩, ht, q, hq, h⟩
    obtain ⟨hf, rfl⟩ := (pcPlus_ok_iff _ _ _).1 hq
    exact ⟨hn, hb, hf, t, p, ht, (Except.ok.inj h).symm⟩
  · rintro ⟨hn, hb, hf, t, p, ht, rfl⟩
    exact ⟨(), hn, (), hb, (t, p), ht, _, pcPlus_eq s 2 hf, rfl⟩

theorem transfer_eq {s : State} {effect : State → Res (State × CodeAddr)} {t : State} {p : CodeAddr}
    (h : s.ReadyAlone) (hf : s.pcFits 2) (ht : effect s = .ok (t, p)) :
    transfer s effect = .next { t.retire (s.pc + 2) with bt := some p } :=
  (transfer_next_iff _ _ _).2 ⟨h.1, h.2, hf, t, p, ht, rfl⟩

/-- Where a skip can go, and from what word it knows (R230, R231). -/
theorem skipTarget_ok_iff (s : State) (holds : Bool) (p : CodeAddr) (t : State) :
    skipTarget s holds = .ok (p, t) ↔
      s.pcFits 2 ∧ ∃ w, fetchWord s (s.pc + 2) = .ok (w, t) ∧ s.pcFits (skipLength holds w) ∧
        p = s.pc + BitVec.ofNat 33 (skipLength holds w) := by
  unfold skipTarget
  simp only [res_bind_ok_iff, pcPlus_ok_iff, res_pure]
  constructor
  · rintro ⟨q, ⟨hf, rfl⟩, ⟨w, u⟩, hw, r, ⟨hr, rfl⟩, h⟩
    obtain ⟨rfl, rfl⟩ := Prod.mk.inj (Except.ok.inj h)
    exact ⟨hf, w, hw, hr, rfl⟩
  · rintro ⟨hf, w, hw, hr, rfl⟩
    exact ⟨_, ⟨hf, rfl⟩, (w, t), hw, _, ⟨hr, rfl⟩, rfl⟩

theorem skip_next_iff (s : State) (test : State → Res Bool) (u : State) :
    skip s test = .next u ↔
      s.nopReq = false ∧ s.bt = none ∧
        ∃ b p t, test s = .ok b ∧ u = t.retire p ∧ skipTarget s b = .ok (p, t) := by
  unfold skip
  simp only [outcome_next_iff, res_bind_ok_iff, requireNopDone_ok_iff, requireNoSlot_ok_iff, Bool.false_eq_true,
    or_false]
  constructor
  · rintro ⟨_, hn, _, hb, b, ht, ⟨p, t⟩, hp, h⟩
    exact ⟨hn, hb, b, p, t, ht, (Except.ok.inj h).symm, hp⟩
  · rintro ⟨hn, hb, b, p, t, ht, rfl, hp⟩
    exact ⟨(), hn, (), hb, b, ht, (p, t), hp, rfl⟩

/-! ### Exceptions -/

/-- The window that opens for the handler of an exception (R280, R286). -/
def entryWindow (isUnderflow : Bool) (s : State) : BitVec 5 := if isUnderflow then s.cwp else s.cwp - 1

theorem loadVector_ok_iff (s : State) (n : BitVec 6) (v : Word) (t : State) :
    loadVector s n = .ok (v, t) ↔
      (∀ i < 4, s.isUnmapped (vectorAddr s n + i) = false) ∧
        (∀ i < 4, s.isUnwritten (vectorAddr s n + i) = false) ∧
        v = s.busWord (vectorAddr s n) ∧ t = s.afterRead (vectorAddr s n) 4 := by
  unfold loadVector
  simp only [res_bind_ok_iff]
  constructor
  · rintro ⟨⟨x, u⟩, hl, h⟩
    obtain ⟨hm, rfl, rfl⟩ := (loadWord_ok_iff _ _ _ _).1 hl
    cases hf : firstAddr s.isUnwritten (vectorAddr s n) 4
    · rw [hf] at h
      obtain ⟨rfl, rfl⟩ := Prod.mk.inj (Except.ok.inj h)
      exact ⟨hm, (firstAddr_none_iff _ _ _).1 hf, rfl, rfl⟩
    · simp [hf] at h
  · rintro ⟨hm, hw, rfl, rfl⟩
    refine ⟨(_, _), (loadWord_ok_iff _ _ _ _).2 ⟨hm, rfl, rfl⟩, ?_⟩
    rw [(firstAddr_none_iff _ _ _).2 hw]
    rfl

theorem takeException_ok_iff (n : BitVec 6) (ret : CodeAddr) (isUnderflow : Bool) (s u : State) :
    takeException n ret isUnderflow s = .ok u ↔
      (isUnderflow = true ∨ s.cwp ≠ 0) ∧ (s.enter n (entryWindow isUnderflow s)).reachable 15 = true ∧
        (∀ i < 4, s.isUnmapped (vectorAddr s n + i) = false) ∧
        (∀ i < 4, s.isUnwritten (vectorAddr s n + i) = false) ∧
        u = ((((s.enter n (entryWindow isUnderflow s)).setReg 15 (halfOfCode ret)).afterRead (vectorAddr s n) 4).divert
          (codeOfHalf (s.busWord (vectorAddr s n)))) := by
  unfold takeException entryWindow
  simp only [res_bind_ok_iff, require_ok_iff, writeReg_ok_iff, Bool.or_eq_true, bne_iff_ne]
  constructor
  · rintro ⟨_, hw, t, ⟨hr, rfl⟩, ⟨v, t⟩, hl, h⟩
    obtain ⟨hm, hu, rfl, rfl⟩ := (loadVector_ok_iff _ _ _ _).1 hl
    exact ⟨hw, hr, hm, hu, (Except.ok.inj h).symm⟩
  · rintro ⟨hw, hr, hm, hu, rfl⟩
    exact ⟨(), hw, _, ⟨hr, rfl⟩, (_, _), (loadVector_ok_iff _ _ _ _).2 ⟨hm, hu, rfl, rfl⟩, rfl⟩

/-- Where the jump through a table entry stops, its fetch gives the reason (R282, U14). -/
theorem loadVector_of_vectorStops {s : State} {n : BitVec 6} {r : Refusal} (h : s.VectorStops n r) :
    loadVector s n = .error r := by
  rcases h with ⟨i, h, rfl⟩ | ⟨i, ⟨hp, hi, hk, hb, hj⟩, rfl⟩
  · simp [loadVector, loadWord, vectorAddr, firstAddr_of_firstUnmapped h]
  · have e (j : Nat) : s.cfg.vecBase.toNat + 4 * n.toNat + j - s.cfg.vecBase.toNat = 4 * n.toNat + j := by omega
    have hf : firstAddr s.isUnwritten (s.cfg.vecBase.toNat + 4 * n.toNat) 4 =
        some (s.cfg.vecBase.toNat + 4 * n.toNat + i) :=
      firstAddr_eq_some hi (by simp [State.isUnwritten, State.isRam, hk, e, hb]) fun j h' => by
        have := hj j h'
        simp only [State.isUnwritten, State.isRam, e]
        cases hr : (s.kindAt (s.cfg.vecBase.toNat + 4 * n.toNat + j) == some RegionKind.ram)
        · rfl
        · simp [this (by simpa using hr)]
    simp [loadVector, loadWord, vectorAddr, firstAddr_of_present hp, hf]

/-- A table entry that can be read is one that the jump goes through (R282). -/
theorem isUnwritten_of_vectorReadable (s : State) {n : BitVec 6} (h : s.VectorReadable n) :
    ∀ i < 4, s.isUnwritten (vectorAddr s n + i) = false := by
  intro i hi
  unfold State.isUnwritten vectorAddr
  cases hr : s.isRam (s.cfg.vecBase.toNat + 4 * n.toNat + i)
  · rfl
  · have := h.2 i hi (by simpa [State.isRam] using hr)
    rw [show s.cfg.vecBase.toNat + 4 * n.toNat + i - s.cfg.vecBase.toNat = 4 * n.toNat + i by omega, this]
    rfl

end Sys2Proof.Machine
end

