-- ==== Sys2Proof/Laws/Effects.lean ====
section
/-! SUPPORT. For each effect that instructions share: all that it can answer, and the answer under the conditions it
needs; and the frames that such answers have at the end of an instruction. -/

namespace Sys2Proof.Machine

/-! ### Register effects -/

theorem unaryEffect_ok_iff (a : RegIdx) (op : Word → Word) (s t : State) :
    unaryEffect a op s = .ok t ↔ s.reachable a = true ∧ t = s.setReg a (op (s.reg a)) := by
  unfold unaryEffect
  simp only [res_bind_ok_iff, readReg_ok_iff, writeReg_ok_iff]
  constructor
  · rintro ⟨x, ⟨ha, rfl⟩, _, rfl⟩; exact ⟨ha, rfl⟩
  · rintro ⟨ha, rfl⟩; exact ⟨_, ⟨ha, rfl⟩, ha, rfl⟩

theorem binaryEffect_ok_iff (a b : RegIdx) (op : Word → Word → Word) (s t : State) :
    binaryEffect a b op s = .ok t ↔
      s.reachable a = true ∧ s.reachable b = true ∧ t = s.setReg a (op (s.reg a) (s.reg b)) := by
  unfold binaryEffect
  simp only [res_bind_ok_iff, readReg_ok_iff, writeReg_ok_iff]
  constructor
  · rintro ⟨x, ⟨ha, rfl⟩, y, ⟨hb, rfl⟩, _, rfl⟩; exact ⟨ha, hb, rfl⟩
  · rintro ⟨ha, hb, rfl⟩; exact ⟨_, ⟨ha, rfl⟩, _, ⟨hb, rfl⟩, ha, rfl⟩

theorem onR0Effect_ok_iff (a : RegIdx) (op : Word → Word → Word) (s t : State) :
    onR0Effect a op s = .ok t ↔ s.reachable a = true ∧ t = s.setReg 0 (op (s.reg 0) (s.reg a)) := by
  unfold onR0Effect
  simp only [res_bind_ok_iff, readReg_ok_iff, writeReg_ok_iff, reachable_zero]
  constructor
  · rintro ⟨x, ⟨_, rfl⟩, y, ⟨ha, rfl⟩, _, rfl⟩; exact ⟨ha, rfl⟩
  · rintro ⟨ha, rfl⟩; exact ⟨_, ⟨trivial, rfl⟩, _, ⟨ha, rfl⟩, trivial, rfl⟩

theorem arithEffect_ok_iff (a : RegIdx) (y : Res Word) (op : Word → Word → Word) (fl : Word → Word → Flags)
    (s t : State) :
    arithEffect a y op fl s = .ok t ↔
      s.reachable a = true ∧ ∃ v, y = .ok v ∧ t = (s.setReg a (op (s.reg a) v)).setFlags (fl (s.reg a) v) := by
  unfold arithEffect
  simp only [res_bind_ok_iff, readReg_ok_iff, writeReg_ok_iff, res_pure]
  constructor
  · rintro ⟨x, ⟨ha, rfl⟩, v, hv, _, ⟨_, rfl⟩, h⟩; exact ⟨ha, v, hv, (Except.ok.inj h).symm⟩
  · rintro ⟨ha, v, hv, rfl⟩; exact ⟨_, ⟨ha, rfl⟩, v, hv, _, ⟨ha, rfl⟩, rfl⟩

theorem compareEffect_ok_iff (a : RegIdx) (y : Res Word) (s t : State) :
    compareEffect a y s = .ok t ↔
      s.reachable a = true ∧ ∃ v, y = .ok v ∧ t = s.setFlags (flagsSub (s.reg a) v) := by
  unfold compareEffect
  simp only [res_bind_ok_iff, readReg_ok_iff, res_pure]
  constructor
  · rintro ⟨x, ⟨ha, rfl⟩, v, hv, h⟩; exact ⟨ha, v, hv, (Except.ok.inj h).symm⟩
  · rintro ⟨ha, v, hv, rfl⟩; exact ⟨_, ⟨ha, rfl⟩, v, hv, rfl⟩

/-- The second operand of a logical instruction (R108). -/
theorem operandTwo_ok_iff (s : State) (b : BitVec 5) (v : Word) :
    operandTwo s b = .ok v ↔
      (s.pfxf = true ∧ v = imm16 s.k b) ∨ (s.pfxf = false ∧ s.reachable b = true ∧ v = s.reg b) := by
  unfold operandTwo
  cases s.pfxf
  · simp [readReg_ok_iff]
  · exact ⟨fun h => .inl ⟨rfl, (Except.ok.inj h).symm⟩, fun h => by
      rcases h with ⟨_, rfl⟩ | ⟨h, _⟩
      · rfl
      · cases h⟩

theorem logicEffect_ok_iff (a b : RegIdx) (op : Word → Word → Word) (s t : State) :
    logicEffect a b op s = .ok t ↔
      s.reachable a = true ∧ ∃ v, operandTwo s b = .ok v ∧
        t = (s.setReg a (op (s.reg a) v)).setFlags (flagsNZ (op (s.reg a) v) s.flags) := by
  unfold logicEffect
  simp only [res_bind_ok_iff, readReg_ok_iff, writeReg_ok_iff, res_pure]
  constructor
  · rintro ⟨x, ⟨ha, rfl⟩, v, hv, _, ⟨_, rfl⟩, h⟩; exact ⟨ha, v, hv, (Except.ok.inj h).symm⟩
  · rintro ⟨ha, v, hv, rfl⟩; exact ⟨_, ⟨ha, rfl⟩, v, hv, _, ⟨ha, rfl⟩, rfl⟩

theorem moveEffect_ok_iff (a b : RegIdx) (s t : State) :
    moveEffect a b s = .ok t ↔ s.reachable a = true ∧ s.reachable b = true ∧ t = s.setReg a (s.reg b) := by
  unfold moveEffect
  simp only [res_bind_ok_iff, readReg_ok_iff, writeReg_ok_iff]
  constructor
  · rintro ⟨y, ⟨hb, rfl⟩, ha, rfl⟩; exact ⟨ha, hb, rfl⟩
  · rintro ⟨ha, hb, rfl⟩; exact ⟨_, ⟨hb, rfl⟩, ha, rfl⟩

/-! ### Memory effects -/

theorem loadEffect_ok_iff (base : RegIdx) (ea : State → Word) (a : RegIdx) (s t : State) :
    loadEffect base ea a s = .ok t ↔
      s.reachable base = true ∧ s.reachable a = true ∧ (∀ i < 4, s.isUnmapped (wordAddr (ea s) + i) = false) ∧
        t = (s.afterRead (wordAddr (ea s)) 4).setReg a (s.busWord (wordAddr (ea s))) := by
  unfold loadEffect
  simp only [res_bind_ok_iff, readReg_ok_iff]
  constructor
  · rintro ⟨_, ⟨hb, rfl⟩, ⟨v, u⟩, hl, h⟩
    obtain ⟨hm, rfl, rfl⟩ := (loadWord_ok_iff _ _ _ _).1 hl
    obtain ⟨ha, rfl⟩ := (writeReg_ok_iff _ _ _ _).1 h
    exact ⟨hb, ha, hm, rfl⟩
  · rintro ⟨hb, ha, hm, rfl⟩
    exact ⟨_, ⟨hb, rfl⟩, (_, _), (loadWord_ok_iff _ _ _ _).2 ⟨hm, rfl, rfl⟩, (writeReg_ok_iff _ _ _ _).2 ⟨ha, rfl⟩⟩

theorem storeWordEffect_ok_iff (base : RegIdx) (ea : State → Word) (a : RegIdx) (s t : State) :
    storeWordEffect base ea a s = .ok t ↔
      s.reachable base = true ∧ s.reachable a = true ∧
        storeBytes s (wordAddr (ea s)) (wordBytes (s.reg a)) = .ok t := by
  unfold storeWordEffect
  simp only [res_bind_ok_iff, readReg_ok_iff]
  constructor
  · rintro ⟨_, ⟨hb, rfl⟩, _, ⟨ha, rfl⟩, h⟩; exact ⟨hb, ha, h⟩
  · rintro ⟨hb, ha, h⟩; exact ⟨_, ⟨hb, rfl⟩, _, ⟨ha, rfl⟩, h⟩

theorem storeByteEffect_ok_iff (base : RegIdx) (ea : State → Word) (lane : State → BitVec 2) (s t : State) :
    storeByteEffect base ea lane s = .ok t ↔
      s.reachable base = true ∧
        storeBytes s (byteAddr (ea s) (lane s)) [byteOf (s.reg 0) (lane s).toNat] = .ok t := by
  unfold storeByteEffect
  simp only [res_bind_ok_iff, readReg_ok_iff, reachable_zero]
  constructor
  · rintro ⟨_, ⟨hb, rfl⟩, _, ⟨_, rfl⟩, h⟩; exact ⟨hb, h⟩
  · rintro ⟨hb, h⟩; exact ⟨_, ⟨hb, rfl⟩, _, ⟨trivial, rfl⟩, h⟩

theorem storeHalfEffect_ok_iff (base : RegIdx) (ea : State → Word) (lane : State → BitVec 1) (s t : State) :
    storeHalfEffect base ea lane s = .ok t ↔
      s.reachable base = true ∧
        storeBytes s (halfAddr (ea s) (lane s)) (halfBytes (halfOf (s.reg 0) (lane s).toNat)) = .ok t := by
  unfold storeHalfEffect
  simp only [res_bind_ok_iff, readReg_ok_iff, reachable_zero]
  constructor
  · rintro ⟨_, ⟨hb, rfl⟩, _, ⟨_, rfl⟩, h⟩; exact ⟨hb, h⟩
  · rintro ⟨hb, h⟩; exact ⟨_, ⟨hb, rfl⟩, _, ⟨trivial, rfl⟩, h⟩

/-! ### Control effects -/

theorem linked_ok_iff (s t : State) :
    linked s = .ok t ↔
      s.pcFits 4 ∧ s.reachable 15 = true ∧ t = s.setReg 15 (halfOfCode (s.pc + 4)) := by
  unfold linked linkReg
  simp only [res_bind_ok_iff, pcPlus_ok_iff, writeReg_ok_iff]
  constructor
  · rintro ⟨_, ⟨hf, rfl⟩, hr, rfl⟩; exact ⟨hf, hr, rfl⟩
  · rintro ⟨hf, hr, rfl⟩; exact ⟨_, ⟨hf, rfl⟩, hr, rfl⟩

theorem branchTarget_ok_iff (s : State) (n : BitVec 11) (p : CodeAddr) :
    branchTarget s n = .ok p ↔
      (p.toNat : Int) = s.pc.toNat + 2 * (n.toInt + 1) ∧ p.toNat ≤ 2 ^ 33 - 2 := by
  unfold branchTarget
  have hp := p.isLt
  dsimp only
  split
  · rename_i h
    obtain ⟨h0, h1⟩ := h
    have hs : (BitVec.ofInt 33 ((s.pc.toNat : Int) + (n.toInt + 1) * 2)).toNat
        = ((s.pc.toNat : Int) + (n.toInt + 1) * 2).toNat := by
      rw [BitVec.toNat_ofInt]; omega
    constructor
    · intro h
      have hq : p = BitVec.ofInt 33 ((s.pc.toNat : Int) + (n.toInt + 1) * 2) := (Except.ok.inj h).symm
      rw [hq, hs]; omega
    · rintro ⟨h2, h3⟩
      have hq : p = BitVec.ofInt 33 ((s.pc.toNat : Int) + (n.toInt + 1) * 2) :=
        BitVec.eq_of_toNat_eq (by rw [hs]; omega)
      rw [hq]
  · rename_i h
    constructor
    · intro h'; cases h'
    · rintro ⟨h2, h3⟩; exact absurd ⟨by omega, by omega⟩ h

/-- Twice a register, as a code address (R224). -/
theorem codeOfHalf_toNat (x : Word) : (codeOfHalf x).toNat = 2 * x.toNat := by
  have := x.isLt
  simp only [codeOfHalf, BitVec.toNat_shiftLeft, BitVec.toNat_setWidth, BitVec.zeroExtend]
  rw [Nat.shiftLeft_eq]; omega

/-- Half of a code address, as a register holds it (R223, R281). -/
theorem halfOfCode_toNat (p : CodeAddr) : (halfOfCode p).toNat = p.toNat / 2 := by
  have := p.isLt
  simp only [halfOfCode, BitVec.toNat_setWidth, BitVec.toNat_ushiftRight]
  rw [Nat.shiftRight_eq_div_pow]; omega

theorem codeOfHalf_even (x : Word) : (codeOfHalf x).getLsbD 0 = false := by
  simp [codeOfHalf]

/-! ### Frames at the end of an instruction -/

theorem idle_retire (s : State) (p : CodeAddr) : Idle (s.retire p) := ⟨rfl, rfl, rfl, rfl⟩

theorem idle_divert (s : State) (p : CodeAddr) : Idle (s.divert p) := ⟨rfl, rfl, rfl, rfl⟩

theorem follows_retire (s t : State) : Follows s (t.retire s.followPc) := ⟨idle_retire _ _, rfl⟩

theorem keepsControl_refl (s : State) : KeepsControl s s := ⟨rfl, rfl, rfl, rfl, rfl, rfl, rfl, rfl⟩

theorem keepsControl_retire {s t : State} (h : KeepsControl s t) (p : CodeAddr) : KeepsControl s (t.retire p) :=
  ⟨h.cfg, h.ie, h.ipri, h.cwp, h.istatus, h.wvalid, h.irqInputs, h.busWrites⟩

theorem keepsControl_setReg {s t : State} (h : KeepsControl s t) (i : RegIdx) (v : Word) :
    KeepsControl s (t.setReg i v) :=
  ⟨h.cfg, h.ie, h.ipri, h.cwp, h.istatus, h.wvalid, h.irqInputs, h.busWrites⟩

theorem keepsControl_setFlags {s t : State} (h : KeepsControl s t) (f : Flags) : KeepsControl s (t.setFlags f) :=
  ⟨h.cfg, by simpa using h.ie, by simpa using h.ipri, by simpa using h.cwp, h.istatus, h.wvalid, h.irqInputs, h.busWrites⟩

theorem keepsControl_afterRead {s t : State} (h : KeepsControl s t) (a n : Nat) : KeepsControl s (t.afterRead a n) :=
  ⟨h.cfg, h.ie, h.ipri, h.cwp, h.istatus, h.wvalid, h.irqInputs, h.busWrites⟩

theorem keepsControl_stored {s t : State} (h : KeepsControl s t) (a : Nat) (l : List Byte) :
    KeepsControl s (t.stored a l) :=
  ⟨h.cfg, h.ie, h.ipri, h.cwp, h.istatus, h.wvalid, h.irqInputs, h.busWrites⟩

/-- An instruction that sets one register writes only that. -/
theorem writesOnly_setReg (s : State) (i : RegIdx) (v : Word) (p : CodeAddr) :
    WritesOnly s ((s.setReg i v).retire p) i where
  others := fun _ hq => phys_setReg_other s i v hq
  memory := ⟨fun _ => rfl, rfl⟩
  control := keepsControl_retire (keepsControl_setReg (keepsControl_refl s) i v) p
  freeCount := rfl

/-- An instruction that sets one register and the flags writes only those. -/
theorem writesOnly_setReg_setFlags (s : State) (i : RegIdx) (v : Word) (f : Flags) (p : CodeAddr) :
    WritesOnly s (((s.setReg i v).setFlags f).retire p) i where
  others := fun _ hq => phys_setReg_other s i v hq
  memory := ⟨fun _ => rfl, rfl⟩
  control := keepsControl_retire (keepsControl_setFlags (keepsControl_setReg (keepsControl_refl s) i v) f) p
  freeCount := rfl

theorem writesNothing_retire (s : State) (p : CodeAddr) : WritesNothing s (s.retire p) where
  others := fun _ _ => rfl
  memory := ⟨fun _ => rfl, rfl⟩
  control := keepsControl_retire (keepsControl_refl s) p
  freeCount := rfl

theorem writesNothing_setFlags (s : State) (f : Flags) (p : CodeAddr) : WritesNothing s ((s.setFlags f).retire p) where
  others := fun _ _ => rfl
  memory := ⟨fun _ => rfl, rfl⟩
  control := keepsControl_retire (keepsControl_setFlags (keepsControl_refl s) f) p
  freeCount := rfl

/-- A store changes only its own bytes. -/
theorem storesOnly_stored (s : State) (a : Nat) (l : List Byte) (p : CodeAddr) (h : s.Writable a l.length) :
    StoresOnly s ((s.stored a l).retire p) a l.length where
  others := fun _ _ => rfl
  memory := ⟨fun b hb => byteAt_stored_other s a l b hb, fun i hi h => tableByte_stored_other s a l i hi h⟩
  table := fun i hi h1 h2 => tableByte_stored_at s a l i hi (by
    have := h (s.cfg.vecBase.toNat + i - a) (by omega)
    rw [show a + (s.cfg.vecBase.toNat + i - a) = s.cfg.vecBase.toNat + i by omega] at this
    simp [State.isRam, this]) h1 h2
  control := keepsControl_retire (keepsControl_stored (keepsControl_refl s) a l) p
  flags := rfl
  freeCount := rfl

/-- The registers of two states with one window are the same where the physical ones are. -/
theorem reg_eq_of_phys {s t : State} {i j : RegIdx} (h : t.phys (physIndex t.cwp i) = s.phys (physIndex s.cwp j)) :
    t.reg i = s.reg j := h

end Sys2Proof.Machine
end

