-- ==== Sys2Proof/Machine/Assembler.lean ====
section
/-! DEFINITION. Assembler syntax: the operators, the number a branch to a label carries, and the text of each instruction
(spec 30_encoding.md R125 to R128, 44_control.md R236). Nothing of the machine depends on it. -/

namespace Sys2Proof.Machine

/-- `%lo(x)`, bits 4:0 (R127). -/
def asmLo (x : Word) : BitVec 5 := x.extractLsb' 0 5

/-- `%hi(x)`, bits 15:5 (R127). -/
def asmHi (x : Word) : BitVec 11 := x.extractLsb' 5 11

/-- `%xlo(x)`, bits 20:16 (R127; PRESUMED, general knowledge G15, log 43). -/
def asmXlo (x : Word) : BitVec 5 := x.extractLsb' 16 5

/-- `%xhi(x)`, bits 31:21 (R127). -/
def asmXhi (x : Word) : BitVec 11 := x.extractLsb' 21 11

/-- `x@h`, the half-word address that JMP, CALL and a vector table entry take (R127, R224). -/
def asmHalf (x : CodeAddr) : Word := halfOfCode x

/-- The IMM11 of a BR or BSR at `pc` to `label`: `(label - pc - 2) >> 1` (R222). -/
def branchImmediate (label pc : CodeAddr) : BitVec 11 := (label - pc - 2).extractLsb' 1 11

/-- A register by its number (R126). -/
def regText (a : RegIdx) : String := "%r" ++ toString a.toNat

/-- A pointer register (R126). -/
def ptrText (p : BitVec 2) : String := "%L" ++ toString p.toNat

/-- The IFS name of a condition number (R236). -/
def conditionText (c : BitVec 4) : String :=
  match c.toNat with
  | 0 => "cc_nc"
  | 1 => "cc_c"
  | 2 => "cc_nz"
  | 3 => "cc_z"
  | 4 => "cc_pl"
  | 5 => "cc_mi"
  | 6 => "cc_lt"
  | 7 => "cc_ge"
  | 8 => "cc_gt"
  | 9 => "cc_le"
  | 10 => "cc_nv"
  | 11 => "cc_v"
  | 12 => "cc_hi"
  | 13 => "cc_la"
  | _ => "no condition"

/-- The form `OP %rA,%rB` (R125). -/
def textRR (op : String) (a b : RegIdx) : String := op ++ " " ++ regText a ++ "," ++ regText b

/-- The form `OP %rA,IMM` (R125). -/
def textRI (op : String) (a : RegIdx) (n : Nat) : String := op ++ " " ++ regText a ++ "," ++ toString n

/-- The form `OP %rA` (R125). -/
def textR (op : String) (a : RegIdx) : String := op ++ " " ++ regText a

/-- AND, ANDN, OR, XOR: two registers, or after a PFX a register and an immediate (R108, R125). -/
def textLogic (prefixed : Bool) (op : String) (a b : RegIdx) : String :=
  if prefixed then textRI op a b.toNat else textRR op a b

/-- A memory operand `[base,IMM]` (R125). -/
def textAt (base : String) (n : Nat) : String := "[" ++ base ++ "," ++ toString n ++ "]"

/-- The address a BR or BSR at `pc` names (R222). -/
def textTarget (pc : CodeAddr) (n : BitVec 11) : String := toString ((pc.toNat : Int) + (n.toInt + 1) * 2)

/-- The text of an instruction at `pc`; `prefixed` says that the instruction before it is PFX (R125, R126, R128). -/
def instrText (prefixed : Bool) (pc : CodeAddr) : Instr → String
  | .add a b => textRR "ADD" a b
  | .addi a n => textRI "ADDI" a n.toNat
  | .sub a b => textRR "SUB" a b
  | .subi a n => textRI "SUBI" a n.toNat
  | .cmp a b => textRR "CMP" a b
  | .cmpi a n => textRI "CMPI" a n.toNat
  | .lsl a b => textRR "LSL" a b
  | .lsli a n => textRI "LSLI" a n.toNat
  | .lsr a b => textRR "LSR" a b
  | .lsri a n => textRI "LSRI" a n.toNat
  | .asr a b => textRR "ASR" a b
  | .asri a n => textRI "ASRI" a n.toNat
  | .mov a b => textRR "MOV" a b
  | .movi a n => textRI "MOVI" a n.toNat
  | .and a b => textLogic prefixed "AND" a b
  | .andn a b => textLogic prefixed "ANDN" a b
  | .or a b => textLogic prefixed "OR" a b
  | .xor a b => textLogic prefixed "XOR" a b
  | .bgen a n => textRI "BGEN" a n.toNat
  | .ext8d a b => textRR "EXT8d" a b
  | .skp0 a n => textRI "SKP0" a n.toNat
  | .skp1 a n => textRI "SKP1" a n.toNat
  | .ld a b => "LD " ++ regText a ++ ",[" ++ regText b ++ "]"
  | .st a b => "ST [" ++ regText b ++ "]," ++ regText a
  | .ext16d a b => textRR "EXT16d" a b
  | .movhi a n => textRI "MOVHI" a n.toNat
  | .sts8s n => "STS8s " ++ textAt "%sp" n.toNat ++ ",%r0"
  | .sts16s n => "STS16s " ++ textAt "%sp" n.toNat ++ ",%r0"
  | .ext8s a n => textRI "EXT8s" a n.toNat
  | .ext16s a n => textRI "EXT16s" a n.toNat
  | .st8s a n => "ST8s [" ++ regText a ++ "],%r0," ++ toString n.toNat
  | .st16s a n => "ST16s [" ++ regText a ++ "],%r0," ++ toString n.toNat
  | .save n => "SAVE %sp,-" ++ toString n.toNat
  | .trap n => "TRAP " ++ toString n.toNat
  | .not a => textR "NOT" a
  | .neg a => textR "NEG" a
  | .abs a => textR "ABS" a
  | .sext8 a => textR "SEXT8" a
  | .sext16 a => textR "SEXT16" a
  | .rlc a => textR "RLC" a
  | .rrc a => textR "RRC" a
  | .swap a => textR "SWAP" a
  | .restore => "RESTORE"
  | .tret a => textR "TRET" a
  | .st8d a => "ST8d [" ++ regText a ++ "],%r0"
  | .st16d a => "ST16d [" ++ regText a ++ "],%r0"
  | .fill8 a => "FILL8 %r0," ++ regText a
  | .fill16 a => "FILL16 %r0," ++ regText a
  | .mstep a => textR "MSTEP" a
  | .mul a => textR "MUL" a
  | .skprz a => textR "SKPRz" a
  | .skps c => "SKPS " ++ conditionText (c ^^^ 1)
  | .wrctl a => textR "WRCTL" a
  | .rdctl a => textR "RDCTL" a
  | .skprnz a => textR "SKPRnz" a
  | .jmp a => textR "JMP" a
  | .call a => textR "CALL" a
  | .br n => "BR " ++ textTarget pc n
  | .bsr n => "BSR " ++ textTarget pc n
  | .pfx n => "PFX " ++ toString n.toNat
  | .stp p n a => "STP " ++ textAt (ptrText p) n.toNat ++ "," ++ regText a
  | .ldp p n a => "LDP " ++ regText a ++ "," ++ textAt (ptrText p) n.toNat
  | .sts n a => "STS " ++ textAt "%sp" n.toNat ++ "," ++ regText a
  | .lds n a => "LDS " ++ regText a ++ "," ++ textAt "%sp" n.toNat
  | .nop => "NOP"
  | .lret => "LRET"
  | .ret => "RET"
  | .if0 a n => textRI "IF0" a n.toNat
  | .if1 a n => textRI "IF1" a n.toNat
  | .ifrnz a => textR "IFRnz" a
  | .ifrz a => textR "IFRz" a
  | .ifs c => "IFS " ++ conditionText c

end Sys2Proof.Machine
end

