-- ==== Sys2Proof/Laws/Assembler.lean ====
section
/-! SUPPORT. The operators of the assembler split a constant as PFX and the instruction after it join it (R127). -/

namespace Sys2Proof.Machine

/-- `%hi` and `%lo` give the low half-word to an instruction that reads `K : IMM5`. -/
theorem imm16_hi_lo (x : Word) : imm16 (asmHi x) (asmLo x) = (halfOf x 0).zeroExtend 32 := by
  unfold imm16 asmHi asmLo halfOf
  apply BitVec.eq_of_getLsbD_eq
  intro i hi
  simp only [BitVec.getLsbD_setWidth, BitVec.getLsbD_append, BitVec.getLsbD_extractLsb']
  grind

/-- `%xhi` and `%xlo` give the high half-word to MOVHI. -/
theorem xhi_xlo (x : Word) : asmXhi x ++ asmXlo x = halfOf x 1 := by
  unfold asmXhi asmXlo halfOf
  apply BitVec.eq_of_getLsbD_eq
  intro i hi
  simp only [BitVec.getLsbD_append, BitVec.getLsbD_extractLsb']
  grind

/-- The half-word address of an even code address below 2^33 leads a jump back to it. -/
theorem codeOfHalf_asmHalf (p : CodeAddr) (h : p.getLsbD 0 = false) : codeOfHalf (asmHalf p) = p := by
  have e : p.toNat % 2 = 0 := by
    have := h
    rw [BitVec.getLsbD, Nat.testBit_zero] at this
    simpa using this
  apply BitVec.eq_of_toNat_eq
  rw [codeOfHalf_toNat, asmHalf, halfOfCode_toNat]
  omega

end Sys2Proof.Machine
end

