-- ==== Sys2Proof/Laws/PerInstr.lean ====
section
/-! SUPPORT. Laws stated for every instruction, one lemma per constructor. -/

namespace Sys2Proof.Laws

/-- The name under which the decoder reads the word of an instruction stands for the same word, is its own such name,
and is well-formed exactly when the instruction is. -/
def SameWord.Statement (i : Instr) : Prop :=
  encodeWord i.canonical = encodeWord i ∧ i.canonical.canonical = i.canonical ∧ i.canonical.wellFormed = i.wellFormed

theorem SameWord.add (a b : RegIdx) : SameWord.Statement (.add a b) := ⟨rfl, rfl, rfl⟩

theorem SameWord.addi (a : RegIdx) (n : BitVec 5) : SameWord.Statement (.addi a n) := ⟨rfl, rfl, rfl⟩

theorem SameWord.sub (a b : RegIdx) : SameWord.Statement (.sub a b) := ⟨rfl, rfl, rfl⟩

theorem SameWord.subi (a : RegIdx) (n : BitVec 5) : SameWord.Statement (.subi a n) := ⟨rfl, rfl, rfl⟩

theorem SameWord.cmp (a b : RegIdx) : SameWord.Statement (.cmp a b) := ⟨rfl, rfl, rfl⟩

theorem SameWord.cmpi (a : RegIdx) (n : BitVec 5) : SameWord.Statement (.cmpi a n) := ⟨rfl, rfl, rfl⟩

theorem SameWord.lsl (a b : RegIdx) : SameWord.Statement (.lsl a b) := ⟨rfl, rfl, rfl⟩

theorem SameWord.lsli (a : RegIdx) (n : BitVec 5) : SameWord.Statement (.lsli a n) := ⟨rfl, rfl, rfl⟩

theorem SameWord.lsr (a b : RegIdx) : SameWord.Statement (.lsr a b) := ⟨rfl, rfl, rfl⟩

theorem SameWord.lsri (a : RegIdx) (n : BitVec 5) : SameWord.Statement (.lsri a n) := ⟨rfl, rfl, rfl⟩

theorem SameWord.asr (a b : RegIdx) : SameWord.Statement (.asr a b) := ⟨rfl, rfl, rfl⟩

theorem SameWord.asri (a : RegIdx) (n : BitVec 5) : SameWord.Statement (.asri a n) := ⟨rfl, rfl, rfl⟩

theorem SameWord.mov (a b : RegIdx) : SameWord.Statement (.mov a b) := by
  by_cases h : a = 0 ∧ b = 0
  · obtain ⟨rfl, rfl⟩ := h
    exact ⟨rfl, rfl, rfl⟩
  · have e : (Instr.mov a b).canonical = .mov a b := if_neg h
    exact ⟨by rw [e], by rw [e, e], by rw [e]⟩

theorem SameWord.movi (a : RegIdx) (n : BitVec 5) : SameWord.Statement (.movi a n) := ⟨rfl, rfl, rfl⟩

theorem SameWord.and (a b : RegIdx) : SameWord.Statement (.and a b) := ⟨rfl, rfl, rfl⟩

theorem SameWord.andn (a b : RegIdx) : SameWord.Statement (.andn a b) := ⟨rfl, rfl, rfl⟩

theorem SameWord.or (a b : RegIdx) : SameWord.Statement (.or a b) := ⟨rfl, rfl, rfl⟩

theorem SameWord.xor (a b : RegIdx) : SameWord.Statement (.xor a b) := ⟨rfl, rfl, rfl⟩

theorem SameWord.bgen (a : RegIdx) (n : BitVec 5) : SameWord.Statement (.bgen a n) := ⟨rfl, rfl, rfl⟩

theorem SameWord.ext8d (a b : RegIdx) : SameWord.Statement (.ext8d a b) := ⟨rfl, rfl, rfl⟩

theorem SameWord.skp0 (a : RegIdx) (n : BitVec 5) : SameWord.Statement (.skp0 a n) := ⟨rfl, rfl, rfl⟩

theorem SameWord.skp1 (a : RegIdx) (n : BitVec 5) : SameWord.Statement (.skp1 a n) := ⟨rfl, rfl, rfl⟩

theorem SameWord.ld (a b : RegIdx) : SameWord.Statement (.ld a b) := ⟨rfl, rfl, rfl⟩

theorem SameWord.st (a b : RegIdx) : SameWord.Statement (.st a b) := ⟨rfl, rfl, rfl⟩

theorem SameWord.ext16d (a b : RegIdx) : SameWord.Statement (.ext16d a b) := ⟨rfl, rfl, rfl⟩

theorem SameWord.movhi (a : RegIdx) (n : BitVec 5) : SameWord.Statement (.movhi a n) := ⟨rfl, rfl, rfl⟩

theorem SameWord.sts8s (n : BitVec 10) : SameWord.Statement (.sts8s n) := ⟨rfl, rfl, rfl⟩

theorem SameWord.sts16s (n : BitVec 9) : SameWord.Statement (.sts16s n) := ⟨rfl, rfl, rfl⟩

theorem SameWord.ext8s (a : RegIdx) (n : BitVec 2) : SameWord.Statement (.ext8s a n) := ⟨rfl, rfl, rfl⟩

theorem SameWord.ext16s (a : RegIdx) (n : BitVec 1) : SameWord.Statement (.ext16s a n) := ⟨rfl, rfl, rfl⟩

theorem SameWord.st8s (a : RegIdx) (n : BitVec 2) : SameWord.Statement (.st8s a n) := ⟨rfl, rfl, rfl⟩

theorem SameWord.st16s (a : RegIdx) (n : BitVec 1) : SameWord.Statement (.st16s a n) := ⟨rfl, rfl, rfl⟩

theorem SameWord.save (n : BitVec 8) : SameWord.Statement (.save n) := ⟨rfl, rfl, rfl⟩

theorem SameWord.trap (n : BitVec 6) : SameWord.Statement (.trap n) := ⟨rfl, rfl, rfl⟩

theorem SameWord.not (a : RegIdx) : SameWord.Statement (.not a) := ⟨rfl, rfl, rfl⟩

theorem SameWord.neg (a : RegIdx) : SameWord.Statement (.neg a) := ⟨rfl, rfl, rfl⟩

theorem SameWord.abs (a : RegIdx) : SameWord.Statement (.abs a) := ⟨rfl, rfl, rfl⟩

theorem SameWord.sext8 (a : RegIdx) : SameWord.Statement (.sext8 a) := ⟨rfl, rfl, rfl⟩

theorem SameWord.sext16 (a : RegIdx) : SameWord.Statement (.sext16 a) := ⟨rfl, rfl, rfl⟩

theorem SameWord.rlc (a : RegIdx) : SameWord.Statement (.rlc a) := ⟨rfl, rfl, rfl⟩

theorem SameWord.rrc (a : RegIdx) : SameWord.Statement (.rrc a) := ⟨rfl, rfl, rfl⟩

theorem SameWord.swap (a : RegIdx) : SameWord.Statement (.swap a) := ⟨rfl, rfl, rfl⟩

theorem SameWord.restore : SameWord.Statement .restore := ⟨rfl, rfl, rfl⟩

theorem SameWord.tret (a : RegIdx) : SameWord.Statement (.tret a) := ⟨rfl, rfl, rfl⟩

theorem SameWord.st8d (a : RegIdx) : SameWord.Statement (.st8d a) := ⟨rfl, rfl, rfl⟩

theorem SameWord.st16d (a : RegIdx) : SameWord.Statement (.st16d a) := ⟨rfl, rfl, rfl⟩

theorem SameWord.fill8 (a : RegIdx) : SameWord.Statement (.fill8 a) := ⟨rfl, rfl, rfl⟩

theorem SameWord.fill16 (a : RegIdx) : SameWord.Statement (.fill16 a) := ⟨rfl, rfl, rfl⟩

theorem SameWord.mstep (a : RegIdx) : SameWord.Statement (.mstep a) := ⟨rfl, rfl, rfl⟩

theorem SameWord.mul (a : RegIdx) : SameWord.Statement (.mul a) := ⟨rfl, rfl, rfl⟩

theorem SameWord.skprz (a : RegIdx) : SameWord.Statement (.skprz a) := ⟨rfl, rfl, rfl⟩

theorem SameWord.skps (c : BitVec 4) : SameWord.Statement (.skps c) := ⟨rfl, rfl, rfl⟩

theorem SameWord.wrctl (a : RegIdx) : SameWord.Statement (.wrctl a) := ⟨rfl, rfl, rfl⟩

theorem SameWord.rdctl (a : RegIdx) : SameWord.Statement (.rdctl a) := ⟨rfl, rfl, rfl⟩

theorem SameWord.skprnz (a : RegIdx) : SameWord.Statement (.skprnz a) := ⟨rfl, rfl, rfl⟩

theorem SameWord.jmp (a : RegIdx) : SameWord.Statement (.jmp a) := by
  by_cases h : a = 15
  · subst h
    exact ⟨rfl, rfl, rfl⟩
  · by_cases h' : a = 31
    · subst h'
      exact ⟨rfl, rfl, rfl⟩
    · have e : (Instr.jmp a).canonical = .jmp a := (if_neg h).trans (if_neg h')
      exact ⟨by rw [e], by rw [e, e], by rw [e]⟩

theorem SameWord.call (a : RegIdx) : SameWord.Statement (.call a) := ⟨rfl, rfl, rfl⟩

theorem SameWord.br (n : BitVec 11) : SameWord.Statement (.br n) := ⟨rfl, rfl, rfl⟩

theorem SameWord.bsr (n : BitVec 11) : SameWord.Statement (.bsr n) := ⟨rfl, rfl, rfl⟩

theorem SameWord.pfx (n : BitVec 11) : SameWord.Statement (.pfx n) := ⟨rfl, rfl, rfl⟩

theorem SameWord.stp (p : BitVec 2) (n : BitVec 5) (a : RegIdx) : SameWord.Statement (.stp p n a) := ⟨rfl, rfl, rfl⟩

theorem SameWord.ldp (p : BitVec 2) (n : BitVec 5) (a : RegIdx) : SameWord.Statement (.ldp p n a) := ⟨rfl, rfl, rfl⟩

theorem SameWord.sts (n : BitVec 8) (a : RegIdx) : SameWord.Statement (.sts n a) := ⟨rfl, rfl, rfl⟩

theorem SameWord.lds (n : BitVec 8) (a : RegIdx) : SameWord.Statement (.lds n a) := ⟨rfl, rfl, rfl⟩

theorem SameWord.nop : SameWord.Statement .nop := ⟨rfl, rfl, rfl⟩

theorem SameWord.lret : SameWord.Statement .lret := ⟨rfl, rfl, rfl⟩

theorem SameWord.ret : SameWord.Statement .ret := ⟨rfl, rfl, rfl⟩

theorem SameWord.if0 (a : RegIdx) (n : BitVec 5) : SameWord.Statement (.if0 a n) := ⟨rfl, rfl, rfl⟩

theorem SameWord.if1 (a : RegIdx) (n : BitVec 5) : SameWord.Statement (.if1 a n) := ⟨rfl, rfl, rfl⟩

theorem SameWord.ifrnz (a : RegIdx) : SameWord.Statement (.ifrnz a) := ⟨rfl, rfl, rfl⟩

theorem SameWord.ifrz (a : RegIdx) : SameWord.Statement (.ifrz a) := ⟨rfl, rfl, rfl⟩

theorem SameWord.ifs (c : BitVec 4) : SameWord.Statement (.ifs c) := ⟨rfl, rfl, rfl⟩

end Sys2Proof.Laws
end

