-- ==== Sys2Proof/Tests/Slice0.lean ====
section
/-! SUPPORT. Tests. The expected words are written out from the formats of spec/30_encoding.md (R101, R110 to R114), the
expected results are those of the vectors in spec/95_test_vectors.md and 96_derived_vectors.md, named by their ids. The
last part shows for each statement of Certificates/Slice0/Obligations.lean that its hypotheses can be met. -/

namespace Sys2Proof.Tests

open Sys2Proof Sys2Proof.Machine

/-! ### Well-formedness: the one check refuses the two numbers that are no condition (R130) -/

theorem test_wf_refuses_skps_14 : (Instr.skps 14).wellFormed = false := by decide
theorem test_wf_refuses_skps_15 : (Instr.skps 15).wellFormed = false := by decide
theorem test_wf_refuses_ifs_14 : (Instr.ifs 14).wellFormed = false := by decide
theorem test_wf_refuses_ifs_15 : (Instr.ifs 15).wellFormed = false := by decide
theorem test_wf_admits_the_last_condition : (Instr.skps 13).wellFormed = true ∧ (Instr.ifs 13).wellFormed = true := by
  decide

/-! ### Decoding: one word of every constructor, the fields grouped as in its format -/

theorem test_decode_arithmetic :
    decodeWord 0b000000_10010_00101#16 = .ok (.add 5 18) ∧
      decodeWord 0b000001_10101_10011#16 = .ok (.addi 19 21) ∧
      decodeWord 0b000010_00011_11011#16 = .ok (.sub 27 3) ∧
      decodeWord 0b000011_00110_00001#16 = .ok (.subi 1 6) ∧
      decodeWord 0b000100_11000_11110#16 = .ok (.cmp 30 24) ∧
      decodeWord 0b000101_11010_01100#16 = .ok (.cmpi 12 26) ∧
      decodeWord 0b01111100001_01001#16 = .ok (.neg 9) ∧
      decodeWord 0b01111100010_10110#16 = .ok (.abs 22) ∧
      decodeWord 0b01111110101_00101#16 = .ok (.mul 5) ∧
      decodeWord 0b01111110100_10011#16 = .ok (.mstep 19) := by
  decide

theorem test_decode_logic :
    decodeWord 0b001110_00111_11011#16 = .ok (.and 27 7) ∧
      decodeWord 0b001111_01101_00001#16 = .ok (.andn 1 13) ∧
      decodeWord 0b010000_11100_11110#16 = .ok (.or 30 28) ∧
      decodeWord 0b010001_10010_01100#16 = .ok (.xor 12 18) ∧
      decodeWord 0b01111100000_01001#16 = .ok (.not 9) ∧
      decodeWord 0b000110_00011_10110#16 = .ok (.lsl 22 3) ∧
      decodeWord 0b000111_01011_00101#16 = .ok (.lsli 5 11) ∧
      decodeWord 0b001000_11000_10011#16 = .ok (.lsr 19 24) ∧
      decodeWord 0b001001_10101_11011#16 = .ok (.lsri 27 21) ∧
      decodeWord 0b001010_00111_00001#16 = .ok (.asr 1 7) ∧
      decodeWord 0b001011_00110_11110#16 = .ok (.asri 30 6) ∧
      decodeWord 0b01111100101_01100#16 = .ok (.rlc 12) ∧
      decodeWord 0b01111100110_01001#16 = .ok (.rrc 9) ∧
      decodeWord 0b010010_11010_10110#16 = .ok (.bgen 22 26) := by
  decide

theorem test_decode_moves :
    decodeWord 0b001100_01101_00101#16 = .ok (.mov 5 13) ∧
      decodeWord 0b001101_01011_10011#16 = .ok (.movi 19 11) ∧
      decodeWord 0b011011_10101_11011#16 = .ok (.movhi 27 21) ∧
      decodeWord 0b10011_10100101011#16 = .ok (.pfx 1323) ∧
      decodeWord 0b010011_11100_00001#16 = .ok (.ext8d 1 28) ∧
      decodeWord 0b011101000_10_11110#16 = .ok (.ext8s 30 2) ∧
      decodeWord 0b011010_10010_01100#16 = .ok (.ext16d 12 18) ∧
      decodeWord 0b011101001_1_0_01001#16 = .ok (.ext16s 9 1) ∧
      decodeWord 0b01111100011_10110#16 = .ok (.sext8 22) ∧
      decodeWord 0b01111100100_00101#16 = .ok (.sext16 5) ∧
      decodeWord 0b01111110010_10011#16 = .ok (.fill8 19) ∧
      decodeWord 0b01111110011_11011#16 = .ok (.fill16 27) ∧
      decodeWord 0b01111101000_00001#16 = .ok (.swap 1) := by
  decide

theorem test_decode_loads_and_stores :
    decodeWord 0b010110_00011_11110#16 = .ok (.ld 30 3) ∧
      decodeWord 0b1011_10_00110_01100#16 = .ok (.ldp 2 6 12) ∧
      decodeWord 0b111_10110101_01001#16 = .ok (.lds 181 9) ∧
      decodeWord 0b010111_11000_10110#16 = .ok (.st 22 24) ∧
      decodeWord 0b1010_01_11010_00101#16 = .ok (.stp 1 26 5) ∧
      decodeWord 0b110_01001110_10011#16 = .ok (.sts 78 19) ∧
      decodeWord 0b01111110000_11011#16 = .ok (.st8d 27) ∧
      decodeWord 0b011101100_01_00001#16 = .ok (.st8s 1 1) ∧
      decodeWord 0b01111110001_11110#16 = .ok (.st16d 30) ∧
      decodeWord 0b011101101_1_0_01100#16 = .ok (.st16s 12 1) ∧
      decodeWord 0b011000_1010100110#16 = .ok (.sts8s 678) ∧
      decodeWord 0b011001_100110101_0#16 = .ok (.sts16s 309) := by
  decide

theorem test_decode_control :
    decodeWord 0b10000_11011010001#16 = .ok (.br 1745) ∧
      decodeWord 0b10001_10100101011#16 = .ok (.bsr 1323) ∧
      decodeWord 0b01111111110_01001#16 = .ok (.jmp 9) ∧
      decodeWord 0b01111111111_10110#16 = .ok (.call 22) ∧
      decodeWord 0b010100_01011_00101#16 = .ok (.skp0 5 11) ∧
      decodeWord 0b010101_10101_10011#16 = .ok (.skp1 19 21) ∧
      decodeWord 0b01111110110_11011#16 = .ok (.skprz 27) ∧
      decodeWord 0b01111111010_00001#16 = .ok (.skprnz 1) ∧
      decodeWord 0b011111101110_1001#16 = .ok (.skps 9) := by
  decide

theorem test_decode_system :
    decodeWord 0b01111000_10110101#16 = .ok (.save 181) ∧
      decodeWord 0b0111110110100000#16 = .ok .restore ∧
      decodeWord 0b0111100100_101101#16 = .ok (.trap 45) ∧
      decodeWord 0b01111101110_11110#16 = .ok (.tret 30) ∧
      decodeWord 0b01111111001_01100#16 = .ok (.rdctl 12) ∧
      decodeWord 0b01111111000_01001#16 = .ok (.wrctl 9) := by
  decide

/-- NOP, LRET and RET are read under their own names (R195, R226, R227). -/
theorem test_decode_aliases :
    decodeWord 0b0011000000000000#16 = .ok .nop ∧
      decodeWord 0b0111111111001111#16 = .ok .lret ∧
      decodeWord 0b0111111111011111#16 = .ok .ret := by
  decide

/-- The words of the other five aliases are read as the instructions they share them with (R128, R237). -/
theorem test_decode_if_words :
    encodeWord (.if0 22 6) = 0b010101_00110_10110#16 ∧ decodeWord 0b010101_00110_10110#16 = .ok (.skp1 22 6) ∧
      encodeWord (.if1 5 26) = 0b010100_11010_00101#16 ∧ decodeWord 0b010100_11010_00101#16 = .ok (.skp0 5 26) ∧
      encodeWord (.ifrnz 19) = 0b01111110110_10011#16 ∧ decodeWord 0b01111110110_10011#16 = .ok (.skprz 19) ∧
      encodeWord (.ifrz 27) = 0b01111111010_11011#16 ∧ decodeWord 0b01111111010_11011#16 = .ok (.skprnz 27) ∧
      encodeWord (.ifs 9) = 0b011111101110_1001#16 ∧ decodeWord 0b011111101110_1001#16 = .ok (.skps 9) := by
  decide

/-- The words of the source's own examples (95_test_vectors.md S10). -/
theorem test_decode_page_examples :
    decodeWord 0x0013 = .ok (.add 19 0) ∧ decodeWord 0x9803 = .ok (.pfx 3) ∧ decodeWord 0x48C7 = .ok (.bgen 7 6) ∧
      decodeWord 0xB86B = .ok (.ldp 2 3 11) ∧ decodeWord 0xE069 = .ok (.lds 3 9) ∧
      decodeWord 0x7EE2 = .ok (.skps 2) ∧ decodeWord 0x7817 = .ok (.save 23) ∧ decodeWord 0x7FDF = .ok .ret ∧
      decodeWord 0x56AB = .ok (.skp1 11 21) ∧ decodeWord 0x7DA0 = .ok .restore := by
  decide

/-- The unassigned words of 96_derived_vectors.md Z17 to Z29, each with its reason. -/
theorem test_decode_refuses :
    decodeWord 0x7000 = .error .majorOpcode ∧ decodeWord 0x73FF = .error .majorOpcode ∧
      decodeWord 0x9000 = .error .majorOpcodeFive ∧ decodeWord 0x7501 = .error .minorOpcodeU ∧
      decodeWord 0x74A1 = .error .ri1uBitFive ∧ decodeWord 0x7A00 = .error .minorOpcodeV ∧
      decodeWord 0x7945 = .error .i6vBitsSevenSix ∧ decodeWord 0x7CE1 = .error .minorOpcodeW ∧
      decodeWord 0x7DA1 = .error .restoreOperand ∧ decodeWord 0x7EEE = .error .skpsCondition ∧
      decodeWord 0x7EEF = .error .skpsCondition ∧ decodeWord 0x7EF0 = .error .skpsBitFour ∧
      decodeWord 0x6401 = .error .i9BitZero := by
  decide

/-- A word lies little-endian in memory, and the bytes after it are left (R73). -/
theorem test_decode_bytes :
    decode [0x47, 0x3D, 0xFF] = .ok (.andn 7 10, [0xFF]) ∧ decode [0x47] = .error .truncated ∧
      decodeTableWord 16 0x3D47 = some (.andn 7 10) := by
  decide

/-! ### One step of each instruction -/

/-- The start state of the vectors, STATUS 0x7EA0 (CWP 10, IE 0, IPRI 63, flags 0), with some visible registers set. -/
def start (regs : List (RegIdx × Word)) : State :=
  regs.foldl (fun s e => s.setReg e.1 e.2) { State.reset with status := 0x7EA0 }

/-- The start state after a PFX with `k`. -/
def prefixed (k : BitVec 11) (regs : List (RegIdx × Word)) : State := { start regs with k := k, pfxf := true }

/-- The words at 0x2000 and 0x2004 of the load and store vectors. -/
def words : Memory :=
  [(0x2001, 1), (0x2002, 2), (0x2003, 3), (0x2004, 4), (0x2005, 5), (0x2006, 6), (0x2007, 7)]

/-- The start state with those words in memory. -/
def stocked (regs : List (RegIdx × Word)) : State := { start regs with mem := words }

/-- What is seen of the next state, none when there is none. -/
def view {α : Type} (o : Host.Outcome State Fault Refusal) (f : State → α) : Option α :=
  match o with
  | .next t => some (f t)
  | .fault _ => none
  | .refused _ => none


/-- Vector A3. -/
theorem test_add_overflow_and_carry :
    view (exec (.add 1 2) (start [(1, 0x80000000), (2, 0x80000000)]))
      (fun t => (t.reg 1, t.status)) = some (0, 0x7EA7) := by
  decide

/-- Vector A4. -/
theorem test_add_to_itself :
    view (exec (.add 1 1) (start [(1, 0x40000000)])) (fun t => (t.reg 1, t.status)) = some (0x80000000, 0x7EAC) := by
  decide

/-- Vector A7. -/
theorem test_addi_largest :
    view (exec (.addi 3 31) (prefixed 0x7FF [(3, 1)])) (fun t => (t.reg 3, t.status)) = some (0x00010000, 0x7EA0) := by
  decide

/-- Vector A11. -/
theorem test_sub_borrow :
    view (exec (.sub 1 2) (start [(1, 0x7FFFFFFF), (2, 0xFFFFFFFF)]))
      (fun t => (t.reg 1, t.status)) = some (0x80000000, 0x7EAD) := by
  decide

/-- Vector A13. -/
theorem test_subi_prefixed :
    view (exec (.subi 21 31) (prefixed 0x7FF [(21, 0x00010000)]))
      (fun t => (t.reg 21, t.status)) = some (1, 0x7EA0) := by
  decide

/-- Vector A16. -/
theorem test_cmp_overflow :
    view (exec (.cmp 0 1) (start [(0, 0x80000000), (1, 0x7FFFFFFF)]))
      (fun t => (t.reg 0, t.status)) = some (0x80000000, 0x7EA4) := by
  decide

/-- Vector A17. -/
theorem test_cmpi_below :
    view (exec (.cmpi 27 24) (start [(27, 0x17)])) (fun t => (t.reg 27, t.status)) = some (0x17, 0x7EA9) := by
  decide

/-- Vector A19. -/
theorem test_neg_keeps_flags :
    view (exec (.neg 12) { start [(12, 1)] with status := 0x7EA2 })
      (fun t => (t.reg 12, t.status)) = some (0xFFFFFFFF, 0x7EA2) := by
  decide

/-- Vector A24. -/
theorem test_abs_most_negative :
    view (exec (.abs 6) (start [(6, 0x80000000)])) (fun t => (t.reg 6, t.status)) = some (0x80000000, 0x7EA0) := by
  decide

/-- Vector A26. -/
theorem test_mul_unsigned :
    view (exec (.mul 29) (start [(0, 0x0000FFFF), (29, 0x0000FFFF)]))
      (fun t => (t.reg 0, t.status)) = some (0xFFFE0001, 0x7EA0) := by
  decide

/-- Vector A30. -/
theorem test_mstep_of_itself :
    view (exec (.mstep 0) (start [(0, 0xC0000000)])) (fun t => (t.reg 0, t.status)) = some (0x40000000, 0x7EA0) := by
  decide

/-- Vector L1. -/
theorem test_and_keeps_v_and_c :
    view (exec (.and 0 1) { start [(0, 0xF0F0F0F0), (1, 0xFF00FF00)] with status := 0x7EA5 })
      (fun t => (t.reg 0, t.status)) = some (0xF000F000, 0x7EAD) := by
  decide

/-- Vector L3. -/
theorem test_and_prefixed_by_zero :
    view (exec (.and 0 1) (prefixed 0 [(0, 0xFFFFFFFF)])) (fun t => (t.reg 0, t.status)) = some (1, 0x7EA0) := by
  decide

/-- Vector L5. -/
theorem test_andn_prefixed :
    view (exec (.andn 0 31) (prefixed 0x7FF [(0, 0xFFFFFFFF)]))
      (fun t => (t.reg 0, t.status)) = some (0xFFFF0000, 0x7EA8) := by
  decide

/-- Vector L6. -/
theorem test_or_of_nothing : view (exec (.or 24 25) (start [])) (fun t => (t.reg 24, t.status)) = some (0, 0x7EA2) := by
  decide

/-- Vector L8. -/
theorem test_xor_with_itself :
    view (exec (.xor 0 0) (start [(0, 0x12345678)])) (fun t => (t.reg 0, t.status)) = some (0, 0x7EA2) := by
  decide

/-- Vector L11. -/
theorem test_not_keeps_flags :
    view (exec (.not 12) { start [(12, 0x00FF00FF)] with status := 0x7EA2 })
      (fun t => (t.reg 12, t.status)) = some (0xFF00FF00, 0x7EA2) := by
  decide

/-- Vector L14. -/
theorem test_lsl_count_is_five_bits :
    view (exec (.lsl 19 0) (start [(19, 0x12345678), (0, 0x20)]))
      (fun t => (t.reg 19, t.status)) = some (0x12345678, 0x7EA0) := by
  decide

/-- Vector L16. -/
theorem test_lsli_ignores_k :
    view (exec (.lsli 25 6) (prefixed 1 [(25, 0xFFFFFFFF)]))
      (fun t => (t.reg 25, t.status)) = some (0xFFFFFFC0, 0x7EA0) := by
  decide

/-- Vector L17. -/
theorem test_lsr_by_31 :
    view (exec (.lsr 19 0) (start [(19, 0x80000000), (0, 0x1F)]))
      (fun t => (t.reg 19, t.status)) = some (1, 0x7EA0) := by
  decide

/-- Vector L19. -/
theorem test_lsri_by_0 :
    view (exec (.lsri 1 0) (start [(1, 0xFFFFFFFF)])) (fun t => (t.reg 1, t.status)) = some (0xFFFFFFFF, 0x7EA0) := by
  decide

/-- Vector L20. -/
theorem test_asr_by_31 :
    view (exec (.asr 19 0) (start [(19, 0x80000000), (0, 0x1F)]))
      (fun t => (t.reg 19, t.status)) = some (0xFFFFFFFF, 0x7EA0) := by
  decide

/-- Vector L22. -/
theorem test_asri_of_negative :
    view (exec (.asri 29 6) (start [(29, 0x80000040)]))
      (fun t => (t.reg 29, t.status)) = some (0xFE000001, 0x7EA0) := by
  decide

/-- Vector L25. -/
theorem test_rlc_takes_old_carry :
    view (exec (.rlc 28) { start [(28, 1)] with status := 0x7EA9 })
      (fun t => (t.reg 28, t.status)) = some (3, 0x7EA8) := by
  decide

/-- Vector L27. -/
theorem test_rrc_takes_old_carry :
    view (exec (.rrc 28) { start [(28, 2)] with status := 0x7EA1 })
      (fun t => (t.reg 28, t.status)) = some (0x80000001, 0x7EA0) := by
  decide

/-- Vector L31. -/
theorem test_bgen_31 :
    view (exec (.bgen 7 31) (start [])) (fun t => (t.reg 7, t.status)) = some (0x80000000, 0x7EA0) := by
  decide

/-- Vector M1. -/
theorem test_pfx : view (exec (.pfx 0x7FF) (start [])) (fun t => (t.k, t.pfxf, t.pc)) = some (0x7FF, true, 0x102) := by
  decide

/-- Vector M2. -/
theorem test_nop_clears_k :
    view (exec .nop (prefixed 0x7FF [])) (fun t => (t.k, t.pfxf, t.pc)) = some (0, false, 0x102) := by
  decide

/-- Vector M4. -/
theorem test_movi_prefixed :
    view (exec (.movi 11 31) (prefixed 0x7FF [])) (fun t => (t.reg 11, t.status)) = some (0x0000FFFF, 0x7EA0) := by
  decide

/-- Vector M5. -/
theorem test_movhi_prefixed :
    view (exec (.movhi 3 31) (prefixed 0x7FF [(3, 0x12345678)]))
      (fun t => (t.reg 3, t.status)) = some (0xFFFF5678, 0x7EA0) := by
  decide

/-- Vector S8.21. -/
theorem test_mov :
    view (exec (.mov 8 19) (start [(19, 0x2000)])) (fun t => (t.reg 8, t.status)) = some (0x2000, 0x7EA0) := by
  decide

/-- Vector M12. -/
theorem test_ext8d_lane_of_itself :
    view (exec (.ext8d 4 4) (start [(4, 0xA1B2C3D4)])) (fun t => (t.reg 4, t.status)) = some (0xD4, 0x7EA0) := by
  decide

/-- Vector M16. -/
theorem test_ext8s_lane_3 :
    view (exec (.ext8s 6 3) (start [(6, 0xA1B2C3D4)])) (fun t => (t.reg 6, t.status)) = some (0xA1, 0x7EA0) := by
  decide

/-- Vector M20. -/
theorem test_ext16d_ignores_bit_0 :
    view (exec (.ext16d 27 28) (start [(27, 0xA1B2C3D4), (28, 0x1003)]))
      (fun t => (t.reg 27, t.status)) = some (0xA1B2, 0x7EA0) := by
  decide

/-- Vector S8.14. -/
theorem test_ext16s_high :
    view (exec (.ext16s 19 1) (start [(19, 0xA1B2C3D4)])) (fun t => (t.reg 19, t.status)) = some (0xA1B2, 0x7EA0) := by
  decide

/-- Vector M23. -/
theorem test_sext8_negative :
    view (exec (.sext8 11) (start [(11, 0x80)])) (fun t => (t.reg 11, t.status)) = some (0xFFFFFF80, 0x7EA0) := by
  decide

/-- Vector S8.20. -/
theorem test_sext16_negative :
    view (exec (.sext16 3) (start [(3, 0x18000)])) (fun t => (t.reg 3, t.status)) = some (0xFFFF8000, 0x7EA0) := by
  decide

/-- Vector S2.1. -/
theorem test_fill8 :
    view (exec (.fill8 3) (start [(3, 0x54)])) (fun t => (t.reg 0, t.status)) = some (0x54545454, 0x7EA0) := by
  decide

/-- Vector S8.17. -/
theorem test_fill16 :
    view (exec (.fill16 27) (start [(27, 0x1234ABCD)])) (fun t => (t.reg 0, t.status)) = some (0xABCDABCD, 0x7EA0) := by
  decide

/-- Vector M28. -/
theorem test_swap :
    view (exec (.swap 0) { start [(0, 0x12345678)] with status := 0x7EA2 })
      (fun t => (t.reg 0, t.status)) = some (0x56781234, 0x7EA2) := by
  decide

/-- Vector T1. -/
theorem test_ld_drops_low_bits :
    view (exec (.ld 0 27) (stocked [(27, 0x2003)])) (fun t => (t.reg 0, t.status)) = some (0x03020100, 0x7EA0) := by
  decide

/-- Vector T4. -/
theorem test_ld_of_its_own_address :
    view (exec (.ld 27 27) (stocked [(27, 0x2004)])) (fun t => (t.reg 27, t.status)) = some (0x07060504, 0x7EA0) := by
  decide

/-- Vector T7. -/
theorem test_ldp_unprefixed_is_unsigned :
    view (exec (.ldp 3 31 0) (stocked [(19, 0x1F88)])) (fun t => (t.reg 0, t.status)) = some (0x07060504, 0x7EA0) := by
  decide

/-- Vector T6. -/
theorem test_ldp_prefixed_is_signed :
    view (exec (.ldp 3 31 0) { prefixed 0x7FF [(19, 0x2008)] with mem := words })
      (fun t => (t.reg 0, t.status)) = some (0x07060504, 0x7EA0) := by
  decide

/-- Vector T10. -/
theorem test_lds_ignores_k :
    view (exec (.lds 1 0) { prefixed 1 [(14, 0x2002)] with mem := words })
      (fun t => (t.reg 0, t.status)) = some (0x07060504, 0x7EA0) := by
  decide

/-- Vector T11. -/
theorem test_st_drops_low_bits :
    view (exec (.st 0 27) (stocked [(27, 0x2006), (0, 0xCAFEF00D)])) (fun t => t.wordAt 0x2004) = some 0xCAFEF00D := by
  decide

/-- Vector T14. -/
theorem test_stp_prefixed :
    view (exec (.stp 2 30 11) (prefixed 0x7FF [(18, 0x2008), (11, 0xCAFEF00D)]))
      (fun t => t.wordAt 0x2000) = some 0xCAFEF00D := by
  decide

/-- Vector T15. -/
theorem test_sts :
    view (exec (.sts 2 9) (stocked [(14, 0x2000), (9, 0xCAFEF00D)])) (fun t => t.wordAt 0x2008) = some 0xCAFEF00D := by
  decide

/-- Vector T18. -/
theorem test_st8d_lane_2 :
    view (exec (.st8d 12) (stocked [(12, 0x2006), (0, 0xD3D2D1D0)])) (fun t => t.wordAt 0x2004) = some 0x07D20504 := by
  decide

/-- Vector T20. -/
theorem test_st8d_k_keeps_the_lane :
    view (exec (.st8d 12) { prefixed 1 [(12, 0x2001), (0, 0xD3D2D1D0)] with mem := words })
      (fun t => t.wordAt 0x2004) = some 0x0706D104 := by
  decide

/-- Vector T21. -/
theorem test_st8s_lane_3 :
    view (exec (.st8s 12 3) (stocked [(12, 0x2005), (0, 0xD3D2D1D0)]))
      (fun t => t.wordAt 0x2004) = some 0xD3060504 := by
  decide

/-- Vector T23. -/
theorem test_st16d_ignores_bit_0 :
    view (exec (.st16d 12) (stocked [(12, 0x2007), (0, 0xD3D2D1D0)])) (fun t => t.wordAt 0x2004) = some 0xD3D20504 := by
  decide

/-- Vector T24. -/
theorem test_st16s_high :
    view (exec (.st16s 12 1) (stocked [(12, 0x2004), (0, 0xD3D2D1D0)]))
      (fun t => t.wordAt 0x2004) = some 0xD3D20504 := by
  decide

/-- Vector T25. -/
theorem test_sts8s_lane_1 :
    view (exec (.sts8s 5) (stocked [(14, 0x2000), (0, 0xD3D2D1D0)])) (fun t => t.wordAt 0x2004) = some 0x0706D104 := by
  decide

/-- Vector T26. -/
theorem test_sts16s_lane_1 :
    view (exec (.sts16s 3) (stocked [(14, 0x2000), (0, 0xD3D2D1D0)])) (fun t => t.wordAt 0x2004) = some 0xD3D20504 := by
  decide

/-- Vector B7. -/
theorem test_br_farthest_back :
    view (exec (.br 0x400) { start [] with pc := 0x900 }) (fun t => (t.pc, t.bt)) = some (0x902, some 0x102) := by
  decide

/-- Vector B3. -/
theorem test_br_to_itself : view (exec (.br 0x7FF) (start [])) (fun t => (t.pc, t.bt)) = some (0x102, some 0x100) := by
  decide

/-- Vector B8. -/
theorem test_bsr_links :
    view (exec (.bsr 0x7F) { start [] with pc := 0x200 })
      (fun t => (t.reg 15, t.bt, t.pc)) = some (0x102, some 0x300, 0x202) := by
  decide

/-- Vector B10. -/
theorem test_jmp_bit_31 :
    view (exec (.jmp 1) (start [(1, 0x80000000)])) (fun t => (t.pc, t.bt)) = some (0x102, some 0x100000000) := by
  decide

/-- Vector B13. -/
theorem test_call_reads_the_old_link :
    view (exec (.call 15) (start [(15, 0x200)])) (fun t => (t.reg 15, t.bt)) = some (0x82, some 0x400) := by
  decide

/-- Vector S8.26. -/
theorem test_lret : view (exec .lret (start [(15, 0x102)])) (fun t => t.bt) = some (some 0x204) := by
  decide

/-- Vector S6.2. -/
theorem test_ret : view (exec .ret (start [(31, 0x102)])) (fun t => t.bt) = some (some 0x204) := by
  decide

/-- The start state with the half-word `h` as the instruction after the one at the pc. -/
def before (h : Half) (s : State) : State :=
  { s with mem := (s.mem.write 0x102 (h.extractLsb' 0 8)).write 0x103 (h.extractLsb' 8 8) }

/-- Vector B15. -/
theorem test_skp0_over_a_prefix_pair :
    view (exec (.skp0 1 0) (before 0x9801 (start []))) (fun t => (t.pc, t.k)) = some (0x106, 0) := by
  decide

/-- Vector B19. -/
theorem test_skp0_not_taken : view (exec (.skp0 1 31) (start [(1, 0x80000000)])) (fun t => t.pc) = some 0x102 := by
  decide

/-- Vector B18. -/
theorem test_skp1_bit_31 :
    view (exec (.skp1 1 31) (before 0x3000 (start [(1, 0x80000000)]))) (fun t => t.pc) = some 0x104 := by
  decide

/-- Vector S5.6. -/
theorem test_skprz : view (exec (.skprz 11) (before 0x881E (start []))) (fun t => t.pc) = some 0x104 := by
  decide

/-- Vector S5.8. -/
theorem test_skprnz : view (exec (.skprnz 3) (before 0x881E (start [(3, 9)]))) (fun t => t.pc) = some 0x104 := by
  decide

/-- Vector S5.10: IFS cc_ne with Z = 1 skips. -/
theorem test_skps_skips_when_false :
    view (exec (.skps 2) { before 0x881E (start []) with status := 0x7EA2 }) (fun t => t.pc) = some 0x104 := by
  decide

/-- Vector S5.9: IFS cc_ne with Z = 0 does not skip. -/
theorem test_ifs_runs_when_true : view (exec (.ifs 2) (start [])) (fun t => t.pc) = some 0x102 := by
  decide

/-- Vector S5.12. -/
theorem test_if0_runs_when_clear : view (exec (.if0 11 21) (start [])) (fun t => t.pc) = some 0x102 := by
  decide

/-- Vector S5.1 by its partner IF1. -/
theorem test_if1_runs_when_set : view (exec (.if1 11 7) (start [(11, 0x80)])) (fun t => t.pc) = some 0x102 := by
  decide

/-- Vector S5.5 by its partner IFRnz. -/
theorem test_ifrnz_runs_when_not_zero : view (exec (.ifrnz 11) (start [(11, 1)])) (fun t => t.pc) = some 0x102 := by
  decide

/-- Vector S5.7 by its partner IFRz. -/
theorem test_ifrz_runs_when_zero : view (exec (.ifrz 3) (start [])) (fun t => t.pc) = some 0x102 := by
  decide

/-- A vector table as in section 1.6 of the derived vectors: entries 1, 2, 5 and 63 hold `0x400 + 0x10 n`. -/
def vectors : Memory :=
  [(4, 0x10), (5, 4), (8, 0x20), (9, 4), (0x14, 0x50), (0x15, 4), (0xFC, 0xF0), (0xFD, 7)]

/-- The start state with that table and another STATUS. -/
def served (status : Half) : State :=
  { start [] with mem := vectors, status := status, tableWritten := BitVec.allOnes tableSize }

/-- Vector X1. -/
theorem test_save_underflow : view (exec (.save 4) ((served 0xFE15).setReg 14 0x2000))
    (fun t => (t.status, t.istatus, t.phys 14, t.phys 15, t.pc)) = some (0x0205, 0xFE05, 0x1FF0, 0x81, 0x820) := by
  decide

/-- Vector X3. -/
theorem test_save_underflow_dropped_at_ipri_1 :
    view (exec (.save 4) (served 0x8210)) (fun t => (t.status, t.pc)) = some (0x8200, 0x102) := by
  decide

/-- Vector X6. -/
theorem test_restore_overflow :
    view (exec .restore (served 0xFEE0)) (fun t => (t.status, t.istatus, t.phys 239, t.pc)) =
    some (0x04E0, 0xFEF0, 0x81, 0x840) := by
  decide

/-- Vector X10. -/
theorem test_restore_overflow_in_a_slot :
    view (exec .restore { served 0xFEE0 with bt := some 0x302 }) (fun t => (t.phys 239, t.bt, t.pc)) =
    some (0x181, none, 0x840) := by
  decide

/-- Vector X11. -/
theorem test_trap : view (exec (.trap 5) (served 0x7EAA)) (fun t => (t.status, t.istatus, t.phys 159, t.pc)) =
    some (0x0A9A, 0x7EAA, 0x81, 0x8A0) := by
  decide

/-- Vector X12. -/
theorem test_trap_63 : view (exec (.trap 63) (served 0x80A0)) (fun t => (t.status, t.pc)) = some (0x7E90, 0xFE0) := by
  decide

/-- Vector X13. -/
theorem test_tret : view (exec (.tret 15) { (served 0x0A90).setReg 15 0x91A with istatus := 0x9CA6 })
    (fun t => (t.status, t.istatus, t.pc)) = some (0x9CA6, 0x9CA6, 0x1234) := by
  decide

/-- Vector X15. -/
theorem test_rdctl_status :
    view (exec (.rdctl 1) { start [] with status := 0xA8A9 }) (fun t => t.reg 1) = some 0xA8A9 := by
  decide

/-- Vector X16. -/
theorem test_rdctl_istatus :
    view (exec (.rdctl 1) { prefixed 1 [] with istatus := 0xBEEF }) (fun t => t.reg 1) = some 0xBEEF := by
  decide

/-- Vector X18. -/
theorem test_wrctl_status :
    view (exec (.wrctl 1) (start [(1, 0xFFFF8AA5)])) (fun t => (t.status, t.nopReq)) = some (0x8AA5, true) := by
  decide

/-- Vector X20. -/
theorem test_wrctl_wvalid :
    view (exec (.wrctl 1) (prefixed 2 [(1, 0xFFFFFFFF)])) (fun t => (t.wvalid, t.nopReq)) = some (0x03FF, false) := by
  decide

/-- The operators of R127 on 0x1234 (vector S3.3), 1000 (S10) and 0x12345678 (M6), and the branch of S9. -/
theorem test_assembler_operators :
    (asmHi 0x1234, asmLo 0x1234, asmHi 1000, asmLo 1000, asmXhi 0x12345678, asmXlo 0x12345678,
      branchImmediate 0x120 0x102) = (0x91, 0x14, 31, 8, 0x91, 0x14, 0xE) := by
  decide

/-- Examples of S10, with the registers by number, and the two names of the word 0x7EE2. -/
theorem test_assembler_text :
    (instrText false 0 (.ldp 2 3 11), instrText false 0 (.save 23), instrText true 0 (.and 0 31),
      instrText false 0x102 (.br 0xE), instrText false 0 (.skps 2), instrText false 0 (.ifs 2)) =
    ("LDP %r11,[%L2,3]", "SAVE %sp,-23", "AND %r0,31", "BR 288", "SKPS cc_z", "IFS cc_nz") := by
  decide


/-! ### The step, reset and the stops -/

/-- Vector X23, the worked example of R297. -/
theorem test_interrupt : view (step { served 0x9CA6 with pc := 0x1234, irqInputs := [some 5] })
    (fun t => (t.status, t.istatus, t.phys 159, t.pc)) = some (0x0A96, 0x9CA6, 0x91A, 0x8A0) := by
  decide

/-- Vector X24. -/
theorem test_interrupt_not_below_ipri : view (step { served 0x8AA0 with mem := [(0x101, 0x30)], irqInputs := [some 5] })
    (fun t => (t.status, t.pc, t.irqInputs)) = some (0x8AA0, 0x102, []) := by
  decide

/-- Vector B2. -/
theorem test_delay_slot_ends_at_the_target :
    view (step ({ start [] with bt := some 0x120 }.withFetchWord 16 0x3000))
      (fun t => (t.pc, t.bt)) = some (0x120, none) := by
  decide

/-- The word of ADDI %r3,31, placed at reset. -/
theorem test_placed_word_runs_first :
    view (step (State.reset.withFetchWord 16 0x07E3)) (fun t => (t.reg 3, t.pc)) = some (31, 0x102) := by
  decide

/-- R302: TRAP works from the first instruction where its vector entry is initialised. -/
theorem test_trap_first_through_a_written_entry :
    view (step ((served 0x7EE0).withFetchWord 16 0x793F)) (fun t => (t.status, t.reg 15, t.pc)) =
    some (0x7ED0, 0x81, 0xFE0) := by
  decide

/-- A store to a vector entry initialises it, byte by byte (R282). -/
theorem test_store_fills_the_table :
    view (exec (.st 1 2) (start [(1, 5), (2, 0x24)])) (fun t => [0x23, 0x24, 0x27, 0x28].map t.tableByte) =
    some [false, true, true, false] := by
  decide

/-- D11: a byte that the environment writes before a step is what the step's load reads. -/
theorem test_environment_write_is_loaded :
    view (step ({ start [(1, 0x2000)] with busWrites := [[], [⟨0x2000, 3⟩]] }.withFetchWord 16 0x5822))
      (fun t => (t.reg 2, t.busWrites)) = some (0, [[⟨0x2000, 3⟩]]) ∧
    view (step { (start [(1, 0x2000)]).withFetchWord 16 0x5822 with busWrites := [[⟨0x2000, 3⟩]] })
      (fun t => (t.reg 2, t.busWrites)) = some (3, []) := by
  decide

/-- Vector S7.1 to S7.3: STATUS and WVALID after reset with 128, 256 and 512 registers. -/
theorem test_reset_status_and_wvalid : (resetStatus .regs128, resetWvalid .regs128) = (0x7E60, 0x00C1) ∧
    (resetStatus .regs256, resetWvalid .regs256) = (0x7EE0, 0x01C1) ∧
    (resetStatus .regs512, resetWvalid .regs512) = (0x7FE0, 0x03C1) := by
  decide

/-- The parameters at reset are ones that R4 and D1 to D3 allow. -/
theorem test_platform_is_legal : platform.legal = true := by
  decide

/-- Why there is no next state, none when there is one. -/
def stopOf (o : Host.Outcome State Fault Refusal) : Option Refusal :=
  match o with
  | .next _ => none
  | .refused r => some r

/-- Vector Z1. -/
theorem test_stop_pfx_after_pfx : stopOf (exec (.pfx 2) (prefixed 1 [])) = some .consecutivePfx := by
  decide

/-- Vector Z2. -/
theorem test_stop_br_in_a_slot :
    stopOf (exec (.br 30) { start [] with bt := some 0x120 }) = some .forbiddenInDelaySlot := by
  decide

/-- Vector Z9. -/
theorem test_stop_mov_after_wrctl :
    stopOf (exec (.mov 1 1) { start [] with nopReq := true }) = some .nopRequired := by
  decide

/-- Vector Z12. -/
theorem test_stop_control_register_2047 :
    stopOf (exec (.wrctl 1) (prefixed 0x7FF [])) = some (.undefinedControlRegister 0x7FF) := by
  decide

/-- Vector Z13. -/
theorem test_stop_save_at_window_0 :
    stopOf (exec (.save 4) { start [] with status := 0x7E00 }) = some .windowPointerRange := by
  decide

/-- Vector Z14. -/
theorem test_stop_trap_at_window_0 : stopOf (exec (.trap 5) (served 0x7E00)) = some .windowPointerRange := by
  decide

/-- Vector Z15. -/
theorem test_stop_register_of_window_15 :
    stopOf (exec (.mov 8 1) { start [] with status := 0x7EF0 }) = some .unmappedWindow := by
  decide

/-- Vector Z16. -/
theorem test_stop_restore_at_window_31 :
    stopOf (exec .restore { start [] with status := 0x7FF0 }) = some .windowPointerRange := by
  decide

/-- Vector Z19. -/
theorem test_stop_unassigned_word :
    stopOf (step (State.reset.withFetchWord 16 0x9000)) = some (.unassignedEncoding .majorOpcodeFive) := by
  decide

/-- Vector Z30. -/
theorem test_stop_pc_past_the_end :
    stopOf (exec .nop { start [] with pc := 0x1FFFFFFFE }) = some .leavesAddressSpace := by
  decide

/-- Vector Z31. -/
theorem test_stop_branch_below_0 :
    stopOf (exec (.br 0x400) { start [] with pc := 0x10 }) = some .leavesAddressSpace := by
  decide

/-- A machine whose memory map is `regions`. -/
def mapped (regions : List Region) (s : State) : State := { s with cfg := { platform with regions := regions } }

/-- Vector Z32. -/
theorem test_stop_load_outside_memory :
    stopOf (exec (.ld 2 1) (mapped [⟨0, 0x5000, .ram⟩] (start [(1, 0x5000)])))
      = some (.unmappedAddress 0x5000) := by
  decide

/-- Vector Z34. -/
theorem test_stop_vector_outside_memory :
    stopOf (exec (.trap 9) (mapped [⟨0x100, 0x1000, .ram⟩] (start []))) = some (.unmappedAddress 0x24) := by
  decide

/-- U14. -/
theorem test_stop_store_to_rom :
    stopOf (exec (.st 0 1) (mapped [⟨0, 0x5000, .rom⟩] (start [(1, 0x4FFF)])))
      = some (.storeToReadOnly 0x4FFC) := by
  decide

/-- U14: the vector table of the start state was never written. -/
theorem test_stop_vector_never_written :
    stopOf (exec (.trap 9) (start [])) = some (.vectorNeverWritten 0x24) ∧
      stopOf (exec (.trap 9) { start [] with tableWritten := ~~~BitVec.twoPow tableSize 0x26 }) =
        some (.vectorNeverWritten 0x26) ∧
      stopOf (exec (.trap 9) (mapped [⟨0, 0x1000, .rom⟩] (start []))) = none := by
  decide

/-- D13. -/
theorem test_stop_fetch_after_store :
    stopOf (step { start [] with recentStores := [⟨0xFE, 4, 1⟩] })
      = some (.fetchTooSoonAfterStore 0x100) := by
  decide


/-! ### The hypotheses of the statements can be met: a state and operands for each clause, at the ends of its range -/

/-- The start state at the last pc that has a next one. -/
def atEdge : State := { start [(1, 0x80000000)] with pc := 0x1FFFFFFFC }

/-- The start state in a delay slot at the very last code address. -/
def inSlot : State := { start [] with pc := 0x1FFFFFFFE, bt := some 0x300 }

/-- The start state right after a WRCTL to STATUS. -/
def owing : State := { start [] with nopReq := true }

/-- The start state in window `n`, every window exception masked. -/
def inWindow (n : BitVec 5) : State := { (start []).setCwp n with tableWritten := BitVec.allOnes tableSize }

/-- The start state with IE 1, IPRI `p`, in window `n`, and the vector table. -/
def enabled (p : BitVec 6) (n : BitVec 5) : State := served (packStatus true p n ⟨false, false, false, false⟩)

theorem test_meets_DecodeOfEncodeIsCanonical :
    (Instr.skps 13).wellFormed = true ∧ (Instr.ifs 0).wellFormed = true ∧ (Instr.lds 255 31).wellFormed = true := by
  decide

theorem test_meets_EncodeOfDecodeIsTheWord :
    decodeWord 0x0000 = .ok (.add 0 0) ∧ decodeWord 0xFFFF = .ok (.lds 255 31) := by
  decide

/-- A state whose fetch of ADD %g1,%g2 at the pc goes through, with a request the machine ignores. -/
def fetching (pc : CodeAddr) : State :=
  { placeWord { start [] with pc := pc } 0x0041 with irqInputs := [some 0] }

/-- At the first code address. -/
def first : State := fetching 0

/-- At the last code address. -/
def last : State := fetching 0x1FFFFFFFE

theorem test_meets_StepRunsTheDecodedInstruction :
    interruptNow first = none ∧
      first.sampled.Present first.sampled.pc.toNat 2 ∧
      first.sampled.Readable first.sampled.pc.toNat 2 ∧
      first.sampled.isFresh first.sampled.pc.toNat = false ∧
      first.sampled.isFresh (first.sampled.pc.toNat + 1) = false ∧
      decode [first.sampled.busByte first.sampled.pc.toNat, first.sampled.busByte (first.sampled.pc.toNat + 1)] =
        .ok (.add 1 2, []) ∧
      (Instr.add 1 2).wellFormed = true ∧
      (Instr.add 1 2).fromGeneralKnowledge = false := by
  unfold State.Readable State.Present
  decide

theorem test_meets_StepRunsTheDecodedInstruction_at_the_end :
    interruptNow last = none ∧
      last.sampled.Present last.sampled.pc.toNat 2 ∧
      last.sampled.Readable last.sampled.pc.toNat 2 ∧
      last.sampled.isFresh last.sampled.pc.toNat = false ∧
      last.sampled.isFresh (last.sampled.pc.toNat + 1) = false ∧
      decode [last.sampled.busByte last.sampled.pc.toNat, last.sampled.busByte (last.sampled.pc.toNat + 1)] =
        .ok (.add 1 2, []) := by
  unfold State.Readable State.Present
  decide

/-- A machine whose pc stands at a peripheral's byte, the byte after it 0 in memory: whatever the peripheral presents, the
word is an ADD. -/
def onPeripheral : State := mapped [⟨0x100, 1, .device⟩, ⟨0x101, 0x1000, .ram⟩] (start [])

theorem add_of_low_byte : ∀ b : Byte, ∃ i, decode [b, 0] = .ok (i, []) ∧ i.wellFormed = true ∧
    i.fromGeneralKnowledge = false := fun b =>
  ⟨.add (b.extractLsb' 0 5) ((0 : Byte).extractLsb' 0 2 ++ b.extractLsb' 5 3), by revert b; decide⟩

theorem test_meets_StepRunsTheDecodedInstruction_on_a_peripheral :
    interruptNow onPeripheral = none ∧
      onPeripheral.sampled.Present 0x100 2 ∧
      ¬onPeripheral.sampled.Readable 0x100 2 ∧
      onPeripheral.sampled.isFresh 0x100 = false ∧
      onPeripheral.sampled.isFresh 0x101 = false ∧
      ∃ i, decode [onPeripheral.sampled.busByte 0x100, onPeripheral.sampled.busByte 0x101] = .ok (i, []) ∧
        i.wellFormed = true ∧ i.fromGeneralKnowledge = false :=
  ⟨rfl, by unfold State.Present; decide, by unfold State.Readable; decide, by decide, by decide,
    add_of_low_byte (Config.deviceByte 0 0x100)⟩

/-- A state that fetches `w`, with or without the general-knowledge encodings. -/
def fetchingWord (w : Half) (gk : Bool) : State :=
  placeWord { start [] with cfg := { platform with admitGk := gk } } w

theorem test_meets_StepRefusesUnassignedWords :
    interruptNow (fetchingWord 0x7000 true) = none ∧
      (fetchingWord 0x7000 true).sampled.Fetches (fetchingWord 0x7000 true).pc 0x7000 ∧
      decodeWord 0x7000 = .error .majorOpcode := by
  unfold State.Fetches State.Readable
  decide

theorem test_meets_StepRefusesUnassignedWords_gk :
    interruptNow (fetchingWord 0x7D00 false) = none ∧
      (fetchingWord 0x7D00 false).sampled.Fetches (fetchingWord 0x7D00 false).pc 0x7D00 ∧
      decodeWord 0x7D00 = .ok (.swap 0) ∧
      (Instr.swap 0).fromGeneralKnowledge = true ∧
      (fetchingWord 0x7D00 false).cfg.admitGk = false := by
  unfold State.Fetches State.Readable
  decide

/-- An enabled machine with a request for interrupt `n`. -/
def requested (n : BitVec 6) (s : State) : State := { s with irqInputs := [some n] }

theorem test_meets_AcceptedInterruptEntersHandler :
    (requested 62 (enabled 63 1)).irqInputs = some 62 :: [] ∧
      (requested 62 (enabled 63 1)).ie = true ∧
      (62 : BitVec 6).toNat < (requested 62 (enabled 63 1)).ipri.toNat ∧
      (requested 62 (enabled 63 1)).pfxf = false ∧
      (requested 62 (enabled 63 1)).bt = none ∧
      (requested 62 (enabled 63 1)).nopReq = false ∧
      (requested 62 (enabled 63 1)).cwp ≠ 0 ∧
      (requested 62 (enabled 63 1)).Mapped ((requested 62 (enabled 63 1)).cwp - 1) ∧
      (requested 62 (enabled 63 1)).sampled.VectorReadable 62 := by
  unfold State.Mapped State.VectorReadable State.Readable
  decide

theorem test_meets_AcceptedInterruptEntersHandler_from_window_15 :
    (requested 0 (enabled 1 15)).irqInputs = some 0 :: [] ∧
      (requested 0 (enabled 1 15)).ie = true ∧
      (0 : BitVec 6).toNat < (requested 0 (enabled 1 15)).ipri.toNat ∧
      (requested 0 (enabled 1 15)).pfxf = false ∧
      (requested 0 (enabled 1 15)).bt = none ∧
      (requested 0 (enabled 1 15)).nopReq = false ∧
      (requested 0 (enabled 1 15)).cwp ≠ 0 ∧
      (requested 0 (enabled 1 15)).Mapped ((requested 0 (enabled 1 15)).cwp - 1) ∧
      (requested 0 (enabled 1 15)).sampled.VectorReadable 0 := by
  unfold State.Mapped State.VectorReadable State.Readable
  decide

theorem test_meets_OtherInterruptsAreIgnored :
    (start []).irqInputs = [] ∧
      ({ start [] with irqInputs := [none] } : State).irqInputs = none :: [] ∧
      (requested 5 (start [])).irqInputs = some 5 :: [] ∧ (requested 5 (start [])).ie = false ∧
      (requested 5 (enabled 5 10)).ipri.toNat ≤ (5 : BitVec 6).toNat ∧
      (requested 5 (prefixed 1 [])).pfxf = true ∧
      (requested 5 inSlot).bt ≠ none ∧
      (requested 5 owing).nopReq = true := by
  decide

/-- A machine whose environment writes the first vector entry's first byte twice, the last byte of the bus, and a byte
that read-only memory does not take. -/
def sharing : State :=
  { mapped [⟨0, 0x5000, .ram⟩, ⟨0x5000, 0x1000, .rom⟩, ⟨0x6000, 2 ^ 33 - 0x6000, .ram⟩] (start []) with
    busWrites := [[⟨0, 1⟩, ⟨0x5000, 7⟩, ⟨0, 2⟩, ⟨0x1FFFFFFFF, 3⟩], []] }

theorem test_meets_EnvironmentWritesLand :
    sharing.busWrites.head? = some ([⟨0, 1⟩, ⟨0x5000, 7⟩] ++ ⟨0, 2⟩ :: [⟨0x1FFFFFFFF, 3⟩]) ∧
      (∀ v ∈ [(⟨0x1FFFFFFFF, 3⟩ : BusWrite)], v.addr ≠ 0) ∧
      sharing.kindAt 0 = some .ram ∧ sharing.kindAt 0x1FFFFFFFF = some .ram ∧
      0 < sharing.cfg.ifetchDistance ∧
      (∀ w ∈ [(⟨0, 1⟩ : BusWrite), ⟨0x5000, 7⟩, ⟨0, 2⟩, ⟨0x1FFFFFFFF, 3⟩], w.addr.toNat = 0x5000 →
        sharing.kindAt 0x5000 ≠ some .ram) ∧
      (start []).busWrites = [] := by
  decide

theorem test_meets_ResetSatisfiesInvariant :
    ({ platform with regFile := .regs128, resetPc := 0x1FFFFFFFE, vecBase := 0xFFFFFF00 } : Config).legal = true := by
  decide

theorem test_meets_EveryStepKeepsInvariant : ∃ s t : State, s.Inv ∧ step s = .next t :=
  ⟨fetching 0x100, _,
    ⟨by decide, by decide, nofun, by decide, fun _ => rfl, nofun, nofun, by decide⟩, rfl⟩


theorem test_meets_OnlyPfxLeavesK :
    (∃ t, exec (.add 1 2) (start []) = .next t) ∧
      (∃ t, exec (.pfx 5) (start []) = .next t) ∧
      (∃ t, interruptStep 5 (enabled 63 10) = .next t) :=
  ⟨⟨_, rfl⟩, ⟨_, rfl⟩, ⟨_, rfl⟩⟩

theorem test_meets_FlagsChangeByTheTable :
    (∃ t, exec (.mov 1 2) (start []) = .next t) ∧
      (∃ t, exec (.add 1 2) (start []) = .next t) ∧
      (∃ t, exec (.addi 1 2) (start []) = .next t) ∧
      (∃ t, exec (.sub 1 2) (start []) = .next t) ∧
      (∃ t, exec (.cmp 1 2) (start []) = .next t) ∧
      (∃ t, exec (.subi 1 2) (start []) = .next t) ∧
      (∃ t, exec (.cmpi 1 2) (start []) = .next t) ∧
      (∃ t, exec (.and 1 2) (start []) = .next t) ∧
      (∃ t, exec (.andn 1 2) (start []) = .next t) ∧
      (∃ t, exec (.or 1 2) (start []) = .next t) ∧
      (∃ t, exec (.xor 1 2) (prefixed 5 []) = .next t) ∧
      (∃ t, exec (.rlc 1) (start []) = .next t) ∧
      (∃ t, exec (.rrc 1) (start []) = .next t) ∧
      (∃ t, exec (.wrctl 1) (start []) = .next t) ∧
      (∃ t, exec (.wrctl 1) (prefixed 9 []) = .next t) ∧
      (∃ t, exec (.tret 1) (start []) = .next t) :=
  ⟨⟨_, rfl⟩, ⟨_, rfl⟩, ⟨_, rfl⟩, ⟨_, rfl⟩, ⟨_, rfl⟩, ⟨_, rfl⟩, ⟨_, rfl⟩, ⟨_, rfl⟩, ⟨_, rfl⟩, ⟨_, rfl⟩, ⟨_, rfl⟩,
    ⟨_, rfl⟩, ⟨_, rfl⟩, ⟨_, rfl⟩, ⟨_, rfl⟩, ⟨_, rfl⟩⟩

theorem test_meets_ControlRegistersHaveFiveWriters :
    (∃ t, exec (.mov 1 2) (start []) = .next t) ∧
      (∃ t, exec (.save 1) (start []) = .next t) ∧
      (∃ t, exec (.wrctl 1) (prefixed 1 []) = .next t) ∧
      (∃ t, exec (.wrctl 1) { prefixed 2 [] with cfg := { platform with wvalidWritable := false } } = .next t) ∧
      (∃ t, exec (.tret 1) (start []) = .next t) :=
  ⟨⟨_, rfl⟩, ⟨_, rfl⟩, ⟨_, rfl⟩, ⟨_, rfl⟩, ⟨_, rfl⟩⟩

theorem test_meets_OnlyStoresChangeMemory :
    (∃ t, exec (.ld 1 2) (start []) = .next t) ∧
      (∃ t, exec .restore (start []) = .next t) :=
  ⟨⟨_, rfl⟩, ⟨_, rfl⟩⟩

theorem test_meets_AddAndSubOfTwoOperands :
    (start []).Ready ∧
      atEdge.Ready ∧
      inSlot.Ready ∧
      (start []).reachable 0 = true ∧
      (start []).reachable 31 = true := by
  unfold State.Ready State.pcFits
  decide

theorem test_meets_MulAndMstepWriteR0 :
    (start []).Ready ∧
      atEdge.Ready ∧
      inSlot.Ready ∧
      (start []).reachable 0 = true ∧
      (start []).reachable 31 = true := by
  unfold State.Ready State.pcFits
  decide

theorem test_meets_ShiftsUseFiveBitCounts :
    (start []).Ready ∧
      atEdge.Ready ∧
      inSlot.Ready ∧
      (start []).reachable 0 = true ∧
      (start []).reachable 31 = true := by
  unfold State.Ready State.pcFits
  decide

theorem test_meets_RotatesThroughCarry :
    (start []).Ready ∧
      atEdge.Ready ∧
      inSlot.Ready ∧
      (start []).reachable 0 = true ∧
      (start []).reachable 31 = true := by
  unfold State.Ready State.pcFits
  decide

theorem test_meets_BgenMoviMovhiWriteConstants :
    (start []).Ready ∧
      atEdge.Ready ∧
      inSlot.Ready ∧
      (start []).reachable 0 = true ∧
      (start []).reachable 31 = true := by
  unfold State.Ready State.pcFits
  decide

theorem test_meets_ExtractsKeepOneLane :
    (start []).Ready ∧
      atEdge.Ready ∧
      inSlot.Ready ∧
      (start []).reachable 0 = true ∧
      (start []).reachable 31 = true := by
  unfold State.Ready State.pcFits
  decide

theorem test_meets_SignExtendsFillsAndSwap :
    (start []).Ready ∧
      atEdge.Ready ∧
      inSlot.Ready ∧
      (start []).reachable 0 = true ∧
      (start []).reachable 31 = true := by
  unfold State.Ready State.pcFits
  decide

theorem test_meets_AddAndSubOfTwoOperands_immediate :
    (prefixed 0x7FF []).Ready ∧
      (prefixed 0x7FF []).reachable 31 = true ∧
      (65535 : Word).toNat = 32 * (prefixed 0x7FF []).k.toNat + (31 : BitVec 5).toNat ∧
      (start []).Ready ∧
      (0 : Word).toNat = 32 * (start []).k.toNat + (0 : BitVec 5).toNat := by
  unfold State.Ready State.pcFits
  decide

theorem test_meets_ComparesSetFlagsOnly :
    (prefixed 0x7FF []).Ready ∧
      (prefixed 0x7FF []).reachable 31 = true ∧
      (prefixed 0x7FF []).reachable 0 = true ∧
      (65535 : Word).toNat = 32 * (prefixed 0x7FF []).k.toNat + (31 : BitVec 5).toNat ∧
      (start []).Ready ∧
      (0 : Word).toNat = 32 * (start []).k.toNat + (0 : BitVec 5).toNat := by
  unfold State.Ready State.pcFits
  decide

theorem test_meets_NegAbsNotReplaceARegister :
    atEdge.Ready ∧
      atEdge.reachable 1 = true ∧
      atEdge.reg 1 = 0x80000000#32 ∧
      atEdge.reachable 31 = true ∧
      atEdge.reg 31 ≠ 0x80000000#32 := by
  unfold State.Ready State.pcFits
  decide

theorem test_meets_LogicOfTwoOperands :
    (start []).Ready ∧
      atEdge.Ready ∧
      inSlot.Ready ∧
      (start []).reachable 0 = true ∧
      (start []).reachable 31 = true ∧
      (start []).pfxf = false ∧
      inSlot.pfxf = false := by
  unfold State.Ready State.pcFits
  decide

theorem test_meets_LogicOfTwoOperands_after_pfx :
    (prefixed 0 []).Ready ∧
      (prefixed 0 []).reachable 31 = true ∧
      (prefixed 0 []).pfxf = true ∧
      (0 : Word).toNat = 32 * (prefixed 0 []).k.toNat + (0 : BitVec 5).toNat ∧
      (prefixed 0x7FF []).Ready ∧
      (prefixed 0x7FF []).pfxf = true ∧
      (65535 : Word).toNat = 32 * (prefixed 0x7FF []).k.toNat + (31 : BitVec 5).toNat := by
  unfold State.Ready State.pcFits
  decide

theorem test_meets_MovCopiesAndNopIdles :
    (atEdge.bt = none → atEdge.pcFits 2) ∧
      atEdge.nopReq = false ∧
      atEdge.reachable 31 = true ∧
      atEdge.reachable 0 = true ∧
      (owing.bt = none → owing.pcFits 2) ∧
      owing.nopReq = true := by
  unfold State.pcFits
  decide

theorem test_meets_PfxLoadsK :
    atEdge.ReadyAlone ∧
      atEdge.pfxf = false ∧
      atEdge.pcFits 2 := by
  unfold State.ReadyAlone State.pcFits
  decide

theorem test_meets_EffectiveAddresses :
    (start []).pfxf = false ∧
      (prefixed 0x400 []).pfxf = true := by
  decide

/-- Base registers from which the last word below 2^32 is reached, by all three forms. -/
def topWord : State := start [(1, 0xFFFFFFFF), (16, 0xFFFFFF83), (14, 0xFFFFFC00)]

theorem test_meets_LoadsReadTheAlignedWord :
    topWord.Ready ∧
      topWord.reachable 31 = true ∧
      topWord.reachable 1 = true ∧
      topWord.Readable (wordAddr (eaRegister topWord 1)) 4 ∧
      wordAddr (eaRegister topWord 1) = 0xFFFFFFFC ∧
      topWord.reachable (ptrReg 0) = true ∧
      topWord.Readable (wordAddr (eaPointer topWord 0 31)) 4 ∧
      wordAddr (eaPointer topWord 0 31) = 0xFFFFFFFC ∧
      topWord.reachable 14 = true ∧
      topWord.Readable (wordAddr (eaStackWord topWord 255)) 4 ∧
      wordAddr (eaStackWord topWord 255) = 0xFFFFFFFC := by
  unfold State.Ready State.pcFits State.Readable
  decide

theorem test_meets_WordStoresWriteTheAlignedWord :
    topWord.Ready ∧
      topWord.reachable 31 = true ∧
      topWord.reachable 1 = true ∧
      topWord.Writable (wordAddr (eaRegister topWord 1)) 4 ∧
      wordAddr (eaRegister topWord 1) = 0xFFFFFFFC ∧
      topWord.reachable (ptrReg 0) = true ∧
      topWord.Writable (wordAddr (eaPointer topWord 0 31)) 4 ∧
      wordAddr (eaPointer topWord 0 31) = 0xFFFFFFFC ∧
      topWord.reachable 14 = true ∧
      topWord.Writable (wordAddr (eaStackWord topWord 255)) 4 ∧
      wordAddr (eaStackWord topWord 255) = 0xFFFFFFFC := by
  unfold State.Ready State.pcFits State.Writable
  decide

/-- A machine with a peripheral of one word at 0x8000, reached by all three forms. -/
def peripheral : State :=
  mapped [⟨0, 0x8000, .ram⟩, ⟨0x8000, 4, .device⟩] (start [(1, 0x8003), (16, 0x7F84), (14, 0x7C04)])

theorem test_meets_LoadsFromAPeripheralAreFree :
    peripheral.Ready ∧
      peripheral.reachable 31 = true ∧
      peripheral.OnDevice 0x8000 4 ∧
      peripheral.reachable 1 = true ∧
      wordAddr (eaRegister peripheral 1) = 0x8000 ∧
      peripheral.reachable (ptrReg 0) = true ∧
      wordAddr (eaPointer peripheral 0 31) = 0x8000 ∧
      peripheral.reachable 14 = true ∧
      wordAddr (eaStackWord peripheral 255) = 0x8000 := by
  unfold State.Ready State.pcFits State.OnDevice
  decide

theorem test_meets_StoresToAPeripheralLeaveMemory :
    peripheral.Ready ∧
      (∀ r ∈ (Instr.st 31 1).registers peripheral.pfxf, peripheral.reachable r = true) ∧
      (Instr.st 31 1).storesAt peripheral = some (0x8000, 4) ∧
      (Instr.stp 0 31 0).storesAt peripheral = some (0x8000, 4) ∧
      (Instr.sts 255 8).storesAt peripheral = some (0x8000, 4) ∧
      (Instr.st8d 1).storesAt peripheral = some (0x8003, 1) ∧
      (Instr.st8s 1 0).storesAt peripheral = some (0x8000, 1) ∧
      (Instr.st16d 1).storesAt peripheral = some (0x8002, 2) ∧
      (Instr.st16s 1 0).storesAt peripheral = some (0x8000, 2) ∧
      (Instr.sts8s 1023).storesAt peripheral = some (0x8003, 1) ∧
      (Instr.sts16s 511).storesAt peripheral = some (0x8002, 2) ∧
      peripheral.OnDevice 0x8000 4 ∧ peripheral.OnDevice 0x8003 1 ∧ peripheral.OnDevice 0x8002 2 := by
  unfold State.Ready State.pcFits State.OnDevice
  decide

theorem test_meets_PartialStoresKeepTheLane :
    topWord.Ready ∧
      topWord.reachable 1 = true ∧
      0xFFFFFFFF = wordAddr (eaRegister topWord 1) + (topWord.reg 1).toNat % 4 ∧
      topWord.Writable 0xFFFFFFFF 1 ∧
      0xFFFFFFFF = wordAddr (eaRegister topWord 1) + (3 : BitVec 2).toNat ∧
      0xFFFFFFFC = wordAddr (eaRegister topWord 1) + (0 : BitVec 2).toNat ∧
      topWord.Writable 0xFFFFFFFC 1 ∧
      0xFFFFFFFE = wordAddr (eaRegister topWord 1) + 2 * ((topWord.reg 1).toNat / 2 % 2) ∧
      topWord.Writable 0xFFFFFFFE 2 ∧
      0xFFFFFFFE = wordAddr (eaRegister topWord 1) + 2 * (1 : BitVec 1).toNat ∧
      0xFFFFFFFC = wordAddr (eaRegister topWord 1) + 2 * (0 : BitVec 1).toNat ∧
      topWord.Writable 0xFFFFFFFC 2 := by
  unfold State.Ready State.pcFits State.Writable
  decide

theorem test_meets_StackPartialStores :
    topWord.Ready ∧
      topWord.reachable 14 = true ∧
      (topWord.reg 14).toNat % 4 = 0 ∧
      0xFFFFFFFF = wordAddr (eaStackByte topWord 1023) + (1023 : BitVec 10).toNat % 4 ∧
      topWord.Writable 0xFFFFFFFF 1 ∧
      0xFFFFFFFE = wordAddr (eaStackHalf topWord 511) + 2 * ((511 : BitVec 9).toNat % 2) ∧
      topWord.Writable 0xFFFFFFFE 2 ∧
      ((start [(14, 0x2003)]).reg 14).toNat % 4 ≠ 0 ∧
      0x2005 = wordAddr (eaStackByte (start [(14, 0x2003)]) 1) + (1 : BitVec 10).toNat % 4 := by
  unfold State.Ready State.pcFits State.Writable
  decide

theorem test_meets_StoredWordIsLoadedBack :
    topWord.ReadyAlone ∧
      topWord.pcFits 4 ∧
      topWord.k = 0 ∧
      topWord.reachable 31 = true ∧
      topWord.reachable 1 = true ∧
      topWord.reachable 0 = true ∧
      topWord.Writable (wordAddr (topWord.reg 1)) 4 := by
  unfold State.ReadyAlone State.pcFits State.Writable
  decide

/-- Memory up to 0x1FFE and one byte of read-only memory after it; register 1 points at the word these end in. -/
def ragged : State :=
  mapped [⟨0, 0x1FFD, .ram⟩, ⟨0x1FFD, 1, .rom⟩, ⟨0x2000, 4, .ram⟩]
    (start [(1, 0x1FFE), (2, 0x2004), (16, 0x1F80), (14, 0x1C00)])

theorem test_meets_AccessesOutsideMemoryStop :
    ragged.Ready ∧
      (∀ r ∈ (Instr.ld 31 1).registers ragged.pfxf, ragged.reachable r = true) ∧
      (Instr.ld 31 1).loadsAt ragged = some 0x1FFC ∧
      (Instr.ldp 0 31 1).loadsAt ragged = some 0x1FFC ∧
      (Instr.lds 255 1).loadsAt ragged = some 0x1FFC ∧
      ragged.FirstUnmapped 0x1FFC 4 2 ∧
      (Instr.st 31 2).storesAt ragged = some (0x2004, 4) ∧
      ragged.FirstUnmapped 0x2004 4 0 ∧
      (Instr.st8d 1).storesAt ragged = some (0x1FFE, 1) ∧
      ragged.FirstUnmapped 0x1FFE 1 0 ∧
      (Instr.st16s 1 0).storesAt ragged = some (0x1FFC, 2) ∧
      ragged.FirstReadOnly 0x1FFC 2 1 ∧
      interruptNow { ragged with pc := 0x1FFE } = none ∧
      State.FirstUnmapped { ragged with pc := 0x1FFE } 0x1FFE 2 0 := by
  unfold State.Ready State.pcFits State.FirstUnmapped State.FirstReadOnly State.Present
  decide

/-- A machine with no memory at vector entries 9 and up, and the entries below never written but for one byte. -/
def tableless (p : BitVec 6) (n : BitVec 5) : State :=
  { mapped [⟨0, 0x26, .ram⟩, ⟨0x100, 0x1000, .ram⟩] (enabled p n) with tableWritten := BitVec.twoPow tableSize 4 }

theorem test_meets_AccessesOutsideMemoryStop_vector :
    (tableless 63 15).VectorStops 9 (.unmappedAddress 0x26) ∧
      (tableless 63 15).VectorStops 1 (.vectorNeverWritten 5) ∧
      (tableless 63 14).VectorStops 2 (.vectorNeverWritten 8) ∧
      (tableless 63 1).VectorStops 1 (.vectorNeverWritten 5) ∧
      (tableless 63 15).cwp ≠ 0 ∧ (tableless 63 15).Mapped ((tableless 63 15).cwp - 1) ∧
      (tableless 63 15).ReadyAlone ∧ (tableless 63 15).pcFits 2 ∧
      (tableless 63 1).Ready ∧ (tableless 63 1).cwp ≠ 0 ∧
      (tableless 63 1).Mapped (tableless 63 1).cwp ∧ (tableless 63 1).cwp = (tableless 63 1).loLimit ∧
      (tableless 63 14).Ready ∧ (tableless 63 14).cwp = (tableless 63 14).hiLimit ∧
      (tableless 63 14).Mapped (tableless 63 14).cwp :=
  ⟨.inl ⟨2, by unfold State.FirstUnmapped; decide, rfl⟩,
    .inr ⟨1, by unfold State.FirstUnwritten State.Present; decide, rfl⟩,
    .inr ⟨0, by unfold State.FirstUnwritten State.Present; decide, rfl⟩,
    .inr ⟨1, by unfold State.FirstUnwritten State.Present; decide, rfl⟩,
    by unfold State.Mapped State.ReadyAlone State.Ready State.pcFits; decide⟩

theorem test_meets_FreshlyStoredCodeStops_store :
    0 < topWord.cfg.ifetchDistance ∧
      ((∃ t, exec (.st 1 1) topWord = .next t) ∧ (Instr.st 1 1).storesAt topWord = some (0xFFFFFFFC, 4)) ∧
      ((∃ t, exec (.stp 0 31 1) topWord = .next t) ∧ (Instr.stp 0 31 1).storesAt topWord = some (0xFFFFFFFC, 4)) ∧
      ((∃ t, exec (.sts 255 1) topWord = .next t) ∧ (Instr.sts 255 1).storesAt topWord = some (0xFFFFFFFC, 4)) ∧
      ((∃ t, exec (.st8d 1) topWord = .next t) ∧ (Instr.st8d 1).storesAt topWord = some (0xFFFFFFFF, 1)) ∧
      (∃ t, interruptStep 5 (enabled 63 10) = .next t) :=
  ⟨by decide, ⟨⟨_, rfl⟩, by decide⟩, ⟨⟨_, rfl⟩, by decide⟩, ⟨⟨_, rfl⟩, by decide⟩, ⟨⟨_, rfl⟩, by decide⟩, ⟨_, rfl⟩⟩

/-- The start state with a store just before the pc, whose last byte is at it. -/
def freshCode : State := { start [] with recentStores := [⟨0xFD, 4, 1⟩, ⟨0x10, 1, 2⟩] }

/-- The start state with a store of the second byte at the pc. -/
def freshHalf : State := { start [] with recentStores := [⟨0x101, 1, 4⟩] }

theorem test_meets_FreshlyStoredCodeStops :
    interruptNow freshCode = none ∧
      freshCode.Present freshCode.pc.toNat 2 ∧
      freshCode.sampled.isFresh freshCode.pc.toNat = true ∧
      interruptNow freshHalf = none ∧
      freshHalf.Present freshHalf.pc.toNat 2 ∧
      freshHalf.sampled.isFresh (freshHalf.pc.toNat + 1) = true ∧
      freshHalf.sampled.isFresh freshHalf.pc.toNat = false ∧
      (∃ t, exec (.add 1 2) freshCode = .next t ∧ t.recentStores = [⟨0x10, 1, 1⟩]) := by
  refine ⟨by decide, by unfold State.Present; decide, by decide, by decide, by unfold State.Present; decide, by decide,
    by decide, _, rfl, by decide⟩

/-- The start state at `pc`. -/
def at_ (pc : CodeAddr) : State := { start [] with pc := pc }

theorem test_meets_BranchesSetTheTarget :
    (at_ 0x7FE).ReadyAlone ∧
      (at_ 0x7FE).pcFits 4 ∧
      (at_ 0x7FE).reachable 15 = true ∧
      ((0 : CodeAddr).toNat : Int) = (at_ 0x7FE).pc.toNat + 2 * ((0x400 : BitVec 11).toInt + 1) ∧
      (0 : CodeAddr).toNat ≤ 2 ^ 33 - 2 := by
  unfold State.ReadyAlone State.pcFits
  decide

theorem test_meets_BranchesSetTheTarget_farthest :
    (at_ 0x1FFFFF7FE).ReadyAlone ∧
      (at_ 0x1FFFFF7FE).pcFits 4 ∧
      ((0x1FFFFFFFE : CodeAddr).toNat : Int) = (at_ 0x1FFFFF7FE).pc.toNat + 2 * ((0x3FF : BitVec 11).toInt + 1) ∧
      (0x1FFFFFFFE : CodeAddr).toNat ≤ 2 ^ 33 - 2 := by
  unfold State.ReadyAlone State.pcFits
  decide

theorem test_meets_JumpsSetTheTarget :
    (at_ 0x1FFFFFFFA).ReadyAlone ∧
      (at_ 0x1FFFFFFFA).pcFits 2 ∧
      (at_ 0x1FFFFFFFA).pcFits 4 ∧
      (at_ 0x1FFFFFFFA).reachable 0 = true ∧
      (at_ 0x1FFFFFFFA).reachable 15 = true ∧
      (at_ 0x1FFFFFFFA).reachable 31 = true := by
  unfold State.ReadyAlone State.pcFits
  decide

theorem test_meets_DelaySlotEndsAtTheTarget :
    inSlot.bt = some 0x300 ∧ ∃ t, exec (.add 1 2) inSlot = .next t :=
  ⟨rfl, _, rfl⟩


theorem test_meets_SkipsTestARegisterOrACondition :
    (before 0x3000 (start [(1, 0x80000000)])).ReadyAlone ∧
      (before 0x3000 (start [(1, 0x80000000)])).reachable 1 = true ∧
      ((before 0x3000 (start [(1, 0x80000000)])).reg 1).getLsbD 31 = true ∧
      (!((before 0x3000 (start [(1, 0x80000000)])).reg 1).getLsbD 0) = true ∧
      (before 0x3000 (start [(1, 0x80000000)])).pcFits 6 ∧
      (before 0x3000 (start [(1, 0x80000000)])).Fetches ((before 0x3000 (start [(1, 0x80000000)])).pc + 2) 0x3000 ∧
      (0x3000 : Half).extractLsb' 11 5 ≠ 0b10011#5 := by
  unfold State.ReadyAlone State.pcFits State.Fetches State.Readable
  decide

theorem test_meets_SkipsTestARegisterOrACondition_over_a_prefix :
    (before 0x9801 (start [])).ReadyAlone ∧
      (before 0x9801 (start [])).reachable 31 = true ∧
      ((before 0x9801 (start [])).reg 31).toNat = 0 ∧
      (before 0x9801 (start [])).pcFits 6 ∧
      (before 0x9801 (start [])).Fetches ((before 0x9801 (start [])).pc + 2) 0x9801 ∧
      (0x9801 : Half).extractLsb' 11 5 = 0b10011#5 := by
  unfold State.ReadyAlone State.pcFits State.Fetches State.Readable
  decide

theorem test_meets_SkipsTestARegisterOrACondition_not_taken :
    atEdge.ReadyAlone ∧
      atEdge.reachable 1 = true ∧
      decide ((atEdge.reg 1).toNat = 0) = false ∧
      (!(atEdge.reg 1).getLsbD 31) = false ∧
      atEdge.Fetches (atEdge.pc + 2) 0 ∧
      atEdge.pcFits 2 := by
  unfold State.ReadyAlone State.pcFits State.Fetches State.Readable
  decide

theorem test_meets_SkipsTestARegisterOrACondition_condition :
    (before 0x9801 (start [])).ReadyAlone ∧
      (!(before 0x9801 (start [])).flags.z) = true ∧
      (before 0x9801 (start [])).pcFits 6 ∧
      (before 0x9801 (start [])).Fetches ((before 0x9801 (start [])).pc + 2) 0x9801 ∧
      (before 0x3000 (start [])).Fetches ((before 0x3000 (start [])).pc + 2) 0x3000 ∧
      atEdge.ReadyAlone ∧
      (!atEdge.flags.c) = true ∧
      atEdge.Fetches (atEdge.pc + 2) 0 ∧
      atEdge.pcFits 2 := by
  unfold State.ReadyAlone State.pcFits State.Fetches State.Readable
  decide

theorem test_meets_ConditionsAfterCompare :
    (∃ t, exec (.cmp 0 31) (start []) = .next t) :=
  ⟨_, rfl⟩

theorem test_meets_SaveMovesTheWindowDown :
    (enabled 1 1).Ready ∧
      (enabled 1 1).cwp ≠ 0 ∧
      (enabled 1 1).Mapped (enabled 1 1).cwp ∧
      (enabled 1 1).ipri.toNat ≤ 1 ∧
      (enabled 63 14).Ready ∧
      (enabled 63 14).cwp ≠ 0 ∧
      (enabled 63 14).Mapped (enabled 63 14).cwp ∧
      (enabled 63 14).cwp ≠ (enabled 63 14).loLimit ∧
      (inWindow 1).Ready ∧
      (inWindow 1).cwp = (inWindow 1).loLimit ∧
      (inWindow 1).Mapped (inWindow 1).cwp ∧
      (inWindow 1).ie = false := by
  unfold State.Ready State.pcFits State.Mapped
  decide

theorem test_meets_SaveUnderflowEntersHandler :
    (enabled 2 1).Ready ∧
      (enabled 2 1).cwp ≠ 0 ∧
      (enabled 2 1).Mapped (enabled 2 1).cwp ∧
      (enabled 2 1).cwp = (enabled 2 1).loLimit ∧
      (enabled 2 1).ie = true ∧
      1 < (enabled 2 1).ipri.toNat ∧
      (enabled 2 1).VectorReadable 1 := by
  unfold State.Ready State.pcFits State.Mapped State.VectorReadable State.Readable
  decide

theorem test_meets_RestoreMovesTheWindowUp :
    (enabled 2 14).Ready ∧
      (enabled 2 14).cwp ≠ 31 ∧
      (enabled 2 14).ipri.toNat ≤ 2 ∧
      (enabled 63 13).Ready ∧
      (enabled 63 13).cwp ≠ 31 ∧
      (enabled 63 13).cwp ≠ (enabled 63 13).hiLimit ∧
      (inWindow 30).Ready ∧
      (inWindow 30).cwp ≠ 31 ∧
      (inWindow 30).ie = false := by
  unfold State.Ready State.pcFits
  decide

theorem test_meets_RestoreOverflowEntersHandler :
    (enabled 3 14).Ready ∧
      (enabled 3 14).cwp ≠ 31 ∧
      (enabled 3 14).Mapped (enabled 3 14).cwp ∧
      (enabled 3 14).cwp = (enabled 3 14).hiLimit ∧
      (enabled 3 14).ie = true ∧
      2 < (enabled 3 14).ipri.toNat ∧
      (enabled 3 14).VectorReadable 2 := by
  unfold State.Ready State.pcFits State.Mapped State.VectorReadable State.Readable
  decide

theorem test_meets_TrapEntersHandler :
    (inWindow 1).ReadyAlone ∧
      (inWindow 1).pcFits 2 ∧
      (inWindow 1).cwp ≠ 0 ∧
      (inWindow 1).Mapped ((inWindow 1).cwp - 1) ∧
      (inWindow 1).VectorReadable 0 ∧
      (inWindow 1).VectorReadable 63 := by
  unfold State.ReadyAlone State.pcFits State.Mapped State.VectorReadable State.Readable
  decide

theorem test_meets_TrapEntersHandler_from_window_15 :
    (inWindow 15).ReadyAlone ∧
      (inWindow 15).pcFits 2 ∧
      (inWindow 15).cwp ≠ 0 ∧
      (inWindow 15).Mapped ((inWindow 15).cwp - 1) ∧
      (inWindow 15).VectorReadable 0 ∧
      (inWindow 15).VectorReadable 63 := by
  unfold State.ReadyAlone State.pcFits State.Mapped State.VectorReadable State.Readable
  decide

theorem test_meets_TretRestoresStatus :
    atEdge.ReadyAlone ∧
      atEdge.reachable 0 = true ∧
      atEdge.reachable 31 = true := by
  unfold State.ReadyAlone
  decide

theorem test_meets_TrapAndReturnIsTransparent :
    (inWindow 1).ReadyAlone ∧
      (inWindow 1).pcFits 2 ∧
      (inWindow 1).cwp ≠ 0 ∧
      (inWindow 1).Mapped (inWindow 1).cwp ∧
      (inWindow 1).VectorReadable 63 ∧
      (inWindow 1).pc.getLsbD 0 = false := by
  unfold State.ReadyAlone State.pcFits State.Mapped State.VectorReadable State.Readable
  decide

theorem test_meets_SaveAndRestoreKeepTheWindow :
    (inWindow 14).ReadyAlone ∧
      (inWindow 14).pcFits 4 ∧
      (inWindow 14).cwp ≠ 0 ∧
      (inWindow 14).Mapped (inWindow 14).cwp ∧
      (inWindow 14).ie = false := by
  unfold State.ReadyAlone State.pcFits State.Mapped
  decide

theorem test_meets_SaveAndRestoreKeepTheWindow_enabled :
    (enabled 63 14).ReadyAlone ∧
      (enabled 63 14).pcFits 4 ∧
      (enabled 63 14).Mapped (enabled 63 14).cwp ∧
      (enabled 63 14).ie = true ∧
      (enabled 63 14).cwp ≠ (enabled 63 14).loLimit ∧
      (enabled 63 14).cwp - 1 ≠ (enabled 63 14).hiLimit ∧
      (enabled 1 1).ReadyAlone ∧
      (enabled 1 1).cwp = (enabled 1 1).loLimit ∧
      (enabled 1 1).ipri.toNat ≤ 1 := by
  unfold State.ReadyAlone State.pcFits State.Mapped
  decide

theorem test_meets_RdctlReadsControlRegisters :
    atEdge.Ready ∧
      atEdge.reachable 31 = true ∧
      atEdge.k = 0 ∧
      (prefixed 1 []).Ready ∧
      (prefixed 1 []).k = 1 ∧
      (prefixed 2 []).Ready ∧
      (prefixed 2 []).k = 2 ∧
      (prefixed 2 []).reachable 31 = true := by
  unfold State.Ready State.pcFits
  decide

theorem test_meets_RdctlOfWriteOnlyRegisterIsFree :
    (prefixed 8 []).Ready ∧
      (prefixed 8 []).reachable 31 = true ∧
      (prefixed 8 []).k = 8 ∧
      (prefixed 9 []).Ready ∧
      (prefixed 9 []).reachable 0 = true ∧
      (prefixed 9 []).k = 9 := by
  unfold State.Ready State.pcFits
  decide

theorem test_meets_WrctlWritesControlRegisters :
    inSlot.Ready ∧
      inSlot.reachable 31 = true ∧
      inSlot.k ∈ [0#11, 1#11, 2#11, 8#11, 9#11] ∧
      (prefixed 9 []).Ready ∧
      (prefixed 9 []).reachable 0 = true ∧
      (prefixed 9 []).k ∈ [0#11, 1#11, 2#11, 8#11, 9#11] ∧
      (prefixed 2 []).k = 2 ∧ (prefixed 2 []).cfg.wvalidWritable = true := by
  unfold State.Ready State.pcFits
  decide

theorem test_meets_HazardsStop :
    inSlot.nopReq = false ∧
      inSlot.bt ≠ none ∧
      (Instr.pfx 0).forbiddenInSlot = true ∧
      (Instr.ifs 14).forbiddenInSlot = true ∧
      owing.nopReq = true ∧
      (Instr.mov 1 1).isNop = false := by
  decide

theorem test_meets_UndefinedUsesStop :
    (prefixed 0 []).ReadyAlone ∧
      (prefixed 0 []).pfxf = true ∧
      (start []).ReadyAlone ∧
      14 ≤ (14 : BitVec 4).toNat ∧
      (prefixed 3 []).Ready ∧
      (prefixed 3 []).reachable 31 = true ∧
      (prefixed 3 []).k ∉ [0#11, 1#11, 2#11, 8#11, 9#11] ∧
      (prefixed 10 []).k ∉ [0#11, 1#11, 2#11, 8#11, 9#11] := by
  unfold State.Ready State.pcFits State.ReadyAlone
  decide

theorem test_meets_WindowEdgesStop :
    (inWindow 0).cwp = 0 ∧
      (inWindow 0).Ready ∧
      (inWindow 0).ReadyAlone ∧
      (inWindow 0).pcFits 2 ∧
      (inWindow 31).cwp = 31 ∧
      (inWindow 31).Ready ∧
      (inWindow 15).cfg.regFile.maxWindow < (inWindow 15).cwp.toNat ∧
      (inWindow 15).Ready ∧
      8 ≤ (8 : RegIdx).toNat ∧
      8 ∈ (Instr.and 0 8).registers (inWindow 15).pfxf ∧
      19 ∈ (Instr.ldp 3 0 1).registers (inWindow 15).pfxf ∧
      14 ∈ (Instr.save 0).registers (inWindow 15).pfxf ∧
      31 ∈ Instr.ret.registers (inWindow 15).pfxf := by
  unfold State.Ready State.pcFits State.ReadyAlone
  decide

/-- The start state at `pc`, with the half-word `w` in memory after it. -/
def followed (pc : CodeAddr) (w : Half) : State :=
  { start [(1, 1)] with
    pc := pc
    mem := (Memory.write [] (pc.toNat + 2) (w.extractLsb' 0 8)).write (pc.toNat + 3) (w.extractLsb' 8 8) }

theorem test_meets_CodeSpaceEdgesStop :
    (at_ 0x1FFFFFFFE).bt = none ∧
      ¬(at_ 0x1FFFFFFFE).pcFits 2 ∧
      (at_ 0x7FC).ReadyAlone ∧
      ((at_ 0x7FC).pc.toNat : Int) + 2 * ((0x400 : BitVec 11).toInt + 1) < 0 ∧
      (at_ 0x1FFFFF800).ReadyAlone ∧
      (2 : Int) ^ 33 - 2 < (at_ 0x1FFFFF800).pc.toNat + 2 * ((0x3FF : BitVec 11).toInt + 1) ∧
      (at_ 0x1FFFFFFFC).ReadyAlone ∧
      ¬(at_ 0x1FFFFFFFC).pcFits 4 ∧
      (at_ 0x1FFFFFFFC).reachable 31 = true := by
  unfold State.ReadyAlone State.pcFits
  decide

theorem test_meets_CodeSpaceEdgesStop_skip :
    (followed 0x1FFFFFFFC 0x3000).ReadyAlone ∧
      (followed 0x1FFFFFFFC 0x3000).pcFits 2 ∧
      (followed 0x1FFFFFFFC 0x3000).Fetches ((followed 0x1FFFFFFFC 0x3000).pc + 2) 0x3000 ∧
      (0x3000 : Half).extractLsb' 11 5 ≠ 0b10011#5 ∧
      ¬(followed 0x1FFFFFFFC 0x3000).pcFits 4 ∧
      (followed 0x1FFFFFFFA 0x9801).ReadyAlone ∧
      (followed 0x1FFFFFFFA 0x9801).Fetches ((followed 0x1FFFFFFFA 0x9801).pc + 2) 0x9801 ∧
      (0x9801 : Half).extractLsb' 11 5 = 0b10011#5 ∧
      ¬(followed 0x1FFFFFFFA 0x9801).pcFits 6 ∧
      (followed 0x1FFFFFFFC 0x3000).reachable 1 = true ∧
      ((followed 0x1FFFFFFFC 0x3000).reg 1).getLsbD 31 = false ∧
      ((followed 0x1FFFFFFFC 0x3000).reg 1).getLsbD 0 = true ∧
      (followed 0x1FFFFFFFC 0x3000).reg 1 ≠ 0 ∧
      (followed 0x1FFFFFFFC 0x3000).reg 31 = 0 ∧
      condition 0x1 (followed 0x1FFFFFFFC 0x3000).flags = some false := by
  unfold State.ReadyAlone State.pcFits State.Fetches State.Readable
  decide

theorem test_meets_FlagsOfADifference :
    (∃ t, exec (.sub 1 31) (start []) = .next t) ∧ (∃ t, exec (.cmp 1 31) (start []) = .next t) ∧
      (∃ t, exec (.subi 1 31) (prefixed 0x7FF []) = .next t) ∧ (∃ t, exec (.cmpi 1 0) (start []) = .next t) ∧
      (65535 : Word).toNat = 32 * (prefixed 0x7FF []).k.toNat + (31 : BitVec 5).toNat ∧
      (0 : Word).toNat = 32 * (start []).k.toNat + (0 : BitVec 5).toNat :=
  ⟨⟨_, rfl⟩, ⟨_, rfl⟩, ⟨_, rfl⟩, ⟨_, rfl⟩, rfl, rfl⟩


end Sys2Proof.Tests
end

section
/-! PROOFS. A step with no interrupt accepted: from the two bytes at the pc to the instruction that runs (spec
00_scope.md R11, 20_memory.md R74, R76, R82). -/

namespace Sys2Proof.Proofs

open Sys2Proof.Machine

/-! ### What a fetch presents and draws -/

/-- Something stands behind every byte but not memory behind all of them, so a peripheral stands behind one. -/
theorem exists_isDevice_of_not_readable {s : State} {a n : Nat} (hp : s.Present a n) (hr : ¬s.Readable a n) :
    ∃ i < n, s.isDevice (a + i) = true := by
  simp only [State.Readable, not_forall, not_or] at hr
  obtain ⟨i, hi, hram, hrom⟩ := hr
  refine ⟨i, hi, ?_⟩
  cases hk : s.kindAt (a + i) with
  | none => exact absurd hk (hp i hi)
  | some kind =>
    cases kind with
    | ram => exact absurd hk hram
    | rom => exact absurd hk hrom
    | device => simp [State.isDevice, hk]

/-- A read that touches a peripheral draws one free value (R82). -/
theorem afterRead_of_not_readable {s : State} {a n : Nat} (hp : s.Present a n) (hr : ¬s.Readable a n) :
    s.afterRead a n = { s with freeCount := s.freeCount + 1 } := by
  obtain ⟨i, hi, hdev⟩ := exists_isDevice_of_not_readable hp hr
  have hsome : (firstAddr s.isDevice a n).isSome = true := by
    rw [Option.isSome_iff_ne_none, ne_eq, firstAddr_none_iff]
    intro hnone
    exact absurd hdev (by simp [hnone i hi])
  simp [State.afterRead, hsome]

/-- A fetch from present bytes that no recent store wrote presents the bus's half-word, from memory or a peripheral. -/
theorem fetchWord_of_present {s : State} {p : CodeAddr} (hp : s.Present p.toNat 2) (h0 : s.isFresh p.toNat = false)
    (h1 : s.isFresh (p.toNat + 1) = false) : fetchWord s p = .ok (s.busHalf p.toNat, s.afterRead p.toNat 2) := by
  have hmapped := (firstAddr_none_iff _ _ _).1 (firstAddr_of_present hp)
  have hold : ∀ i < 2, s.isFresh (p.toNat + i) = false
    | 0, _ => h0
    | 1, _ => h1
  exact (fetchWord_ok_iff _ _ _ _).2 ⟨hmapped, hold, rfl, rfl⟩

/-! ### From the fetched word to the instruction -/

/-- Two bytes decode as the word they make, with nothing left over (R73). -/
theorem decode_pair_ok_iff (lo hi : Byte) (i : Instr) :
    decode [lo, hi] = .ok (i, []) ↔ decodeWord (wordOfBytes lo hi) = .ok i := by
  simp only [decode]
  cases decodeWord (wordOfBytes lo hi) <;> simp

/-- A fetched word that decodes to an admitted instruction is that instruction (R130, D14). -/
theorem fetchInstr_eq {s t : State} {w : Half} {i : Instr} (hf : fetchWord s s.pc = .ok (w, t))
    (hd : decodeWord w = .ok i) (hadm : s.cfg.admitGk = true ∨ i.fromGeneralKnowledge = false) :
    fetchInstr s = .ok (i, t) := by
  have hreq : (s.cfg.admitGk || !i.fromGeneralKnowledge) = true := by simpa using hadm
  simp [fetchInstr, hf, hd, hreq]

theorem instructionStep_eq {s t : State} {i : Instr} (h : fetchInstr s = .ok (i, t)) :
    instructionStep s = exec i t := by
  simp [instructionStep, h]

theorem step_of_interruptNow_none {s : State} (h : interruptNow s = none) : step s = instructionStep s.sampled := by
  simp [step, h]

/-- With no interrupt accepted, the step is the decoded instruction's effect on the state its fetch leaves (R11). -/
theorem step_eq_exec_afterRead {s : State} {i : Instr} (hirq : interruptNow s = none)
    (hp : s.sampled.Present s.sampled.pc.toNat 2) (h0 : s.sampled.isFresh s.sampled.pc.toNat = false)
    (h1 : s.sampled.isFresh (s.sampled.pc.toNat + 1) = false)
    (hd : decodeWord (s.sampled.busHalf s.sampled.pc.toNat) = .ok i)
    (hadm : s.sampled.cfg.admitGk = true ∨ i.fromGeneralKnowledge = false) :
    step s = exec i (s.sampled.afterRead s.sampled.pc.toNat 2) := by
  have hfetch := fetchInstr_eq (fetchWord_of_present hp h0 h1) hd hadm
  rw [step_of_interruptNow_none hirq, instructionStep_eq hfetch]

/-- Settles O6: the fetch leaves the state alone where both bytes are memory's, and counts one free value drawn where a
peripheral presents one of them. -/
theorem stepRunsTheDecodedInstruction : Obligations.StepRunsTheDecodedInstruction := by
  rintro s u i rfl hirq hp h0 h1 hdec - hadm
  have hstep := step_eq_exec_afterRead hirq hp h0 h1 ((decode_pair_ok_iff _ _ _).1 hdec) hadm
  constructor
  · intro hr
    rw [hstep, afterRead_of_readable _ hr]
  · intro hr
    rw [hstep, afterRead_of_not_readable hp hr]

end Sys2Proof.Proofs
end

section
/-! PROOFS. What an instruction that has a next state has done, said once for all of them: `Update` is what an effect
can change, `Effect` adds the registers it needs, `Ends` is the ways an instruction ends (spec 00_scope.md R11,
10_state.md R30, R44, R89). `ends_of_exec` is the one case split over the instructions; the statements about every
instruction are read off from it. -/

namespace Sys2Proof.Proofs

open Sys2Proof.Machine

/-! ### What an effect can change -/

/-- The state after a free value was drawn (R40, R82). -/
def drawn (s : State) : State := { s with freeCount := s.freeCount + 1 }

/-- The changes that the effect of instruction `i` can make to `s`: flags only in a row of the flag table (R44), memory
only at the bytes it stores. -/
inductive Update (i : Instr) (s : State) : State → Prop
  | nothing : Update i s s
  | register {u} (hu : Update i s u) (r : RegIdx) (v : Word) : Update i s (u.setReg r v)
  | flags {u} (hu : Update i s u) (hrow : i.inFlagTable = true) (f : Flags) : Update i s (u.setFlags f)
  | read {u} (hu : Update i s u) (x n : Nat) : Update i s (u.afterRead x n)
  | draw {u} (hu : Update i s u) : Update i s (drawn u)
  | store {x : Nat} {l : List Byte} (hat : i.storesAt s = some (x, l.length)) : Update i s (s.stored x l)

/-- An effect of instruction `i`, with the registers that it could not have been without (R24). -/
structure Effect (i : Instr) (s u : State) : Prop where
  registers : ∀ r ∈ i.registers s.pfxf, s.reachable r = true
  update : Update i s u

theorem Update.keepsControl {i : Instr} {s u : State} (h : Update i s u) : KeepsControl s u := by
  induction h with
  | nothing => exact keepsControl_refl s
  | register _ r v ih => exact keepsControl_setReg ih r v
  | flags _ _ f ih => exact keepsControl_setFlags ih f
  | read _ x n ih => exact keepsControl_afterRead ih x n
  | draw _ ih => exact ⟨ih.cfg, ih.ie, ih.ipri, ih.cwp, ih.istatus, ih.wvalid, ih.irqInputs, ih.busWrites⟩
  | store => exact keepsControl_stored (keepsControl_refl s) _ _

theorem Update.flags_eq {i : Instr} {s u : State} (h : Update i s u) (hrow : i.inFlagTable = false) :
    u.flags = s.flags := by
  induction h with
  | nothing => rfl
  | register _ r v ih => exact ih
  | flags _ hin => simp [hrow] at hin
  | read _ x n ih => exact ih
  | draw _ ih => exact ih
  | store => rfl

/-! ### The ways an instruction ends -/

/-- Bit 0 of `p` is 0 where bit 0 of the pc is (R27, R32). -/
def EvenWith (s : State) (p : CodeAddr) : Prop := s.pc.getLsbD 0 = false → p.getLsbD 0 = false

/-- The states in which instruction `i` can end, run in `s`, by the form of its end (R11 items 4 to 8). -/
inductive Ends (i : Instr) (s : State) : State → Prop
  | follows {u} (hfits : s.bt = none → s.pcFits 2) (he : Effect i s u) : Ends i s (u.retire s.followPc)
  | transfers {u} {p : CodeAddr} (hslot : s.bt = none) (hfits : s.pcFits 2) (he : Effect i s u) (hp : EvenWith s p) :
      Ends i s { u.retire (s.pc + 2) with bt := some p }
  | skips {u} {p : CodeAddr} (hfits : s.pcFits 2) (he : Effect i s u) (hp : EvenWith s p) : Ends i s (u.retire p)
  | pfx {n} (hi : i = .pfx n) (hfits : s.pcFits 2) :
      Ends i s { s.retire (s.pc + 2) with k := n, pfxf := true }
  | save {n t} (hi : i = .save n) (hfits : s.bt = none → s.pcFits 2) (hsp : s.reachable spReg = true) (v : Word)
      (hw : windowException (s.cwp == s.loLimit) 1 true
        (((s.setCwp (s.cwp - 1)).setReg spReg v).retire s.followPc) = .ok t) : Ends i s t
  | restore {t} (hi : i = .restore) (hfits : s.bt = none → s.pcFits 2)
      (hw : windowException (s.cwp == s.hiLimit) 2 false ((s.setCwp (s.cwp + 1)).retire s.followPc) = .ok t) :
      Ends i s t
  | trap {n t} (hi : i = .trap n) (hfits : s.pcFits 2)
      (hw : takeException n (s.pc + 2) false (s.retire (s.pc + 2)) = .ok t) : Ends i s t
  | tret {a} (hi : i = .tret a) (ha : s.reachable a = true) :
      Ends i s ({ s with status := s.istatus }.retire (codeOfHalf (s.reg a)))
  | wrctl {a u} (hi : i = .wrctl a) (hfits : s.bt = none → s.pcFits 2) (ha : s.reachable a = true)
      (hu : writeControl s s.k (s.reg a) = .ok u) : Ends i s { u.retire s.followPc with nopReq := s.k == 0 }

/-! ### When the instructions with an end of their own have a next state -/

theorem execPfx_next_iff (n : BitVec 11) (s t : State) :
    execPfx n s = .next t ↔
      s.nopReq = false ∧ s.bt = none ∧ s.pfxf = false ∧ s.pcFits 2 ∧
        t = { s.retire (s.pc + 2) with k := n, pfxf := true } := by
  unfold execPfx
  simp only [outcome_next_iff, res_bind_ok_iff, requireNopDone_ok_iff, requireNoSlot_ok_iff, require_ok_iff,
    pcPlus_ok_iff, Bool.false_eq_true, or_false, res_pure, Bool.not_eq_true']
  constructor
  · rintro ⟨_, hn, _, hb, _, hp, _, ⟨hf, rfl⟩, h⟩
    exact ⟨hn, hb, hp, hf, (Except.ok.inj h).symm⟩
  · rintro ⟨hn, hb, hp, hf, rfl⟩
    exact ⟨(), hn, (), hb, (), hp, _, ⟨hf, rfl⟩, rfl⟩

theorem execSave_next_iff (n : BitVec 8) (s t : State) :
    execSave n s = .next t ↔
      s.nopReq = false ∧ s.reachable spReg = true ∧ s.cwp ≠ 0 ∧ (s.setCwp (s.cwp - 1)).reachable spReg = true ∧
        (s.bt = none → s.pcFits 2) ∧
        windowException (s.cwp == s.loLimit) 1 true
          (((s.setCwp (s.cwp - 1)).setReg spReg (s.reg spReg - n.zeroExtend 32 * 4)).retire s.followPc) = .ok t := by
  unfold execSave
  simp only [outcome_next_iff, res_bind_ok_iff, requireNopDone_ok_iff, require_ok_iff, readReg_ok_iff,
    writeReg_ok_iff, nextPc_ok_iff, Bool.false_eq_true, or_false, bne_iff_ne]
  constructor
  · rintro ⟨_, hn, _, ⟨hr, rfl⟩, _, hw, _, ⟨hr', rfl⟩, _, ⟨hf, rfl⟩, h⟩
    exact ⟨hn, hr, hw, hr', hf, h⟩
  · rintro ⟨hn, hr, hw, hr', hf, h⟩
    exact ⟨(), hn, _, ⟨hr, rfl⟩, (), hw, _, ⟨hr', rfl⟩, _, ⟨hf, rfl⟩, h⟩

theorem execRestore_next_iff (s t : State) :
    execRestore s = .next t ↔
      s.nopReq = false ∧ s.cwp ≠ 31 ∧ (s.bt = none → s.pcFits 2) ∧
        windowException (s.cwp == s.hiLimit) 2 false ((s.setCwp (s.cwp + 1)).retire s.followPc) = .ok t := by
  unfold execRestore
  simp only [outcome_next_iff, res_bind_ok_iff, requireNopDone_ok_iff, require_ok_iff, nextPc_ok_iff,
    Bool.false_eq_true, or_false, bne_iff_ne]
  constructor
  · rintro ⟨_, hn, _, hw, _, ⟨hf, rfl⟩, h⟩
    exact ⟨hn, hw, hf, h⟩
  · rintro ⟨hn, hw, hf, h⟩
    exact ⟨(), hn, (), hw, _, ⟨hf, rfl⟩, h⟩

theorem execTrap_next_iff (n : BitVec 6) (s t : State) :
    execTrap n s = .next t ↔
      s.nopReq = false ∧ s.bt = none ∧ s.pcFits 2 ∧
        takeException n (s.pc + 2) false (s.retire (s.pc + 2)) = .ok t := by
  unfold execTrap
  simp only [outcome_next_iff, res_bind_ok_iff, requireNopDone_ok_iff, requireNoSlot_ok_iff, pcPlus_ok_iff,
    Bool.false_eq_true, or_false]
  constructor
  · rintro ⟨_, hn, _, hb, _, ⟨hf, rfl⟩, h⟩
    exact ⟨hn, hb, hf, h⟩
  · rintro ⟨hn, hb, hf, h⟩
    exact ⟨(), hn, (), hb, _, ⟨hf, rfl⟩, h⟩

theorem execTret_next_iff (a : RegIdx) (s t : State) :
    execTret a s = .next t ↔
      s.nopReq = false ∧ s.bt = none ∧ s.reachable a = true ∧
        t = { s with status := s.istatus }.retire (codeOfHalf (s.reg a)) := by
  unfold execTret
  simp only [outcome_next_iff, res_bind_ok_iff, requireNopDone_ok_iff, requireNoSlot_ok_iff, readReg_ok_iff,
    Bool.false_eq_true, or_false, res_pure]
  constructor
  · rintro ⟨_, hn, _, hb, _, ⟨hr, rfl⟩, h⟩
    exact ⟨hn, hb, hr, (Except.ok.inj h).symm⟩
  · rintro ⟨hn, hb, hr, rfl⟩
    exact ⟨(), hn, (), hb, _, ⟨hr, rfl⟩, rfl⟩

theorem execWrctl_next_iff (a : RegIdx) (s t : State) :
    execWrctl a s = .next t ↔
      s.nopReq = false ∧ s.reachable a = true ∧ (s.bt = none → s.pcFits 2) ∧
        ∃ u, writeControl s s.k (s.reg a) = .ok u ∧ t = { u.retire s.followPc with nopReq := s.k == 0 } := by
  unfold execWrctl
  simp only [outcome_next_iff, res_bind_ok_iff, requireNopDone_ok_iff, readReg_ok_iff, nextPc_ok_iff,
    Bool.false_eq_true, or_false, res_pure]
  constructor
  · rintro ⟨_, hn, _, ⟨hr, rfl⟩, u, hu, _, ⟨hf, rfl⟩, h⟩
    exact ⟨hn, hr, hf, u, hu, (Except.ok.inj h).symm⟩
  · rintro ⟨hn, hr, hf, u, hu, rfl⟩
    exact ⟨(), hn, _, ⟨hr, rfl⟩, u, hu, _, ⟨hf, rfl⟩, rfl⟩

/-! ### The effects of the instructions that end at the next pc -/

theorem ends_of_ordinary {i : Instr} {s t : State} {isNop : Bool} {effect : State → Res State}
    (h : ordinary isNop s effect = .next t) (he : ∀ u, effect s = .ok u → Effect i s u) : Ends i s t := by
  obtain ⟨-, hfits, u, hu, rfl⟩ := (ordinary_next_iff _ _ _ _).1 h
  exact .follows hfits (he u hu)

theorem reachable_pair {s : State} {a b : RegIdx} (ha : s.reachable a = true) (hb : s.reachable b = true) :
    ∀ r ∈ [a, b], s.reachable r = true := by
  simp [ha, hb]

section Effects

variable {i : Instr} {s u : State} {a b : RegIdx}

theorem effect_arith_reg {op fl} (hrow : i.inFlagTable = true) (hregs : i.registers s.pfxf = [a, b])
    (h : arithEffect a (readReg s b) op fl s = .ok u) : Effect i s u := by
  obtain ⟨ha, v, hv, rfl⟩ := (arithEffect_ok_iff _ _ _ _ _ _).1 h
  obtain ⟨hb, -⟩ := (readReg_ok_iff _ _ _).1 hv
  exact ⟨hregs ▸ reachable_pair ha hb, .flags (.register .nothing _ _) hrow _⟩

theorem effect_arith_imm {op fl} {y : Res Word} (hrow : i.inFlagTable = true) (hregs : i.registers s.pfxf = [a])
    (h : arithEffect a y op fl s = .ok u) : Effect i s u := by
  obtain ⟨ha, v, -, rfl⟩ := (arithEffect_ok_iff _ _ _ _ _ _).1 h
  exact ⟨by simp [hregs, ha], .flags (.register .nothing _ _) hrow _⟩

theorem effect_compare_reg (hrow : i.inFlagTable = true) (hregs : i.registers s.pfxf = [a, b])
    (h : compareEffect a (readReg s b) s = .ok u) : Effect i s u := by
  obtain ⟨ha, v, hv, rfl⟩ := (compareEffect_ok_iff _ _ _ _).1 h
  obtain ⟨hb, -⟩ := (readReg_ok_iff _ _ _).1 hv
  exact ⟨hregs ▸ reachable_pair ha hb, .flags .nothing hrow _⟩

theorem effect_compare_imm {y : Res Word} (hrow : i.inFlagTable = true) (hregs : i.registers s.pfxf = [a])
    (h : compareEffect a y s = .ok u) : Effect i s u := by
  obtain ⟨ha, v, -, rfl⟩ := (compareEffect_ok_iff _ _ _ _).1 h
  exact ⟨by simp [hregs, ha], .flags .nothing hrow _⟩

theorem effect_logic {op} (hrow : i.inFlagTable = true)
    (hregs : i.registers s.pfxf = if s.pfxf then [a] else [a, b]) (h : logicEffect a b op s = .ok u) :
    Effect i s u := by
  obtain ⟨ha, v, hv, rfl⟩ := (logicEffect_ok_iff _ _ _ _ _).1 h
  refine ⟨?_, .flags (.register .nothing _ _) hrow _⟩
  rw [hregs]
  rcases (operandTwo_ok_iff _ _ _).1 hv with ⟨hp, -⟩ | ⟨hp, hb, -⟩
  · simp [hp, ha]
  · simpa [hp, ha] using hb

theorem effect_unary {op} (hregs : i.registers s.pfxf = [a]) (h : unaryEffect a op s = .ok u) : Effect i s u := by
  obtain ⟨ha, rfl⟩ := (unaryEffect_ok_iff _ _ _ _).1 h
  exact ⟨by simp [hregs, ha], .register .nothing _ _⟩

theorem effect_binary {op} (hregs : i.registers s.pfxf = [a, b]) (h : binaryEffect a b op s = .ok u) :
    Effect i s u := by
  obtain ⟨ha, hb, rfl⟩ := (binaryEffect_ok_iff _ _ _ _ _).1 h
  exact ⟨hregs ▸ reachable_pair ha hb, .register .nothing _ _⟩

theorem effect_onR0 {op} (hregs : i.registers s.pfxf = [0, a]) (h : onR0Effect a op s = .ok u) : Effect i s u := by
  obtain ⟨ha, rfl⟩ := (onR0Effect_ok_iff _ _ _ _).1 h
  exact ⟨hregs ▸ reachable_pair (reachable_zero s) ha, .register .nothing _ _⟩

theorem effect_write {v : Word} (hregs : i.registers s.pfxf = [a]) (h : writeReg s a v = .ok u) : Effect i s u := by
  obtain ⟨ha, rfl⟩ := (writeReg_ok_iff _ _ _ _).1 h
  exact ⟨by simp [hregs, ha], .register .nothing _ _⟩

theorem effect_move (hregs : ∀ r ∈ i.registers s.pfxf, r = a ∨ r = b) (h : moveEffect a b s = .ok u) :
    Effect i s u := by
  obtain ⟨ha, hb, rfl⟩ := (moveEffect_ok_iff _ _ _ _).1 h
  refine ⟨fun r hr => ?_, .register .nothing _ _⟩
  rcases hregs r hr with rfl | rfl
  · exact ha
  · exact hb

/-- RLC and RRC, by the bits they write and the bit they carry out (R171, R172). -/
theorem effect_rotate {rot : Word → Word} {fl : Word → Flags} (hrow : i.inFlagTable = true)
    (hregs : i.registers s.pfxf = [a])
    (h : (do let x ← readReg s a; let t ← writeReg s a (rot x); return t.setFlags (fl x)) = Except.ok u) :
    Effect i s u := by
  simp only [res_bind_ok_iff, readReg_ok_iff, writeReg_ok_iff, res_pure] at h
  obtain ⟨_, ⟨ha, rfl⟩, _, ⟨-, rfl⟩, h⟩ := h
  cases h
  exact ⟨by simp [hregs, ha], .flags (.register .nothing _ _) hrow _⟩

/-- FILL8 and FILL16, by the word they make of the register (R192, R193). -/
theorem effect_fill {fill : Word → Word} (hregs : i.registers s.pfxf = [0, a])
    (h : (do let x ← readReg s a; writeReg s 0 (fill x)) = Except.ok u) : Effect i s u := by
  simp only [res_bind_ok_iff, readReg_ok_iff, writeReg_ok_iff] at h
  obtain ⟨_, ⟨ha, rfl⟩, -, rfl⟩ := h
  exact ⟨hregs ▸ reachable_pair (reachable_zero s) ha, .register .nothing _ _⟩

theorem effect_load {ea} (hregs : ∀ r ∈ i.registers s.pfxf, r = a ∨ r = b) (h : loadEffect b ea a s = .ok u) :
    Effect i s u := by
  obtain ⟨hb, ha, -, rfl⟩ := (loadEffect_ok_iff _ _ _ _ _).1 h
  refine ⟨fun r hr => ?_, .register (.read .nothing _ _) _ _⟩
  rcases hregs r hr with rfl | rfl
  · exact ha
  · exact hb

theorem effect_storeBytes {x : Nat} {l : List Byte} (hat : i.storesAt s = some (x, l.length))
    (hregs : ∀ r ∈ i.registers s.pfxf, s.reachable r = true) (h : storeBytes s x l = .ok u) : Effect i s u := by
  obtain ⟨-, -, rfl⟩ := (storeBytes_ok_iff _ _ _ _).1 h
  exact ⟨hregs, .store hat⟩

theorem effect_storeWord {ea} (hat : i.storesAt s = some (wordAddr (ea s), 4))
    (hregs : ∀ r ∈ i.registers s.pfxf, r = a ∨ r = b) (h : storeWordEffect b ea a s = .ok u) : Effect i s u := by
  obtain ⟨hb, ha, h⟩ := (storeWordEffect_ok_iff _ _ _ _ _).1 h
  refine effect_storeBytes hat (fun r hr => ?_) h
  rcases hregs r hr with rfl | rfl
  · exact ha
  · exact hb

theorem effect_storeByte {ea lane} (hat : i.storesAt s = some (byteAddr (ea s) (lane s), 1))
    (hregs : i.registers s.pfxf = [0, b]) (h : storeByteEffect b ea lane s = .ok u) : Effect i s u := by
  obtain ⟨hb, h⟩ := (storeByteEffect_ok_iff _ _ _ _ _).1 h
  exact effect_storeBytes hat (hregs ▸ reachable_pair (reachable_zero s) hb) h

theorem effect_storeHalf {ea lane} (hat : i.storesAt s = some (halfAddr (ea s) (lane s), 2))
    (hregs : i.registers s.pfxf = [0, b]) (h : storeHalfEffect b ea lane s = .ok u) : Effect i s u := by
  obtain ⟨hb, h⟩ := (storeHalfEffect_ok_iff _ _ _ _ _).1 h
  exact effect_storeBytes hat (hregs ▸ reachable_pair (reachable_zero s) hb) h

end Effects

/-- A read of a control register that answers leaves the state, or draws a free value (R40, R258). -/
theorem readControl_state {s u : State} {k : BitVec 11} {v : Word} (h : readControl s k = .ok (v, u)) :
    u = s ∨ u = drawn s := by
  unfold readControl at h
  split at h
  case h_4 => exact .inr (Prod.mk.inj (Except.ok.inj h)).2.symm
  case h_5 => exact .inr (Prod.mk.inj (Except.ok.inj h)).2.symm
  case h_6 => cases h
  all_goals exact .inl (Prod.mk.inj (Except.ok.inj h)).2.symm

theorem effect_rdctl {s u : State} {a : RegIdx}
    (h : (do let (v, t) ← readControl s s.k; writeReg t a v) = Except.ok u) : Effect (.rdctl a) s u := by
  obtain ⟨⟨v, t⟩, hread, hwrite⟩ := (res_bind_ok_iff _ _ _).1 h
  obtain ⟨ha, rfl⟩ := (writeReg_ok_iff _ _ _ _).1 hwrite
  rcases readControl_state hread with rfl | rfl
  · exact ⟨by simpa [Instr.registers] using ha, .register .nothing _ _⟩
  · exact ⟨by simpa [Instr.registers] using (show s.reachable a = true from ha), .register (.draw .nothing) _ _⟩

/-! ### Targets -/

theorem getLsbD_zero_eq_false_iff {n : Nat} (x : BitVec n) : x.getLsbD 0 = false ↔ x.toNat % 2 = 0 := by
  simp [BitVec.getLsbD, Nat.testBit_zero]

/-- An even distance from the pc keeps bit 0 (R27). -/
theorem evenWith_add (s : State) {n : Nat} (hn : n % 2 = 0) : EvenWith s (s.pc + BitVec.ofNat 33 n) := by
  simp only [EvenWith, getLsbD_zero_eq_false_iff, BitVec.toNat_add, BitVec.toNat_ofNat]
  omega

theorem evenWith_codeOfHalf (s : State) (x : Word) : EvenWith s (codeOfHalf x) := fun _ => codeOfHalf_even x

theorem evenWith_branchTarget {s : State} {n : BitVec 11} {p : CodeAddr} (h : branchTarget s n = .ok p) :
    EvenWith s p := by
  obtain ⟨hp, -⟩ := (branchTarget_ok_iff _ _ _).1 h
  simp only [EvenWith, getLsbD_zero_eq_false_iff]
  omega

theorem skipLength_even (holds : Bool) (w : Half) : skipLength holds w % 2 = 0 := by
  unfold skipLength
  split
  · split <;> rfl
  · rfl

/-! ### Transfers and skips -/

theorem ends_of_transfer {i : Instr} {s t : State} {effect : State → Res (State × CodeAddr)}
    (he : ∀ u p, effect s = .ok (u, p) → Effect i s u ∧ EvenWith s p) (h : transfer s effect = .next t) :
    Ends i s t := by
  obtain ⟨-, hslot, hfits, u, p, hu, rfl⟩ := (transfer_next_iff _ _ _).1 h
  obtain ⟨heff, hp⟩ := he u p hu
  exact .transfers hslot hfits heff hp

theorem ends_of_jumpTo {i : Instr} {s t : State} {a : RegIdx} (hregs : i.registers s.pfxf = [a])
    (h : jumpTo a s = .next t) : Ends i s t := by
  refine ends_of_transfer (fun u p hu => ?_) h
  simp only [res_bind_ok_iff, readReg_ok_iff, res_pure] at hu
  obtain ⟨_, ⟨ha, rfl⟩, hu⟩ := hu
  cases hu
  exact ⟨⟨by simp [hregs, ha], .nothing⟩, evenWith_codeOfHalf _ _⟩

theorem ends_of_execBr {s t : State} {n : BitVec 11} (h : execBr n s = .next t) : Ends (.br n) s t := by
  refine ends_of_transfer (fun u p hu => ?_) h
  simp only [res_bind_ok_iff, res_pure] at hu
  obtain ⟨_, hp, hu⟩ := hu
  cases hu
  exact ⟨⟨by simp [Instr.registers], .nothing⟩, evenWith_branchTarget hp⟩

theorem ends_of_execBsr {s t : State} {n : BitVec 11} (h : execBsr n s = .next t) : Ends (.bsr n) s t := by
  refine ends_of_transfer (fun u p hu => ?_) h
  simp only [res_bind_ok_iff, linked_ok_iff, res_pure] at hu
  obtain ⟨_, hp, _, ⟨-, hlink, rfl⟩, hu⟩ := hu
  cases hu
  exact ⟨⟨by simpa [Instr.registers, linkReg] using hlink, .register .nothing _ _⟩, evenWith_branchTarget hp⟩

theorem ends_of_execCall {s t : State} {a : RegIdx} (h : execCall a s = .next t) : Ends (.call a) s t := by
  refine ends_of_transfer (fun u p hu => ?_) h
  simp only [res_bind_ok_iff, readReg_ok_iff, linked_ok_iff, res_pure] at hu
  obtain ⟨_, ⟨ha, rfl⟩, _, ⟨-, hlink, rfl⟩, hu⟩ := hu
  cases hu
  exact ⟨⟨by simpa [Instr.registers, linkReg, ha] using hlink, .register .nothing _ _⟩, evenWith_codeOfHalf _ _⟩

theorem ends_of_skip {i : Instr} {s t : State} {test : State → Res Bool}
    (hregs : ∀ b, test s = .ok b → ∀ r ∈ i.registers s.pfxf, s.reachable r = true) (h : skip s test = .next t) :
    Ends i s t := by
  obtain ⟨-, -, b, p, u, htest, rfl, htarget⟩ := (skip_next_iff _ _ _).1 h
  obtain ⟨hfits, w, hw, -, rfl⟩ := (skipTarget_ok_iff _ _ _ _).1 htarget
  obtain ⟨-, -, -, rfl⟩ := (fetchWord_ok_iff _ _ _ _).1 hw
  exact .skips hfits ⟨hregs b htest, .read .nothing _ _⟩ (evenWith_add s (skipLength_even b w))

/-- The skips that test a register (R232 to R235). -/
theorem ends_of_skip_register {i : Instr} {s t : State} {a : RegIdx} {test : Word → Bool}
    (hregs : i.registers s.pfxf = [a]) (h : (skip s fun s => do let x ← readReg s a; return test x) = .next t) :
    Ends i s t := by
  refine ends_of_skip (fun b hb => ?_) h
  obtain ⟨_, hread, -⟩ := (res_bind_ok_iff _ _ _).1 hb
  obtain ⟨ha, -⟩ := (readReg_ok_iff _ _ _).1 hread
  simpa [hregs] using ha

/-- The skips that test a condition need no register (R236). -/
theorem ends_of_skipUnless {i : Instr} {s t : State} {c : BitVec 4} (hregs : i.registers s.pfxf = [])
    (h : skipUnless c s = .next t) : Ends i s t :=
  ends_of_skip (fun _ _ => by simp [hregs]) h

/-! ### Every instruction -/

/-- The inversion of `exec`: an instruction that has a next state ends in one of the ways of `Ends`. -/
theorem ends_of_exec {i : Instr} {s t : State} (h : exec i s = .next t) : Ends i s t := by
  cases i with
  | add a b => exact ends_of_ordinary h fun _ => effect_arith_reg rfl rfl
  | addi a n => exact ends_of_ordinary (show execAddi a n s = .next t from h) fun _ => effect_arith_imm rfl rfl
  | sub a b => exact ends_of_ordinary h fun _ => effect_arith_reg rfl rfl
  | subi a n => exact ends_of_ordinary (show execSubi a n s = .next t from h) fun _ => effect_arith_imm rfl rfl
  | cmp a b => exact ends_of_ordinary h fun _ => effect_compare_reg rfl rfl
  | cmpi a n => exact ends_of_ordinary (show execCmpi a n s = .next t from h) fun _ => effect_compare_imm rfl rfl
  | lsl a b => exact ends_of_ordinary h fun _ => effect_binary rfl
  | lsli a n => exact ends_of_ordinary h fun _ => effect_unary rfl
  | lsr a b => exact ends_of_ordinary h fun _ => effect_binary rfl
  | lsri a n => exact ends_of_ordinary h fun _ => effect_unary rfl
  | asr a b => exact ends_of_ordinary h fun _ => effect_binary rfl
  | asri a n => exact ends_of_ordinary h fun _ => effect_unary rfl
  | mov a b => exact ends_of_ordinary h fun _ => effect_move (by simp [Instr.registers])
  | movi a n => exact ends_of_ordinary (show execMovi a n s = .next t from h) fun _ => effect_write rfl
  | and a b => exact ends_of_ordinary h fun _ => effect_logic rfl rfl
  | andn a b => exact ends_of_ordinary h fun _ => effect_logic rfl rfl
  | or a b => exact ends_of_ordinary h fun _ => effect_logic rfl rfl
  | xor a b => exact ends_of_ordinary h fun _ => effect_logic rfl rfl
  | bgen a n => exact ends_of_ordinary (show execBgen a n s = .next t from h) fun _ => effect_write rfl
  | ext8d a b => exact ends_of_ordinary h fun _ => effect_binary rfl
  | skp0 a n => exact ends_of_skip_register rfl h
  | skp1 a n => exact ends_of_skip_register rfl h
  | ld a b => exact ends_of_ordinary h fun _ => effect_load (by simp [Instr.registers])
  | st a b => exact ends_of_ordinary h fun _ => effect_storeWord rfl (by simp [Instr.registers])
  | ext16d a b => exact ends_of_ordinary h fun _ => effect_binary rfl
  | movhi a n => exact ends_of_ordinary (show execMovhi a n s = .next t from h) fun _ => effect_unary rfl
  | sts8s n => exact ends_of_ordinary h fun _ => effect_storeByte rfl rfl
  | sts16s n => exact ends_of_ordinary h fun _ => effect_storeHalf rfl rfl
  | ext8s a n => exact ends_of_ordinary h fun _ => effect_unary rfl
  | ext16s a n => exact ends_of_ordinary h fun _ => effect_unary rfl
  | st8s a n => exact ends_of_ordinary h fun _ => effect_storeByte rfl rfl
  | st16s a n => exact ends_of_ordinary h fun _ => effect_storeHalf rfl rfl
  | save n =>
    obtain ⟨-, hsp, -, -, hfits, hw⟩ := (execSave_next_iff _ _ _).1 h
    exact .save rfl hfits hsp _ hw
  | trap n =>
    obtain ⟨-, -, hfits, hw⟩ := (execTrap_next_iff _ _ _).1 h
    exact .trap rfl hfits hw
  | not a => exact ends_of_ordinary h fun _ => effect_unary rfl
  | neg a => exact ends_of_ordinary h fun _ => effect_unary rfl
  | abs a => exact ends_of_ordinary h fun _ => effect_unary rfl
  | sext8 a => exact ends_of_ordinary h fun _ => effect_unary rfl
  | sext16 a => exact ends_of_ordinary h fun _ => effect_unary rfl
  | rlc a => exact ends_of_ordinary (show execRlc a s = .next t from h) fun _ => effect_rotate rfl rfl
  | rrc a => exact ends_of_ordinary (show execRrc a s = .next t from h) fun _ => effect_rotate rfl rfl
  | swap a => exact ends_of_ordinary h fun _ => effect_unary rfl
  | restore =>
    obtain ⟨-, -, hfits, hw⟩ := (execRestore_next_iff _ _).1 h
    exact .restore rfl hfits hw
  | tret a =>
    obtain ⟨-, -, ha, rfl⟩ := (execTret_next_iff _ _ _).1 h
    exact .tret rfl ha
  | st8d a => exact ends_of_ordinary h fun _ => effect_storeByte rfl rfl
  | st16d a => exact ends_of_ordinary h fun _ => effect_storeHalf rfl rfl
  | fill8 a => exact ends_of_ordinary (show execFill8 a s = .next t from h) fun _ => effect_fill rfl
  | fill16 a => exact ends_of_ordinary (show execFill16 a s = .next t from h) fun _ => effect_fill rfl
  | mstep a => exact ends_of_ordinary h fun _ => effect_onR0 rfl
  | mul a => exact ends_of_ordinary h fun _ => effect_onR0 rfl
  | skprz a => exact ends_of_skip_register rfl h
  | skps c => exact ends_of_skipUnless rfl h
  | wrctl a =>
    obtain ⟨-, ha, hfits, u, hu, rfl⟩ := (execWrctl_next_iff _ _ _).1 h
    exact .wrctl rfl hfits ha hu
  | rdctl a => exact ends_of_ordinary (show execRdctl a s = .next t from h) fun _ => effect_rdctl
  | skprnz a => exact ends_of_skip_register rfl h
  | jmp a => exact ends_of_jumpTo rfl h
  | call a => exact ends_of_execCall h
  | br n => exact ends_of_execBr h
  | bsr n => exact ends_of_execBsr h
  | pfx n =>
    obtain ⟨-, -, -, hfits, rfl⟩ := (execPfx_next_iff _ _ _).1 h
    exact .pfx rfl hfits
  | stp p n a => exact ends_of_ordinary h fun _ => effect_storeWord rfl (by simp [Instr.registers, or_comm])
  | ldp p n a => exact ends_of_ordinary h fun _ => effect_load (by simp [Instr.registers])
  | sts n a => exact ends_of_ordinary h fun _ => effect_storeWord rfl (by simp [Instr.registers])
  | lds n a => exact ends_of_ordinary h fun _ => effect_load (by simp [Instr.registers])
  | nop => exact ends_of_ordinary h fun _ => effect_move (by simp [Instr.registers])
  | lret => exact ends_of_jumpTo rfl h
  | ret => exact ends_of_jumpTo rfl h
  | if0 a n => exact ends_of_skip_register rfl h
  | if1 a n => exact ends_of_skip_register rfl h
  | ifrnz a => exact ends_of_skip_register rfl h
  | ifrz a => exact ends_of_skip_register rfl h
  | ifs c => exact ends_of_skipUnless rfl h

end Sys2Proof.Proofs
end

section
/-! PROOFS. What exceptions and writes of control registers leave of a state, and from it and `Ends` the statements that
hold of every instruction: the invariant, K and PFXF, the flags, and the control registers (spec 10_state.md R27 to R44,
R89, 60_exceptions.md R278, R280). -/

namespace Sys2Proof.Proofs

open Sys2Proof.Machine

/-! ### Taking an exception -/

/-- What taking an exception leaves of `s`, and what it makes idle (R280). -/
structure EntryFrame (s t : State) : Prop where
  idle : Idle t
  pcEven : t.pc.getLsbD 0 = false
  flags : t.flags = s.flags
  wvalid : t.wvalid = s.wvalid
  cfg : t.cfg = s.cfg
  mem : t.mem = s.mem
  recentStores : t.recentStores = s.recentStores

theorem entryFrame_of_takeException {n : BitVec 6} {ret : CodeAddr} {isUnderflow : Bool} {s t : State}
    (h : takeException n ret isUnderflow s = .ok t) : EntryFrame s t := by
  obtain ⟨-, -, -, -, rfl⟩ := (takeException_ok_iff _ _ _ _ _).1 h
  exact ⟨idle_divert _ _, codeOfHalf_even _, by simp, rfl, rfl, rfl, rfl⟩

theorem entryFrame_of_interruptStep {n : BitVec 6} {s t : State} (h : interruptStep n s = .next t) :
    EntryFrame s t :=
  entryFrame_of_takeException ((outcome_next_iff _ _).1 h)

/-- A window exception that is not processed is dropped (R278, D16). -/
theorem windowException_eq_ok {arose isUnderflow : Bool} {n : BitVec 6} {s : State}
    (h : (arose && processes s n) = false) : windowException arose n isUnderflow s = .ok s := by
  simp [windowException, h]

/-- The end of a SAVE or RESTORE is the state it made, or a handler entered from there. -/
theorem eq_or_entryFrame_of_windowException {arose isUnderflow : Bool} {n : BitVec 6} {s t : State}
    (h : windowException arose n isUnderflow s = .ok t) : t = s ∨ EntryFrame s t := by
  unfold windowException at h
  split at h
  · exact .inr (entryFrame_of_takeException h)
  · exact .inl (Except.ok.inj h).symm

/-! ### Writing a control register -/

theorem writeControl_ok_iff (s : State) (k : BitVec 11) (v : Word) (u : State) :
    writeControl s k v = .ok u ↔
      (k = 0 ∧ u = { s with status := halfOf v 0 }) ∨
      (k = 1 ∧ u = { s with istatus := halfOf v 0 }) ∨
      (k = 2 ∧ u = if s.cfg.wvalidWritable then { s with wvalid := (v.extractLsb' 0 10).zeroExtend 16 } else s) ∨
      (k = 8 ∧ u = s.setIe false) ∨ (k = 9 ∧ u = s.setIe true) := by
  constructor
  · intro h
    unfold writeControl at h
    split at h
    case h_1 hk => exact .inl ⟨BitVec.eq_of_toNat_eq hk, (Except.ok.inj h).symm⟩
    case h_2 hk => exact .inr (.inl ⟨BitVec.eq_of_toNat_eq hk, (Except.ok.inj h).symm⟩)
    case h_3 hk => exact .inr (.inr (.inl ⟨BitVec.eq_of_toNat_eq hk, (Except.ok.inj h).symm⟩))
    case h_4 hk => exact .inr (.inr (.inr (.inl ⟨BitVec.eq_of_toNat_eq hk, (Except.ok.inj h).symm⟩)))
    case h_5 hk => exact .inr (.inr (.inr (.inr ⟨BitVec.eq_of_toNat_eq hk, (Except.ok.inj h).symm⟩)))
    case h_6 => cases h
  · rintro (⟨rfl, rfl⟩ | ⟨rfl, rfl⟩ | ⟨rfl, rfl⟩ | ⟨rfl, rfl⟩ | ⟨rfl, rfl⟩) <;> rfl

theorem cfg_of_writeControl {s u : State} {k : BitVec 11} {v : Word} (h : writeControl s k v = .ok u) :
    u.cfg = s.cfg := by
  rcases (writeControl_ok_iff _ _ _ _).1 h with ⟨-, rfl⟩ | ⟨-, rfl⟩ | ⟨-, rfl⟩ | ⟨-, rfl⟩ | ⟨-, rfl⟩
  · rfl
  · rfl
  · split <;> rfl
  · rfl
  · rfl

/-- Bits 15:10 of what WRCTL writes to WVALID are 0 (D17). -/
theorem extractLsb'_ten_of_zeroExtend (x : BitVec 10) : (x.zeroExtend 16).extractLsb' 10 6 = 0 := by
  apply BitVec.eq_of_getLsbD_eq
  intro i hi
  simp

/-! ### Memory, WVALID and the remembered stores -/

/-- The part of the invariant that an effect keeps and the end of the instruction turns into the invariant: a store
counts one instruction more until then (R89). -/
structure Storage (s : State) : Prop where
  memory : s.mem.wf = true
  wvalidHigh : s.wvalid.extractLsb' 10 6 = 0
  recent : ∀ r ∈ s.recentStores, r.left ≤ s.cfg.ifetchDistance + 1

theorem Storage.of_inv {s : State} (h : s.Inv) : Storage s :=
  ⟨h.memory, h.wvalidHigh, fun r hr => Nat.le_succ_of_le (h.recent r hr).2⟩

theorem Storage.of_writeControl {s u : State} {k : BitVec 11} {v : Word} (h : writeControl s k v = .ok u)
    (hs : Storage s) : Storage u := by
  obtain ⟨hmem, hhigh, hrecent⟩ := hs
  rcases (writeControl_ok_iff _ _ _ _).1 h with ⟨-, rfl⟩ | ⟨-, rfl⟩ | ⟨-, rfl⟩ | ⟨-, rfl⟩ | ⟨-, rfl⟩
  · exact ⟨hmem, hhigh, hrecent⟩
  · exact ⟨hmem, hhigh, hrecent⟩
  · split
    · exact ⟨hmem, extractLsb'_ten_of_zeroExtend _, hrecent⟩
    · exact ⟨hmem, hhigh, hrecent⟩
  · exact ⟨hmem, hhigh, hrecent⟩
  · exact ⟨hmem, hhigh, hrecent⟩

theorem wordAddr_lt (ea : Word) : wordAddr ea < 2 ^ 32 := (align32 ea).isLt

theorem byteAddr_lt (ea : Word) (n : BitVec 2) : byteAddr ea n < 2 ^ 32 + 3 := by
  have := wordAddr_lt ea
  have := n.isLt
  unfold byteAddr
  omega

theorem halfAddr_lt (ea : Word) (n : BitVec 1) : halfAddr ea n < 2 ^ 32 + 2 := by
  have := wordAddr_lt ea
  have := n.isLt
  unfold halfAddr
  omega

/-- The bytes of a store lie on the bus (R71). -/
theorem storesAt_le {i : Instr} {s : State} {x n : Nat} (h : i.storesAt s = some (x, n)) : x + n ≤ 2 ^ 33 := by
  have word (ea : Word) : wordAddr ea + 4 ≤ 2 ^ 33 := by have := wordAddr_lt ea; omega
  have byte (ea : Word) (l : BitVec 2) : byteAddr ea l + 1 ≤ 2 ^ 33 := by have := byteAddr_lt ea l; omega
  have half (ea : Word) (l : BitVec 1) : halfAddr ea l + 2 ≤ 2 ^ 33 := by have := halfAddr_lt ea l; omega
  cases i with
  | st a b => cases h; exact word _
  | stp p m a => cases h; exact word _
  | sts m a => cases h; exact word _
  | st8d a => cases h; exact byte _ _
  | st8s a m => cases h; exact byte _ _
  | sts8s m => cases h; exact byte _ _
  | st16d a => cases h; exact half _ _
  | st16s a m => cases h; exact half _ _
  | sts16s m => cases h; exact half _ _
  | _ => cases h

theorem Update.storage {i : Instr} {s u : State} (h : Update i s u) (hs : Storage s) : Storage u := by
  induction h with
  | nothing => exact hs
  | register _ r v ih => exact ⟨ih.memory, ih.wvalidHigh, ih.recent⟩
  | flags _ _ f ih => exact ⟨ih.memory, ih.wvalidHigh, ih.recent⟩
  | read _ x n ih => exact ⟨ih.memory, ih.wvalidHigh, ih.recent⟩
  | draw _ ih => exact ⟨ih.memory, ih.wvalidHigh, ih.recent⟩
  | store hat =>
    refine ⟨wf_writeBytes _ _ _ _ hs.memory (storesAt_le hat), hs.wvalidHigh, fun r hr => ?_⟩
    rcases List.mem_cons.1 hr with rfl | hr
    · exact Nat.le_refl _
    · exact hs.recent r hr

/-- Aging takes one instruction off every remembered store and forgets those with none to go (R89). -/
theorem left_of_mem_ageStores {l : List RecentStore} {r : RecentStore} (h : r ∈ ageStores l) :
    0 < r.left ∧ ∃ q ∈ l, r.left = q.left - 1 := by
  simp only [ageStores, List.mem_filter, List.mem_map, decide_eq_true_eq] at h
  obtain ⟨⟨q, hq, rfl⟩, hpos⟩ := h
  exact ⟨hpos, q, hq, rfl⟩

theorem Storage.inv_retire {s : State} (h : Storage s) {p : CodeAddr} (hp : p.getLsbD 0 = false) :
    (s.retire p).Inv where
  memory := h.memory
  pcEven := hp
  targetEven := by simp
  wvalidHigh := h.wvalidHigh
  kIdle := fun _ => rfl
  prefixed := by simp
  nopAlone := by simp
  recent := fun r hr => by
    obtain ⟨hpos, q, hq, hleft⟩ := left_of_mem_ageStores hr
    have hqleft := h.recent q hq
    exact ⟨hpos, by simp only [State.retire_cfg]; omega⟩

/-! ### The invariant -/

theorem EntryFrame.inv {s t : State} (h : EntryFrame s t) (hs : s.Inv) : t.Inv where
  memory := by rw [h.mem]; exact hs.memory
  pcEven := h.pcEven
  targetEven := by simp [h.idle.bt]
  wvalidHigh := by rw [h.wvalid]; exact hs.wvalidHigh
  kIdle := fun _ => h.idle.k
  prefixed := by simp [h.idle.pfxf]
  nopAlone := fun _ => h.idle.bt
  recent := by rw [h.recentStores, h.cfg]; exact hs.recent

theorem inv_of_windowException {arose isUnderflow : Bool} {n : BitVec 6} {s t : State}
    (h : windowException arose n isUnderflow s = .ok t) (hs : s.Inv) : t.Inv := by
  rcases eq_or_entryFrame_of_windowException h with rfl | hentry
  · exact hs
  · exact hentry.inv hs

theorem followPc_even {s : State} (h : s.Inv) : s.followPc.getLsbD 0 = false := by
  unfold State.followPc
  split
  · exact h.targetEven _ ‹_›
  · exact evenWith_add s (n := 2) rfl h.pcEven

theorem Ends.inv {i : Instr} {s t : State} (h : Ends i s t) (hs : s.Inv) : t.Inv := by
  have hstore := Storage.of_inv hs
  have hpc2 : (s.pc + 2).getLsbD 0 = false := evenWith_add s (n := 2) rfl hs.pcEven
  cases h with
  | follows _ he => exact (he.update.storage hstore).inv_retire (followPc_even hs)
  | transfers _ _ he hp =>
    have hend := (he.update.storage hstore).inv_retire hpc2
    exact { hend with
      targetEven := fun q hq => by cases hq; exact hp hs.pcEven
      prefixed := by simp
      nopAlone := by simp }
  | skips _ he hp => exact (he.update.storage hstore).inv_retire (hp hs.pcEven)
  | pfx =>
    have hend := hstore.inv_retire hpc2
    exact { hend with
      kIdle := by simp
      prefixed := fun _ => ⟨rfl, rfl⟩ }
  | save _ _ _ v hw =>
    have hmoved : Storage ((s.setCwp (s.cwp - 1)).setReg spReg v) := ⟨hs.memory, hs.wvalidHigh, hstore.recent⟩
    exact inv_of_windowException hw (hmoved.inv_retire (followPc_even hs))
  | restore _ _ hw =>
    have hmoved : Storage (s.setCwp (s.cwp + 1)) := ⟨hs.memory, hs.wvalidHigh, hstore.recent⟩
    exact inv_of_windowException hw (hmoved.inv_retire (followPc_even hs))
  | trap _ _ hw => exact (entryFrame_of_takeException hw).inv (hstore.inv_retire hpc2)
  | tret =>
    have hrestored : Storage { s with status := s.istatus } := ⟨hs.memory, hs.wvalidHigh, hstore.recent⟩
    exact hrestored.inv_retire (codeOfHalf_even _)
  | wrctl _ _ _ hu =>
    have hend := (Storage.of_writeControl hu hstore).inv_retire (followPc_even hs)
    exact { hend with
      prefixed := by simp
      nopAlone := fun _ => rfl }

theorem cfg_of_windowException {arose isUnderflow : Bool} {n : BitVec 6} {s t : State}
    (h : windowException arose n isUnderflow s = .ok t) : t.cfg = s.cfg := by
  rcases eq_or_entryFrame_of_windowException h with rfl | hentry
  · rfl
  · exact hentry.cfg

theorem Ends.cfg_eq {i : Instr} {s t : State} (h : Ends i s t) : t.cfg = s.cfg := by
  cases h with
  | follows _ he => exact he.update.keepsControl.cfg
  | transfers _ _ he _ => exact he.update.keepsControl.cfg
  | skips _ he _ => exact he.update.keepsControl.cfg
  | pfx => rfl
  | save _ _ _ v hw => exact (cfg_of_windowException hw :)
  | restore _ _ hw => exact (cfg_of_windowException hw :)
  | trap _ _ hw => exact (entryFrame_of_takeException hw).cfg
  | tret => rfl
  | wrctl _ _ _ hu => exact (cfg_of_writeControl hu :)

theorem inv_afterRead {s : State} (h : s.Inv) (x n : Nat) : (s.afterRead x n).Inv :=
  ⟨h.memory, h.pcEven, h.targetEven, h.wvalidHigh, h.kIdle, h.prefixed, h.nopAlone, h.recent⟩

/-- A write of the environment is remembered for IFETCH_DISTANCE instructions (log 44). -/
theorem left_of_mem_freshWrites {d : Nat} {l : List BusWrite} {r : RecentStore} (h : r ∈ freshWrites d l) :
    0 < r.left ∧ r.left ≤ d := by
  unfold freshWrites at h
  split at h
  · obtain ⟨w, -, rfl⟩ := List.mem_map.1 h
    exact ⟨‹_›, Nat.le_refl _⟩
  · cases h

theorem inv_sampled {s : State} (h : s.Inv) : s.sampled.Inv where
  memory := wf_landWrites _ _ h.memory
  pcEven := h.pcEven
  targetEven := h.targetEven
  wvalidHigh := h.wvalidHigh
  kIdle := h.kIdle
  prefixed := h.prefixed
  nopAlone := h.nopAlone
  recent := fun r hr => by
    rcases List.mem_append.1 hr with hr | hr
    · exact left_of_mem_freshWrites hr
    · exact h.recent r hr

theorem state_of_fetchInstr {s t : State} {i : Instr} (h : fetchInstr s = .ok (i, t)) :
    t = s.afterRead s.pc.toNat 2 := by
  unfold fetchInstr at h
  obtain ⟨⟨w, u⟩, hfetch, h⟩ := (res_bind_ok_iff _ _ _).1 h
  obtain ⟨-, -, -, rfl⟩ := (fetchWord_ok_iff _ _ _ _).1 hfetch
  dsimp only at h
  split at h
  · obtain ⟨_, -, h⟩ := (res_bind_ok_iff _ _ _).1 h
    cases h
    rfl
  · cases h

/-- A step that has a next state takes an interrupt or runs an instruction, after the environment has acted (R11). -/
theorem step_next {s t : State} (h : step s = .next t) :
    (∃ n, interruptStep n s.sampled = .next t) ∨ ∃ i, exec i (s.sampled.afterRead s.pc.toNat 2) = .next t := by
  unfold step at h
  split at h
  · exact .inl ⟨_, h⟩
  · right
    unfold instructionStep at h
    split at h
    · next i u hfetch =>
      rw [state_of_fetchInstr hfetch] at h
      exact ⟨i, h⟩
    · cases h

/-- Settles O13: the environment's acts and the fetch keep the invariant, and so do entering a handler and each way in
which an instruction ends. -/
theorem everyStepKeepsInvariant : Obligations.EveryStepKeepsInvariant := by
  intro s t h
  rcases step_next h with ⟨n, hint⟩ | ⟨i, hexec⟩
  · have hentry := entryFrame_of_interruptStep hint
    exact ⟨fun hs => hentry.inv (inv_sampled hs), hentry.cfg⟩
  · have hends := ends_of_exec hexec
    exact ⟨fun hs => hends.inv (inv_afterRead (inv_sampled hs) _ _), hends.cfg_eq⟩

/-! ### K and PFXF -/

theorem kIdle_of_windowException {arose isUnderflow : Bool} {n : BitVec 6} {s t : State}
    (h : windowException arose n isUnderflow s = .ok t) (hs : Idle s) : t.k = 0 ∧ t.pfxf = false := by
  rcases eq_or_entryFrame_of_windowException h with rfl | hentry
  · exact ⟨hs.k, hs.pfxf⟩
  · exact ⟨hentry.idle.k, hentry.idle.pfxf⟩

/-- Settles O14: every end but PFX's clears K and PFXF. -/
theorem onlyPfxLeavesK : Obligations.OnlyPfxLeavesK := by
  refine ⟨fun i s t hi h => ?_, fun n s t h => ?_, fun n s t h => ?_⟩
  · cases ends_of_exec h with
    | follows => exact ⟨rfl, rfl⟩
    | transfers => exact ⟨rfl, rfl⟩
    | skips => exact ⟨rfl, rfl⟩
    | pfx hpfx => exact absurd hpfx (hi _)
    | save _ _ _ v hw => exact kIdle_of_windowException hw (idle_retire _ _)
    | restore _ _ hw => exact kIdle_of_windowException hw (idle_retire _ _)
    | trap _ _ hw =>
      have hidle := (entryFrame_of_takeException hw).idle
      exact ⟨hidle.k, hidle.pfxf⟩
    | tret => exact ⟨rfl, rfl⟩
    | wrctl => exact ⟨rfl, rfl⟩
  · obtain ⟨-, -, -, -, rfl⟩ := (execPfx_next_iff _ _ _).1 h
    exact ⟨rfl, rfl⟩
  · have hidle := (entryFrame_of_interruptStep h).idle
    exact ⟨hidle.k, hidle.pfxf⟩

/-! ### The control registers -/

/-- The ends of the instructions that write no field of a control register but flags (R25, R34 to R39). -/
theorem Ends.keepsControl {i : Instr} {s t : State} (h : Ends i s t) (hi : i.writesControl = false) :
    KeepsControl s t := by
  cases h with
  | follows _ he => exact keepsControl_retire he.update.keepsControl _
  | transfers _ _ he _ =>
    have hend := keepsControl_retire he.update.keepsControl (s.pc + 2)
    exact ⟨hend.cfg, hend.ie, hend.ipri, hend.cwp, hend.istatus, hend.wvalid, hend.irqInputs, hend.busWrites⟩
  | skips _ he _ => exact keepsControl_retire he.update.keepsControl _
  | pfx => exact ⟨rfl, rfl, rfl, rfl, rfl, rfl, rfl, rfl⟩
  | save hi' => subst hi'; cases hi
  | restore hi' => subst hi'; cases hi
  | trap hi' => subst hi'; cases hi
  | tret hi' => subst hi'; cases hi
  | wrctl hi' => subst hi'; cases hi

theorem wvalid_of_windowException {arose isUnderflow : Bool} {n : BitVec 6} {s t : State}
    (h : windowException arose n isUnderflow s = .ok t) : t.wvalid = s.wvalid := by
  rcases eq_or_entryFrame_of_windowException h with rfl | hentry
  · rfl
  · exact hentry.wvalid

/-- Only K = 2 writes WVALID, and only where it can be written (R39). -/
theorem wvalid_of_writeControl {s u : State} {k : BitVec 11} {v : Word} (h : writeControl s k v = .ok u)
    (hk : k ≠ 2 ∨ s.cfg.wvalidWritable = false) : u.wvalid = s.wvalid := by
  rcases (writeControl_ok_iff _ _ _ _).1 h with ⟨-, rfl⟩ | ⟨-, rfl⟩ | ⟨hk2, rfl⟩ | ⟨-, rfl⟩ | ⟨-, rfl⟩
  · rfl
  · rfl
  · simp [hk.resolve_left (absurd hk2)]
  · rfl
  · rfl

/-- Only K = 1 writes ISTATUS (R259). -/
theorem istatus_of_writeControl {s u : State} {k : BitVec 11} {v : Word} (h : writeControl s k v = .ok u)
    (hk : k ≠ 1) : u.istatus = s.istatus := by
  rcases (writeControl_ok_iff _ _ _ _).1 h with ⟨-, rfl⟩ | ⟨hk1, -⟩ | ⟨-, rfl⟩ | ⟨-, rfl⟩ | ⟨-, rfl⟩
  · rfl
  · exact absurd hk1 hk
  · split <;> rfl
  · rfl
  · rfl

theorem Ends.wvalid_eq {i : Instr} {s t : State} (h : Ends i s t)
    (hi : (∀ a, i ≠ .wrctl a) ∨ s.k ≠ 2 ∨ s.cfg.wvalidWritable = false) : t.wvalid = s.wvalid := by
  cases h with
  | follows _ he => exact he.update.keepsControl.wvalid
  | transfers _ _ he _ => exact he.update.keepsControl.wvalid
  | skips _ he _ => exact he.update.keepsControl.wvalid
  | pfx => rfl
  | save _ _ _ v hw => exact (wvalid_of_windowException hw :)
  | restore _ _ hw => exact (wvalid_of_windowException hw :)
  | trap _ _ hw => exact (entryFrame_of_takeException hw).wvalid
  | tret => rfl
  | wrctl hwrctl _ _ hu => exact (wvalid_of_writeControl hu (hi.resolve_left fun hne => hne _ hwrctl) :)

/-- Settles O17: the frame of every effect, and the three register writes of WRCTL. -/
theorem controlRegistersHaveFiveWriters : Obligations.ControlRegistersHaveFiveWriters := by
  intro i s t h
  refine ⟨(ends_of_exec h).keepsControl, (ends_of_exec h).wvalid_eq, ?_⟩
  rintro (⟨a, rfl⟩ | ⟨a, rfl, hk⟩)
  · obtain ⟨-, -, -, rfl⟩ := (execTret_next_iff _ _ _).1 h
    rfl
  · obtain ⟨-, -, -, u, hu, rfl⟩ := (execWrctl_next_iff _ _ _).1 h
    exact (istatus_of_writeControl hu hk :)

end Sys2Proof.Proofs
end

section
/-! PROOFS. The flags after each row of the flag table, and what they say of two compared registers (spec 10_state.md
R37 to R44, 44_control.md R236). -/

namespace Sys2Proof.Proofs

open Sys2Proof.Machine

/-! ### Every instruction outside the table -/

theorem flags_of_windowException {arose isUnderflow : Bool} {n : BitVec 6} {s t : State}
    (h : windowException arose n isUnderflow s = .ok t) : t.flags = s.flags := by
  rcases eq_or_entryFrame_of_windowException h with rfl | hentry
  · rfl
  · exact hentry.flags

theorem Ends.flags_eq {i : Instr} {s t : State} (h : Ends i s t) (hrow : i.inFlagTable = false) :
    t.flags = s.flags := by
  cases h with
  | follows _ he => exact he.update.flags_eq hrow
  | transfers _ _ he _ => exact he.update.flags_eq hrow
  | skips _ he _ => exact he.update.flags_eq hrow
  | pfx => rfl
  | save _ _ _ v hw => exact (flags_of_windowException hw).trans (flags_setCwp s _)
  | restore _ _ hw => exact (flags_of_windowException hw).trans (flags_setCwp s _)
  | trap _ _ hw => exact (entryFrame_of_takeException hw).flags
  | tret hi => subst hi; cases hrow
  | wrctl hi => subst hi; cases hrow

/-! ### The rows of the table -/

theorem flags_of_arith {a : RegIdx} {y : State → Res Word} {op : Word → Word → Word} {fl : Word → Word → Flags}
    {s t : State} (h : (ordinary false s fun s => arithEffect a (y s) op fl s) = .next t) :
    ∃ v, y s = .ok v ∧ t.flags = fl (s.reg a) v := by
  obtain ⟨-, -, u, hu, rfl⟩ := (ordinary_next_iff _ _ _ _).1 h
  obtain ⟨-, v, hv, rfl⟩ := (arithEffect_ok_iff _ _ _ _ _ _).1 hu
  exact ⟨v, hv, by simp⟩

theorem flags_of_arith_reg {a b : RegIdx} {op : Word → Word → Word} {fl : Word → Word → Flags} {s t : State}
    (h : (ordinary false s fun s => arithEffect a (readReg s b) op fl s) = .next t) :
    t.flags = fl (s.reg a) (s.reg b) := by
  obtain ⟨v, hv, hflags⟩ := flags_of_arith h
  obtain ⟨-, rfl⟩ := (readReg_ok_iff _ _ _).1 hv
  exact hflags

theorem flags_of_arith_imm {a : RegIdx} {n : BitVec 5} {op : Word → Word → Word} {fl : Word → Word → Flags}
    {s t : State} (h : (ordinary false s fun s => arithEffect a (.ok (imm16 s.k n)) op fl s) = .next t) :
    t.flags = fl (s.reg a) (imm16 s.k n) := by
  obtain ⟨v, hv, hflags⟩ := flags_of_arith h
  cases hv
  exact hflags

theorem flags_of_execCmp {a b : RegIdx} {s t : State} (h : execCmp a b s = .next t) :
    t.flags = flagsSub (s.reg a) (s.reg b) := by
  obtain ⟨-, -, u, hu, rfl⟩ := (ordinary_next_iff _ _ _ _).1 h
  obtain ⟨-, v, hv, rfl⟩ := (compareEffect_ok_iff _ _ _ _).1 hu
  obtain ⟨-, rfl⟩ := (readReg_ok_iff _ _ _).1 hv
  simp

theorem flags_of_execCmpi {a : RegIdx} {n : BitVec 5} {s t : State} (h : execCmpi a n s = .next t) :
    t.flags = flagsSub (s.reg a) (imm16 s.k n) := by
  obtain ⟨-, -, u, hu, rfl⟩ := (ordinary_next_iff _ _ _ _).1 h
  obtain ⟨-, v, hv, rfl⟩ := (compareEffect_ok_iff _ _ _ _).1 hu
  cases hv
  simp

/-- N and Z are the result's, which stands in the register; V and C are kept (R41). -/
theorem flags_of_logic {a b : RegIdx} {op : Word → Word → Word} {s t : State}
    (h : ordinary false s (logicEffect a b op) = .next t) : t.flags = flagsNZ (t.reg a) s.flags := by
  obtain ⟨-, -, u, hu, rfl⟩ := (ordinary_next_iff _ _ _ _).1 h
  obtain ⟨ha, v, -, rfl⟩ := (logicEffect_ok_iff _ _ _ _ _).1 hu
  simp [ha]

/-- A rotate carries one bit out and keeps the other flags (R171, R172). -/
theorem flags_of_rotate {a : RegIdx} {rot : State → Word → Word} {fl : State → Word → Flags} {s t : State}
    (h : (ordinary false s fun s => do
      let x ← readReg s a
      let t ← writeReg s a (rot s x)
      return t.setFlags (fl s x)) = .next t) : t.flags = fl s (s.reg a) := by
  obtain ⟨-, -, u, hu, rfl⟩ := (ordinary_next_iff _ _ _ _).1 h
  simp only [res_bind_ok_iff, readReg_ok_iff, writeReg_ok_iff, res_pure] at hu
  obtain ⟨_, ⟨-, rfl⟩, _, ⟨-, rfl⟩, hu⟩ := hu
  cases hu
  simp

theorem flags_of_execRlc {a : RegIdx} {s t : State} (h : execRlc a s = .next t) :
    t.flags = { s.flags with c := (s.reg a).getLsbD 31 } :=
  flags_of_rotate (fl := fun s x => { s.flags with c := x.getLsbD 31 }) h

theorem flags_of_execRrc {a : RegIdx} {s t : State} (h : execRrc a s = .next t) :
    t.flags = { s.flags with c := (s.reg a).getLsbD 0 } :=
  flags_of_rotate (fl := fun s x => { s.flags with c := x.getLsbD 0 }) h

/-- Of the control registers only STATUS holds the flags (R33, R259). -/
theorem flags_of_writeControl {s u : State} {k : BitVec 11} {v : Word} (h : writeControl s k v = .ok u) :
    u.flags = if k = 0 then flagsOf (v.extractLsb' 0 16) else s.flags := by
  rcases (writeControl_ok_iff _ _ _ _).1 h with ⟨rfl, rfl⟩ | ⟨rfl, rfl⟩ | ⟨rfl, rfl⟩ | ⟨rfl, rfl⟩ | ⟨rfl, rfl⟩
  · rfl
  · rfl
  · split <;> rfl
  · exact flags_setIe s false
  · exact flags_setIe s true

theorem flags_of_execWrctl {a : RegIdx} {s t : State} (h : execWrctl a s = .next t) :
    t.flags = if s.k = 0 then flagsOf ((s.reg a).extractLsb' 0 16) else s.flags := by
  obtain ⟨-, -, -, u, hu, rfl⟩ := (execWrctl_next_iff _ _ _).1 h
  exact (flags_of_writeControl hu :)

theorem flags_of_execTret {a : RegIdx} {s t : State} (h : execTret a s = .next t) :
    t.flags = flagsOf s.istatus := by
  obtain ⟨-, -, -, rfl⟩ := (execTret_next_iff _ _ _).1 h
  rfl

/-- Settles O15: one lemma a row, and the ends of the instructions outside the table. -/
theorem flagsChangeByTheTable : Obligations.FlagsChangeByTheTable := by
  intro i s t h
  refine ⟨(ends_of_exec h).flags_eq, ?add, ?addi, ?sub, ?subi, ?logic, ?rlc, ?rrc, ?wrctl, ?tret⟩
  case add => rintro a b rfl; exact flags_of_arith_reg h
  case addi => rintro a n rfl; exact flags_of_arith_imm (show execAddi a n s = .next t from h)
  case sub =>
    rintro a b (rfl | rfl)
    · exact flags_of_arith_reg h
    · exact flags_of_execCmp h
  case subi =>
    rintro a n (rfl | rfl)
    · exact flags_of_arith_imm (show execSubi a n s = .next t from h)
    · exact flags_of_execCmpi h
  case logic =>
    intro a b hi
    have hflags : t.flags = flagsNZ (t.reg a) s.flags := by
      rcases hi with rfl | rfl | rfl | rfl
      · exact flags_of_logic h
      · exact flags_of_logic h
      · exact flags_of_logic h
      · exact flags_of_logic h
    rw [hflags]
    exact ⟨rfl, rfl, rfl, rfl⟩
  case rlc => rintro a rfl; exact flags_of_execRlc h
  case rrc => rintro a rfl; exact flags_of_execRrc h
  case wrctl => rintro a rfl; exact flags_of_execWrctl h
  case tret => rintro a rfl; exact flags_of_execTret h

/-! ### The flags of a difference -/

theorem imm16_toNat (k : BitVec 11) (n : BitVec 5) : (imm16 k n).toNat = 32 * k.toNat + n.toNat := by
  have hk := k.isLt
  have hn := n.isLt
  simp only [imm16, BitVec.zeroExtend, BitVec.toNat_setWidth, BitVec.toNat_append]
  rw [← Nat.shiftLeft_add_eq_or_of_lt hn, Nat.shiftLeft_eq]
  omega

/-- A word with the number of `K : IMM5` is that immediate (R105, R106). -/
theorem eq_imm16 {k : BitVec 11} {n : BitVec 5} {y : Word} (h : y.toNat = 32 * k.toNat + n.toNat) :
    y = imm16 k n :=
  BitVec.eq_of_toNat_eq (h.trans (imm16_toNat k n).symm)

/-- Settles O16: the rows SUB, CMP, SUBI and CMPI of the flag table, read bit by bit. -/
theorem flagsOfADifference : Obligations.FlagsOfADifference := by
  intro i s t a y h hi
  obtain ⟨-, -, -, hreg, himm, -⟩ := flagsChangeByTheTable i s t h
  have hflags : t.flags = flagsSub (s.reg a) y := by
    rcases hi with ⟨b, hi, rfl⟩ | ⟨n, hi, hy⟩
    · exact hreg a b hi
    · rw [eq_imm16 hy]
      exact himm a n hi
  rw [hflags]
  exact ⟨(BitVec.msb_eq_getLsbD_last (s.reg a - y) :), rfl, rfl, by simp [flagsSub, BitVec.msb_eq_getLsbD_last]⟩

/-! ### Conditions after a comparison -/

theorem z_flagsSub (x y : Word) : (flagsSub x y).z = decide (x = y) := by
  simp [flagsSub, Bool.beq_eq_decide_eq, BitVec.sub_eq_iff_eq_add]

theorem c_flagsSub (x y : Word) : (flagsSub x y).c = decide (x.toNat < y.toNat) := rfl

/-- N and V of a difference differ exactly when the first operand is below the second as signed numbers (R43). -/
theorem n_xor_v_flagsSub (x y : Word) :
    ((flagsSub x y).n ^^ (flagsSub x y).v) = decide (x.toInt < y.toInt) := by
  have hx := x.isLt
  have hy := y.isLt
  by_cases hs : x.msb = y.msb
  · have hn : (x - y).msb = decide (x.toInt < y.toInt) := by
      simp only [BitVec.msb_eq_decide, decide_eq_decide] at hs ⊢
      simp only [BitVec.toInt_eq_toNat_cond, BitVec.toNat_sub]
      split <;> split <;> omega
    simp [flagsSub, hs, hn]
  · have hlt : decide (x.toInt < y.toInt) = x.msb := by
      simp only [BitVec.msb_eq_decide, decide_eq_decide] at hs ⊢
      simp only [BitVec.toInt_eq_toNat_cond]
      split <;> split <;> omega
    have hdiffer : (x.msb != y.msb) = true := by simpa using hs
    simp [flagsSub, hlt, hdiffer]

/-- Settles O45: each condition in terms of Z, C and N xor V of the difference. -/
theorem conditionsAfterCompare : Obligations.ConditionsAfterCompare := by
  intro s t a b h
  have hz := z_flagsSub (s.reg a) (s.reg b)
  have hc := c_flagsSub (s.reg a) (s.reg b)
  have hlt := n_xor_v_flagsSub (s.reg a) (s.reg b)
  have hzInt : _ = decide ((s.reg a).toInt = (s.reg b).toInt) := hz.trans (by simp only [BitVec.toInt_inj])
  have hzNat : _ = decide ((s.reg a).toNat = (s.reg b).toNat) := hz.trans (by simp only [BitVec.toNat_inj])
  rw [flags_of_execCmp h]
  refine ⟨congrArg some hz, congrArg some ?ne, congrArg some hlt, congrArg some ?sge, congrArg some ?sgt,
    congrArg some ?sle, congrArg some hc, congrArg some ?uge, congrArg some ?ugt, congrArg some ?ule⟩
  case ne => rw [hz, decide_not]
  case sge => rw [hlt, ← decide_not, decide_eq_decide]; omega
  case sgt => rw [hzInt, hlt, ← Bool.decide_or, ← decide_not, decide_eq_decide]; omega
  case sle => rw [hzInt, hlt, ← Bool.decide_or, decide_eq_decide]; omega
  case uge => rw [hc, ← decide_not, decide_eq_decide]; omega
  case ugt => rw [hzNat, hc, ← Bool.decide_or, ← decide_not, decide_eq_decide]; omega
  case ule => rw [hzNat, hc, ← Bool.decide_or, decide_eq_decide]; omega

end Sys2Proof.Proofs
end

section
/-! PROOFS. Reset, and single instructions from a state in which they can run: the logical operations, MOV, NOP, PFX,
RDCTL and WRCTL (spec 10_state.md R40, R49, R50, 41_logic_shift.md, 42_move_extract.md, 45_system.md). -/

namespace Sys2Proof.Proofs

open Sys2Proof.Machine

/-! ### Reset -/

/-- STATUS after reset from its fields (R50). -/
theorem resetStatus_eq_packStatus (f : RegFile) :
    resetStatus f = packStatus false 63 (BitVec.ofNat 5 f.maxWindow) ⟨false, false, false, false⟩ := by
  cases f <;> rfl

/-- The highest mapped window fits the five bits of CWP and HI_LIMIT (R4, R36). -/
theorem toNat_ofNat_maxWindow (f : RegFile) : (BitVec.ofNat 5 f.maxWindow).toNat = f.size / 16 - 2 := by
  cases f <;> rfl

theorem loLimitOf_resetWvalid (f : RegFile) : loLimitOf (resetWvalid f) = 1 := by cases f <;> decide

theorem hiLimitOf_resetWvalid (f : RegFile) : hiLimitOf (resetWvalid f) = BitVec.ofNat 5 f.maxWindow := by
  cases f <;> decide

theorem resetWvalid_high (f : RegFile) : (resetWvalid f).extractLsb' 10 6 = 0 := by cases f <;> decide

/-- Settles O11: the fields of the packed STATUS and WVALID, for each size of the register file. -/
theorem resetValuesTheSourceStates : Obligations.ResetValuesTheSourceStates := by
  intro c
  have hstatus : (State.resetWith c).status = _ := resetStatus_eq_packStatus c.regFile
  refine ⟨?ie, ?ipri, ?cwp, rfl, loLimitOf_resetWvalid _, ?hi, ?regs256⟩
  case ie => rw [State.ie, hstatus, ieOf_packStatus]
  case ipri => rw [State.ipri, hstatus, ipriOf_packStatus]
  case cwp => rw [State.cwp, hstatus, cwpOf_packStatus, toNat_ofNat_maxWindow]
  case hi => exact (congrArg BitVec.toNat (hiLimitOf_resetWvalid _)).trans (toNat_ofNat_maxWindow _)
  case regs256 =>
    intro h256
    simp only [State.resetWith, h256]
    decide

theorem inv_resetWith {c : Config} (h : c.legal = true) : (State.resetWith c).Inv where
  memory := wf_reset_mem c
  pcEven := by
    simp only [Config.legal, Bool.and_eq_true, beq_iff_eq] at h
    obtain ⟨⟨-, heven⟩, -⟩ := h
    exact (getLsbD_zero_eq_false_iff _).2 heven
  targetEven := by simp [State.resetWith]
  wvalidHigh := resetWvalid_high _
  kIdle := fun _ => rfl
  prefixed := by simp [State.resetWith]
  nopAlone := by simp [State.resetWith]
  recent := by simp [State.resetWith]

theorem platform_legal : platform.legal = true := by decide

/-- Settles O12: of the parameters only the evenness of the reset address enters. -/
theorem resetSatisfiesInvariant : Obligations.ResetSatisfiesInvariant :=
  ⟨inv_resetWith platform_legal, platform_legal, fun _ h => inv_resetWith h⟩

/-! ### AND, ANDN, OR and XOR -/

theorem logicFlags_flagsNZ (r : Word) (old : Flags) : LogicFlags r old (flagsNZ r old) := by
  refine ⟨(BitVec.msb_eq_toInt (x := r) :), ?_, rfl, rfl⟩
  rw [Bool.eq_iff_iff]
  simp [flagsNZ, ← BitVec.toNat_inj]

/-- A logical instruction with its second operand at hand (R41). -/
theorem logic_next {i : Instr} {s : State} {a b : RegIdx} {op : Word → Word → Word} {y : Word}
    (hexec : exec i s = ordinary false s (logicEffect a b op)) (hs : s.Ready) (ha : s.reachable a = true)
    (hy : operandTwo s b = .ok y) :
    ∃ t, exec i s = .next t ∧ t.reg a = op (s.reg a) y ∧ LogicFlags (t.reg a) s.flags t.flags ∧ WritesOnly s t a ∧
      Follows s t := by
  have heffect := (logicEffect_ok_iff a b op s _).2 ⟨ha, y, hy, rfl⟩
  have hreg : (((s.setReg a (op (s.reg a) y)).setFlags (flagsNZ (op (s.reg a) y) s.flags)).retire s.followPc).reg a =
      op (s.reg a) y := by simp [ha]
  refine ⟨_, hexec.trans (ordinary_eq false hs heffect), hreg, ?_, writesOnly_setReg_setFlags _ _ _ _ _,
    follows_retire _ _⟩
  rw [hreg, flags_retire, flags_setFlags]
  exact logicFlags_flagsNZ _ _

/-- Settles O23: the second operand is the register or the immediate, and the four operations are one lemma. -/
theorem logicOfTwoOperands : Obligations.LogicOfTwoOperands := by
  intro s a b y hs ha hb
  have hy : operandTwo s b = .ok y := by
    refine (operandTwo_ok_iff _ _ _).2 ?_
    rcases hb with hreg | ⟨hp, hy⟩
    · exact .inr hreg
    · exact .inl ⟨hp, eq_imm16 hy⟩
  exact ⟨logic_next (op := (· &&& ·)) rfl hs ha hy, logic_next (op := fun x y => x &&& ~~~y) rfl hs ha hy,
    logic_next (op := (· ||| ·)) rfl hs ha hy, logic_next (op := (· ^^^ ·)) rfl hs ha hy⟩

/-! ### MOV and NOP -/

/-- Writing a register's own value changes nothing. -/
theorem setReg_reg_self (s : State) (i : RegIdx) : s.setReg i (s.reg i) = s := by
  simp only [State.setReg, State.setPhys, State.reg, State.phys]
  split
  · simp
  · rfl

/-- NOP ends as it began, but for the pc and the hidden state (R195). -/
theorem execNop_next {s : State} (hfits : s.bt = none → s.pcFits 2) :
    execNop s = .next (s.retire s.followPc) := by
  refine (ordinary_next_iff _ _ _ _).2 ⟨.inr rfl, hfits, s, ?_, rfl⟩
  exact (moveEffect_ok_iff _ _ _ _).2 ⟨reachable_zero s, reachable_zero s, (setReg_reg_self s 0).symm⟩

/-- Settles O27: MOV writes one register, and NOP writes `%r0` back to itself, whether a NOP is owed or not. -/
theorem movCopiesAndNopIdles : Obligations.MovCopiesAndNopIdles := by
  intro s hfits
  constructor
  · intro a b hn ha hb
    have heffect := (moveEffect_ok_iff a b s _).2 ⟨ha, hb, rfl⟩
    exact ⟨_, ordinary_eq _ ⟨hn, hfits⟩ heffect, by simp [ha], writesOnly_setReg _ _ _ _, rfl, follows_retire _ _⟩
  · exact ⟨_, execNop_next hfits, execNop_next hfits, writesNothing_retire _ _, rfl, follows_retire _ _⟩

/-! ### PFX -/

/-- Settles O28: the frame of PFX's end, with K and PFXF set after it. -/
theorem pfxLoadsK : Obligations.PfxLoadsK := by
  rintro s n ⟨hn, hb⟩ hp hfits
  have hnext := (execPfx_next_iff n s _).2 ⟨hn, hb, hp, hfits, rfl⟩
  have control := (ends_of_exec (i := .pfx n) hnext).keepsControl rfl
  exact ⟨_, hnext, rfl, rfl, rfl, rfl, rfl, ⟨fun _ _ => rfl, ⟨fun _ => rfl, rfl⟩, control, rfl⟩, rfl⟩

/-! ### RDCTL and WRCTL -/

/-- A read of CLR_IE or SET_IE draws a free value (R40). -/
theorem readControl_writeOnly (s : State) {k : BitVec 11} (hk : k = 8 ∨ k = 9) :
    readControl s k = .ok (Config.undefinedControlRead s.freeCount, drawn s) := by
  rcases hk with rfl | rfl <;> rfl

/-- Settles O55: the draw changes the count alone, and the write the one register. -/
theorem rdctlOfWriteOnlyRegisterIsFree : Obligations.RdctlOfWriteOnlyRegisterIsFree := by
  intro s a hs ha hk
  have heffect : (do let (v, t) ← readControl s s.k; writeReg t a v) =
      .ok ((drawn s).setReg a (Config.undefinedControlRead s.freeCount)) := by
    rw [readControl_writeOnly s hk]
    exact writeReg_eq (drawn s) a _ ha
  have hnext : execRdctl a s = .next _ := ordinary_eq false hs heffect
  have control := (ends_of_exec (i := .rdctl a) hnext).keepsControl rfl
  obtain ⟨others, memory, -, freeCount⟩ :=
    writesOnly_setReg (drawn s) a (Config.undefinedControlRead s.freeCount) s.followPc
  exact ⟨_, hnext, reg_setReg_same (drawn s) a _ ha, freeCount, others, memory, control, rfl, follows_retire _ _⟩

/-- What a write of control register `k` leaves in each of them (R40, R259). -/
theorem writeControl_eq {s : State} {k : BitVec 11} (v : Word) (hk : k ∈ [0#11, 1#11, 2#11, 8#11, 9#11]) :
    writeControl s k v = .ok { s with
      status := if k = 0 then v.extractLsb' 0 16 else if k = 8 then packStatus false s.ipri s.cwp s.flags
        else if k = 9 then packStatus true s.ipri s.cwp s.flags else s.status
      istatus := if k = 1 then v.extractLsb' 0 16 else s.istatus
      wvalid := if k = 2 ∧ s.cfg.wvalidWritable = true then 0#6 ++ v.extractLsb' 0 10 else s.wvalid } := by
  have hwide : (v.extractLsb' 0 10).zeroExtend 16 = 0#6 ++ v.extractLsb' 0 10 :=
    (BitVec.setWidth_eq_append (by decide)).trans (BitVec.cast_eq _ _)
  simp only [List.mem_cons, List.not_mem_nil, or_false] at hk
  rcases hk with rfl | rfl | rfl | rfl | rfl
  · rfl
  · rfl
  · cases hw : s.cfg.wvalidWritable <;> simp [writeControl, hw, hwide]
  · rfl
  · rfl

/-- Settles O56: the write by its number, and the end of WRCTL. -/
theorem wrctlWritesControlRegisters : Obligations.WrctlWritesControlRegisters := by
  rintro s a ⟨hn, hfits⟩ ha hk
  refine ⟨_, (execWrctl_next_iff a s _).2 ⟨hn, ha, hfits, _, writeControl_eq _ hk, rfl⟩, ?_⟩
  exact ⟨rfl, rfl, rfl, Bool.beq_eq_decide_eq _ _, rfl, rfl, rfl, rfl, fun _ _ => rfl, ⟨fun _ => rfl, rfl⟩, rfl, rfl,
    rfl, rfl⟩

end Sys2Proof.Proofs
end

section
/-! PROOFS. SAVE and RESTORE with no window exception (spec 10_state.md R23 to R25, 45_system.md R251, R253,
60_exceptions.md R278). -/

namespace Sys2Proof.Proofs

open Sys2Proof.Machine

/-! ### Window arithmetic -/

theorem toNat_sub_one {w : BitVec 5} (h : w ≠ 0) : (w - 1).toNat = w.toNat - 1 := by
  have hpos : w.toNat ≠ 0 := fun h0 => h (BitVec.eq_of_toNat_eq h0)
  have hlt := w.isLt
  rw [BitVec.toNat_sub]
  simp
  omega

theorem add_one_ne_zero {w : BitVec 5} (h : w ≠ 31) : w + 1 ≠ 0 := by
  intro h0
  exact h (by simpa using eq_neg_of_add_eq_zero_left h0)

/-- The window below a mapped one is mapped (R24). -/
theorem reachable_window_below {s : State} (h0 : s.cwp ≠ 0) (hm : s.Mapped s.cwp) (i : RegIdx) :
    (s.setCwp (s.cwp - 1)).reachable i = true := by
  refine reachable_of_mapped _ _ ?_
  rw [cwp_setCwp, toNat_sub_one h0]
  exact Nat.le_trans (Nat.sub_le _ _) hm

/-- `%sp` of the window below is no register of a window (R23). -/
theorem physIndex_ne_sp_below {w : BitVec 5} (h : w ≠ 0) (i : RegIdx) : physIndex w i ≠ physIndex (w - 1) 14 := by
  have hpos : w.toNat ≠ 0 := fun h0 => h (BitVec.eq_of_toNat_eq h0)
  have hsub := toNat_sub_one h
  have hsp : physIndex (w - 1) 14 = 16 * (w - 1).toNat + 14 := rfl
  rw [hsp]
  unfold physIndex
  split <;> omega

/-- A window exception that did not arise or is masked is not processed (R278). -/
theorem not_processed {s : State} {n : BitVec 6} {w limit : BitVec 5}
    (h : w ≠ limit ∨ s.ie = false ∨ s.ipri.toNat ≤ n.toNat) : ((w == limit) && processes s n) = false := by
  rcases h with h | h | h
  · simp [h]
  · simp [processes, h]
  · simp [processes, h]

/-! ### SAVE -/

/-- The state that SAVE makes when no exception is processed (R251). -/
def savedState (s : State) (n : BitVec 8) : State :=
  ((s.setCwp (s.cwp - 1)).setReg spReg (s.reg spReg - n.zeroExtend 32 * 4)).retire s.followPc

theorem execSave_next {s : State} {n : BitVec 8} (hs : s.Ready) (h0 : s.cwp ≠ 0) (hm : s.Mapped s.cwp)
    (hmask : s.cwp ≠ s.loLimit ∨ s.ie = false ∨ s.ipri.toNat ≤ 1) : execSave n s = .next (savedState s n) := by
  have hprocesses : processes (savedState s n) 1 = processes s 1 := by simp [savedState, processes]
  refine (execSave_next_iff n s _).2
    ⟨hs.1, reachable_of_mapped _ _ hm, h0, reachable_window_below h0 hm _, hs.2, windowException_eq_ok ?_⟩
  exact (congrArg _ hprocesses).trans (not_processed hmask)

theorem cwp_savedState (s : State) (n : BitVec 8) : (savedState s n).cwp = s.cwp - 1 := by simp [savedState]

theorem keepsRegisters_savedState (s : State) (n : BitVec 8) :
    KeepsRegisters s (savedState s n) (· = physIndex (s.cwp - 1) 14) := by
  intro q hq
  exact phys_setReg_other (s.setCwp (s.cwp - 1)) spReg _ (by rwa [cwp_setCwp])

/-- The old out registers are the new in registers (R23). -/
theorem reg_savedState_in {s : State} (n : BitVec 8) (h0 : s.cwp ≠ 0) {i : RegIdx} (h8 : 8 ≤ i.toNat)
    (h16 : i.toNat < 16) : (savedState s n).reg (i + 16) = s.reg i := by
  refine reg_eq_of_phys ?_
  rw [cwp_savedState, ← physIndex_out_in s.cwp i h8 h16 h0]
  exact keepsRegisters_savedState s n _ (physIndex_ne_sp_below h0 i)

theorem reg_savedState_sp {s : State} (n : BitVec 8) (h0 : s.cwp ≠ 0) (hm : s.Mapped s.cwp) :
    (savedState s n).reg 14 = s.reg 14 - BitVec.ofNat 32 (4 * n.toNat) := by
  have hwords : n.zeroExtend 32 * 4 = BitVec.ofNat 32 (4 * n.toNat) := by
    apply BitVec.eq_of_toNat_eq
    simp [Nat.mul_comm]
  rw [← hwords]
  exact reg_setReg_same (s.setCwp (s.cwp - 1)) spReg _ (reachable_window_below h0 hm _)

/-- Settles O46: the register written lies outside the old window. -/
theorem saveMovesTheWindowDown : Obligations.SaveMovesTheWindowDown := by
  intro s n hs h0 hm hmask
  refine ⟨_, execSave_next hs h0 hm hmask, cwp_savedState s n, reg_savedState_sp n h0 hm,
    keepsRegisters_savedState s n, fun i => reg_savedState_in n h0,
    reg_savedState_in (i := 14) n h0 (by decide) (by decide), ?_⟩
  exact ⟨ie_setCwp s _, ipri_setCwp s _, flags_setCwp s _, rfl, rfl, ⟨fun _ => rfl, rfl⟩, follows_retire _ _⟩

/-! ### RESTORE -/

/-- The state that RESTORE makes when no exception is processed (R253). -/
def restoredState (s : State) : State := (s.setCwp (s.cwp + 1)).retire s.followPc

theorem execRestore_next {s : State} (hs : s.Ready) (h31 : s.cwp ≠ 31)
    (hmask : s.cwp ≠ s.hiLimit ∨ s.ie = false ∨ s.ipri.toNat ≤ 2) : execRestore s = .next (restoredState s) := by
  have hprocesses : processes (restoredState s) 2 = processes s 2 := by simp [restoredState, processes]
  refine (execRestore_next_iff s _).2 ⟨hs.1, h31, hs.2, windowException_eq_ok ?_⟩
  exact (congrArg _ hprocesses).trans (not_processed hmask)

/-- The out registers of the window returned to are the in registers of the window left (R23). -/
theorem reg_restoredState_out {s : State} (h31 : s.cwp ≠ 31) {i : RegIdx} (h8 : 8 ≤ i.toNat) (h16 : i.toNat < 16) :
    (restoredState s).reg i = s.reg (i + 16) := by
  have hindex := physIndex_out_in (s.cwp + 1) i h8 h16 (add_one_ne_zero h31)
  rw [BitVec.add_sub_cancel] at hindex
  refine reg_eq_of_phys ?_
  rw [show (restoredState s).cwp = s.cwp + 1 from cwp_setCwp s _, hindex]
  rfl

/-- Settles O48: RESTORE writes CWP alone. -/
theorem restoreMovesTheWindowUp : Obligations.RestoreMovesTheWindowUp := by
  intro s hs h31 hmask
  refine ⟨_, execRestore_next hs h31 hmask, cwp_setCwp s _, fun _ _ => rfl, fun i => reg_restoredState_out h31, ?_⟩
  exact ⟨ie_setCwp s _, ipri_setCwp s _, flags_setCwp s _, rfl, rfl, ⟨fun _ => rfl, rfl⟩, follows_retire _ _⟩

/-! ### A SAVE and its RESTORE -/

theorem status_eq_of_fields {s t : State} (hie : t.ie = s.ie) (hipri : t.ipri = s.ipri) (hcwp : t.cwp = s.cwp)
    (hflags : t.flags = s.flags) : t.status = s.status := by
  calc t.status = packStatus t.ie t.ipri t.cwp t.flags := (packStatus_fields _).symm
    _ = packStatus s.ie s.ipri s.cwp s.flags := by rw [hie, hipri, hcwp, hflags]
    _ = s.status := packStatus_fields _

theorem pcFits_two_of_pc_add_two {s t : State} (h : s.pcFits 4) (hpc : t.pc = s.pc + 2) : t.pcFits 2 := by
  have htwo : (2 : CodeAddr).toNat = 2 := rfl
  unfold State.pcFits at h ⊢
  rw [hpc, BitVec.toNat_add, htwo]
  omega

/-- The window below a window is not window 31 (R36). -/
theorem sub_one_ne_31 {w : BitVec 5} (h : w ≠ 0) : w - 1 ≠ 31 := by
  intro h31
  have hsub := toNat_sub_one h
  have hlt := w.isLt
  rw [h31] at hsub
  simp at hsub
  omega

/-- Settles O53: SAVE's register lies outside the window that RESTORE returns to. -/
theorem saveAndRestoreKeepTheWindow : Obligations.SaveAndRestoreKeepTheWindow := by
  rintro s n ⟨hn, hbt⟩ hfits h0 hm hlo hhi
  have hfits2 : s.pcFits 2 := Nat.le_trans (Nat.add_le_add_left (by decide) _) hfits
  obtain ⟨t, hsave, htcwp, -, htregs, -, -, htie, htipri, htflags, -, htwvalid, -, htidle, htpc⟩ :=
    saveMovesTheWindowDown s n ⟨hn, fun _ => hfits2⟩ h0 hm hlo
  have hpc : t.pc = s.pc + 2 := by rw [htpc, State.followPc, hbt]
  have htfits : t.pcFits 2 := pcFits_two_of_pc_add_two hfits hpc
  have hback : s.cwp - 1 + 1 = s.cwp := BitVec.sub_add_cancel _ _
  have ht31 : t.cwp ≠ 31 := htcwp ▸ sub_one_ne_31 h0
  have hthi : t.cwp ≠ t.hiLimit ∨ t.ie = false ∨ t.ipri.toNat ≤ 2 := by
    rwa [htcwp, State.hiLimit, htwvalid, htie, htipri]
  obtain ⟨u, hrestore, hucwp, huregs, -, huie, huipri, huflags, -, -, -, -, hupc⟩ :=
    restoreMovesTheWindowUp t ⟨htidle.nopReq, fun _ => htfits⟩ ht31 hthi
  have hcwp : u.cwp = s.cwp := by rw [hucwp, htcwp, hback]
  refine ⟨t, u, hsave, hrestore, ?_, fun i => reg_eq_of_phys ?_, ?_⟩
  · exact status_eq_of_fields (huie.trans htie) (huipri.trans htipri) hcwp (huflags.trans htflags)
  · rw [hcwp, huregs _ not_false, htregs _ (physIndex_ne_sp_below h0 i)]
  · rw [hupc, State.followPc, htidle.bt, hpc]
    exact BitVec.add_assoc _ _ _

end Sys2Proof.Proofs
end

section
/-! PROOFS. Where the spec gives no meaning: undefined uses, the edges of the windows and the ends of the code space
(spec 10_state.md R24, R28, R36, R40, 44_control.md R236, 70_reset_and_hazards.md R313). -/

namespace Sys2Proof.Proofs

open Sys2Proof.Machine

/-! ### The operations that stop -/

theorem readReg_error {s : State} {r : RegIdx} (h : s.reachable r = false) : readReg s r = .error .unmappedWindow := by
  simp [readReg, h]

theorem writeReg_error {s : State} {r : RegIdx} (v : Word) (h : s.reachable r = false) :
    writeReg s r v = .error .unmappedWindow := by
  simp [writeReg, h]

theorem pcPlus_error {s : State} {n : Nat} (h : ¬s.pcFits n) : pcPlus s n = .error .leavesAddressSpace := if_neg h

theorem nextPc_error {s : State} (hb : s.bt = none) (h : ¬s.pcFits 2) : nextPc s = .error .leavesAddressSpace := by
  simp [nextPc, hb, pcPlus_error h]

theorem condition_eq_none {c : BitVec 4} (h : 14 ≤ c.toNat) (f : Flags) : condition c f = none := by
  unfold condition
  split
  case h_15 => rfl
  all_goals omega

/-- The defined control registers are numbers 0, 1, 2, 8 and 9 (R40, D15). -/
theorem readControl_error {s : State} {k : BitVec 11} (h : k ∉ [0#11, 1#11, 2#11, 8#11, 9#11]) :
    readControl s k = .error (.undefinedControlRegister k) := by
  simp only [List.mem_cons, List.not_mem_nil, or_false, not_or] at h
  obtain ⟨h0, h1, h2, h8, h9⟩ := h
  unfold readControl
  split
  case h_1 hk => exact absurd (BitVec.eq_of_toNat_eq hk) h0
  case h_2 hk => exact absurd (BitVec.eq_of_toNat_eq hk) h1
  case h_3 hk => exact absurd (BitVec.eq_of_toNat_eq hk) h2
  case h_4 hk => exact absurd (BitVec.eq_of_toNat_eq hk) h8
  case h_5 hk => exact absurd (BitVec.eq_of_toNat_eq hk) h9
  case h_6 => rfl

theorem writeControl_error {s : State} {k : BitVec 11} (v : Word) (h : k ∉ [0#11, 1#11, 2#11, 8#11, 9#11]) :
    writeControl s k v = .error (.undefinedControlRegister k) := by
  simp only [List.mem_cons, List.not_mem_nil, or_false, not_or] at h
  obtain ⟨h0, h1, h2, h8, h9⟩ := h
  unfold writeControl
  split
  case h_1 hk => exact absurd (BitVec.eq_of_toNat_eq hk) h0
  case h_2 hk => exact absurd (BitVec.eq_of_toNat_eq hk) h1
  case h_3 hk => exact absurd (BitVec.eq_of_toNat_eq hk) h2
  case h_4 hk => exact absurd (BitVec.eq_of_toNat_eq hk) h8
  case h_5 hk => exact absurd (BitVec.eq_of_toNat_eq hk) h9
  case h_6 => rfl

/-! ### The shapes of an instruction that stop -/

theorem ordinary_refused {s : State} {isNop : Bool} {effect : State → Res State} {r : Refusal}
    (hn : s.nopReq = false) (h : effect s = .error r) : ordinary isNop s effect = .refused r := by
  simp [ordinary, requireNopDone_eq s isNop hn, h]

theorem transfer_refused {s : State} {effect : State → Res (State × CodeAddr)} {r : Refusal} (hs : s.ReadyAlone)
    (h : effect s = .error r) : transfer s effect = .refused r := by
  simp [transfer, requireNopDone_eq s false hs.1, requireNoSlot_eq s hs.2, h]

theorem skip_refused_of_test {s : State} {test : State → Res Bool} {r : Refusal} (hs : s.ReadyAlone)
    (h : test s = .error r) : skip s test = .refused r := by
  simp [skip, requireNopDone_eq s false hs.1, requireNoSlot_eq s hs.2, h]

theorem skip_refused_of_target {s : State} {test : State → Res Bool} {b : Bool} {r : Refusal} (hs : s.ReadyAlone)
    (htest : test s = .ok b) (h : skipTarget s b = .error r) : skip s test = .refused r := by
  simp [skip, requireNopDone_eq s false hs.1, requireNoSlot_eq s hs.2, htest, h]

/-! ### Undefined uses -/

theorem skipUnless_refused {s : State} {c : BitVec 4} (hs : s.ReadyAlone) (hc : 14 ≤ c.toNat) :
    skipUnless c s = .refused .undefinedCondition :=
  skip_refused_of_test hs (by simp [condition_eq_none hc])

theorem execPfx_refused {s : State} (n : BitVec 11) (hs : s.ReadyAlone) (hp : s.pfxf = true) :
    execPfx n s = .refused .consecutivePfx := by
  simp [execPfx, requireNopDone_eq s false hs.1, requireNoSlot_eq s hs.2, hp]

theorem execRdctl_refused {s : State} (a : RegIdx) (hs : s.Ready) (hk : s.k ∉ [0#11, 1#11, 2#11, 8#11, 9#11]) :
    execRdctl a s = .refused (.undefinedControlRegister s.k) :=
  ordinary_refused hs.1 (by simp [readControl_error hk])

theorem execWrctl_refused {s : State} {a : RegIdx} (hs : s.Ready) (ha : s.reachable a = true)
    (hk : s.k ∉ [0#11, 1#11, 2#11, 8#11, 9#11]) : execWrctl a s = .refused (.undefinedControlRegister s.k) := by
  simp [execWrctl, requireNopDone_eq s false hs.1, readReg_eq s a ha, writeControl_error _ hk]

/-- Settles O58: each stops at its own check, after those that every instruction makes. -/
theorem undefinedUsesStop : Obligations.UndefinedUsesStop := by
  intro s
  exact ⟨fun n hs hp => execPfx_refused n hs hp,
    fun c hs hc => ⟨skipUnless_refused hs hc, skipUnless_refused hs hc⟩,
    fun a hs ha hk => ⟨execRdctl_refused a hs hk, execWrctl_refused hs ha hk⟩⟩

/-! ### The edges of the windows -/

theorem takeException_refused {s : State} (n : BitVec 6) (ret : CodeAddr) (h0 : s.cwp = 0) :
    takeException n ret false s = .error .windowPointerRange := by
  simp [takeException, h0]

theorem execSave_refused {s : State} (n : BitVec 8) (hs : s.Ready) (h0 : s.cwp = 0) :
    execSave n s = .refused .windowPointerRange := by
  have hsp : s.reachable spReg = true := reachable_of_mapped s spReg (by simp [h0])
  simp [execSave, requireNopDone_eq s false hs.1, readReg_eq s spReg hsp, h0]

theorem execTrap_refused {s : State} (n : BitVec 6) (hs : s.ReadyAlone) (hfits : s.pcFits 2) (h0 : s.cwp = 0) :
    execTrap n s = .refused .windowPointerRange := by
  have hstop := takeException_refused n (s.pc + 2) ((cwp_retire s (s.pc + 2)).trans h0)
  have hpc : pcPlus s 2 = .ok (s.pc + 2) := pcPlus_eq s 2 hfits
  simp only [execTrap, requireNopDone_eq s false hs.1, requireNoSlot_eq s hs.2, hpc, hstop, res_bind_ok,
    outcome_refused]

theorem execRestore_refused {s : State} (hs : s.Ready) (h31 : s.cwp = 31) :
    execRestore s = .refused .windowPointerRange := by
  simp [execRestore, requireNopDone_eq s false hs.1, h31]

/-- A register of a window that is not mapped does not exist (R24). -/
theorem not_reachable {s : State} {r : RegIdx} (hw : s.cfg.regFile.maxWindow < s.cwp.toNat) (hr : 8 ≤ r.toNat) :
    s.reachable r = false := by
  simp [State.reachable, hw, hr]

/-- An instruction that has a next state could reach every register it names or implies (R24). -/
theorem Ends.registers {i : Instr} {s t : State} (h : Ends i s t) :
    ∀ r ∈ i.registers s.pfxf, s.reachable r = true := by
  cases h with
  | follows _ he => exact he.registers
  | transfers _ _ he => exact he.registers
  | skips _ he => exact he.registers
  | pfx hi => subst hi; simp [Instr.registers]
  | save hi _ hsp => subst hi; simpa [Instr.registers] using hsp
  | restore hi => subst hi; simp [Instr.registers]
  | trap hi => subst hi; simp [Instr.registers]
  | tret hi ha => subst hi; simpa [Instr.registers] using ha
  | wrctl hi _ ha => subst hi; simpa [Instr.registers] using ha

theorem execBgen_refused {s : State} {r : RegIdx} {n : BitVec 5} (hs : s.Ready) (h : s.reachable r = false) :
    execBgen r n s = .refused .unmappedWindow :=
  ordinary_refused hs.1 (writeReg_error _ h)

/-- Settles O59: no next state without the registers an instruction names, and the checks of CWP. -/
theorem windowEdgesStop : Obligations.WindowEdgesStop := by
  intro s
  refine ⟨fun h0 => ⟨fun n hs => execSave_refused n hs h0,
      fun n hs hfits => execTrap_refused n hs hfits h0, fun n => ?_⟩,
    fun h31 hs => execRestore_refused hs h31, fun hw r hr => ?_⟩
  · exact congrArg outcome (takeException_refused n s.pc h0)
  · have hnot := not_reachable hw hr
    have hzero := readReg_eq s 0 (reachable_zero s)
    refine ⟨readReg_error hnot, fun v => writeReg_error v hnot, fun i t hmem h => ?_,
      fun hs => ⟨?_, ?_, ?_, fun n => ?_⟩⟩
    · exact absurd ((ends_of_exec h).registers r hmem) (by simp [hnot])
    · refine ordinary_refused hs.1 ?_
      simp only [moveEffect, hzero, res_bind_ok, writeReg_error _ hnot]
    · refine ordinary_refused hs.1 ?_
      simp only [moveEffect, readReg_error hnot, res_bind_error]
    · refine ordinary_refused hs.1 ?_
      simp only [arithEffect, hzero, res_bind_ok, readReg_error hnot, res_bind_error]
    · exact execBgen_refused hs hnot

/-! ### The ends of the code space -/

/-- Outside a delay slot only TRET ends without `pc + 2` being a code address (R28). -/
theorem Ends.pcFits {i : Instr} {s t : State} (h : Ends i s t) (hb : s.bt = none) (hi : ∀ a, i ≠ .tret a) :
    s.pcFits 2 := by
  cases h with
  | follows hfits => exact hfits hb
  | transfers _ hfits => exact hfits
  | skips hfits => exact hfits
  | pfx _ hfits => exact hfits
  | save _ hfits => exact hfits hb
  | restore _ hfits => exact hfits hb
  | trap _ hfits => exact hfits
  | tret htret => exact absurd htret (hi _)
  | wrctl _ hfits => exact hfits hb

theorem execNop_refused {s : State} (hb : s.bt = none) (h : ¬s.pcFits 2) :
    execNop s = .refused .leavesAddressSpace := by
  have heffect := (moveEffect_ok_iff 0 0 s _).2 ⟨reachable_zero s, reachable_zero s, rfl⟩
  simp only [execNop, ordinary, requireNopDone, Bool.or_true, require_true, heffect, nextPc_error hb h, res_bind_ok,
    res_bind_error, outcome_refused]

theorem branchTarget_error {s : State} {n : BitVec 11}
    (h : s.pc.toNat + 2 * (n.toInt + 1) < 0 ∨ (2 : Int) ^ 33 - 2 < s.pc.toNat + 2 * (n.toInt + 1)) :
    branchTarget s n = .error .leavesAddressSpace :=
  if_neg (by omega)

/-- A branch target that stops, stops for leaving the code space (R28, D8). -/
theorem branchTarget_ok_or_error (s : State) (n : BitVec 11) :
    (∃ p, branchTarget s n = .ok p) ∨ branchTarget s n = .error .leavesAddressSpace := by
  unfold branchTarget
  dsimp only
  split
  · exact .inl ⟨_, rfl⟩
  · exact .inr rfl

theorem linked_error {s : State} (h : ¬s.pcFits 4) : linked s = .error .leavesAddressSpace := by
  simp [linked, pcPlus_error h]

theorem execBr_refused {s : State} {n : BitVec 11} (hs : s.ReadyAlone)
    (h : branchTarget s n = .error .leavesAddressSpace) : execBr n s = .refused .leavesAddressSpace :=
  transfer_refused hs (by simp [h])

theorem execBsr_refused_of_target {s : State} {n : BitVec 11} (hs : s.ReadyAlone)
    (h : branchTarget s n = .error .leavesAddressSpace) : execBsr n s = .refused .leavesAddressSpace :=
  transfer_refused hs (by simp [h])

theorem execCall_refused {s : State} {a : RegIdx} (hs : s.ReadyAlone) (ha : s.reachable a = true)
    (h : ¬s.pcFits 4) : execCall a s = .refused .leavesAddressSpace :=
  transfer_refused hs (by simp [readReg_eq s a ha, linked_error h])

theorem execBsr_refused_of_link {s : State} (n : BitVec 11) (hs : s.ReadyAlone) (h : ¬s.pcFits 4) :
    execBsr n s = .refused .leavesAddressSpace := by
  rcases branchTarget_ok_or_error s n with ⟨p, hp⟩ | hp
  · exact transfer_refused hs (by simp [hp, linked_error h])
  · exact execBsr_refused_of_target hs hp

/-- A skip past the end of the code space: over one word, or over a PFX and the word after it (R230, R231). -/
theorem skipTarget_error {s : State} {w : Half} (hfits : s.pcFits 2) (hw : s.Fetches (s.pc + 2) w)
    (h : (w.extractLsb' 11 5 ≠ 0b10011#5 ∧ ¬s.pcFits 4) ∨ (w.extractLsb' 11 5 = 0b10011#5 ∧ ¬s.pcFits 6)) :
    skipTarget s true = .error .leavesAddressSpace := by
  have hlength : ¬s.pcFits (skipLength true w) := by
    rcases h with ⟨hne, h4⟩ | ⟨heq, h6⟩
    · simpa [skipLength, isPfxWord, hne] using h4
    · simpa [skipLength, isPfxWord, heq] using h6
  have hpc : pcPlus s 2 = .ok (s.pc + 2) := pcPlus_eq s 2 hfits
  simp only [skipTarget, hpc, fetchWord_eq s hw, res_bind_ok, pcPlus_error hlength, res_bind_error]

/-- Settles O60: every end but TRET's needs `pc + 2`, and the targets, links and skips are checked one by one. -/
theorem codeSpaceEdgesStop : Obligations.CodeSpaceEdgesStop := by
  refine ⟨fun i s t hb hfits hi h => hfits ((ends_of_exec h).pcFits hb hi), fun s hb h => execNop_refused hb h,
    fun s n hs h => ⟨execBr_refused hs (branchTarget_error h), execBsr_refused_of_target hs (branchTarget_error h)⟩,
    fun s hs h => ⟨fun n => execBsr_refused_of_link n hs h, fun a ha => execCall_refused hs ha h⟩,
    fun s a w hs ha hfits hw h => ?skips⟩
  case skips =>
    have htarget := skipTarget_error hfits hw h
    have hbit (wanted : Bool) (n : BitVec 5) (hn : (s.reg a).getLsbD n.toNat = wanted) :
        skipOnBit wanted a n s = .refused .leavesAddressSpace :=
      skip_refused_of_target hs (by simp [readReg_eq s a ha, hn]) htarget
    have hzero (wanted : Bool) (hx : (s.reg a == 0) = wanted) :
        skipOnZero wanted a s = .refused .leavesAddressSpace :=
      skip_refused_of_target hs (by simp [readReg_eq s a ha, ← hx]) htarget
    have hcond (c : BitVec 4) (hc : condition c s.flags = some false) :
        skipUnless c s = .refused .leavesAddressSpace :=
      skip_refused_of_target hs (by simp [hc]) htarget
    exact ⟨fun n => ⟨fun hn => ⟨hbit _ n hn, hbit _ n hn⟩, fun hn => ⟨hbit _ n hn, hbit _ n hn⟩⟩,
      fun hx => ⟨hzero _ (by simp [hx]), hzero _ (by simp [hx])⟩,
      fun hx => ⟨hzero _ (by simpa using hx), hzero _ (by simpa using hx)⟩,
      fun c hc => ⟨hcond c hc, hcond c hc⟩⟩

end Sys2Proof.Proofs
end

section
/-! PROOFS. The load and store instructions: the one memory access that each makes, what it gives in memory, in
read-only memory and at a peripheral, and a store followed by a load (spec 20_memory.md R71 to R82, R86,
43_load_store.md). -/

namespace Sys2Proof.Proofs

open Sys2Proof.Machine

/-! ### Words, half-words and their bytes -/

theorem byteOf_toNat (x : Word) (n : Nat) : (byteOf x n).toNat = x.toNat / 2 ^ (8 * n) % 2 ^ 8 := by
  rw [byteOf, BitVec.extractLsb'_toNat, Nat.shiftRight_eq_div_pow]

theorem halfOf_toNat (x : Word) (n : Nat) : (halfOf x n).toNat = x.toNat / 2 ^ (16 * n) % 2 ^ 16 := by
  rw [halfOf, BitVec.extractLsb'_toNat, Nat.shiftRight_eq_div_pow]

theorem byteLane_toNat (x : Word) : (byteLane x).toNat = x.toNat % 4 := by
  rw [byteLane, BitVec.extractLsb'_toNat, Nat.shiftRight_zero]

theorem halfLane_toNat (x : Word) : (halfLane x).toNat = x.toNat / 2 % 2 := by
  rw [halfLane, BitVec.extractLsb'_toNat, Nat.shiftRight_eq_div_pow]

/-- A word is its four bytes (R72). -/
theorem wordOfFour_byteOf (x : Word) : wordOfFour (byteOf x 0) (byteOf x 1) (byteOf x 2) (byteOf x 3) = x := by
  apply BitVec.eq_of_getLsbD_eq
  intro i hi
  simp only [wordOfFour, byteOf, BitVec.getLsbD_append, BitVec.getLsbD_extractLsb']
  grind

/-- A half-word is its two bytes (R72). -/
theorem halfOfBytes_extractLsb' (h : Half) : halfOfBytes (h.extractLsb' 0 8) (h.extractLsb' 8 8) = h := by
  apply BitVec.eq_of_getLsbD_eq
  intro i hi
  simp only [halfOfBytes, BitVec.getLsbD_append, BitVec.getLsbD_extractLsb']
  grind

/-- Byte `i` of the word that a read presents is what the address `i` above the first presents (R72, R74). -/
theorem byteOf_busWord (s : State) (a : Nat) {i : Nat} (hi : i < 4) : byteOf (s.busWord a) i = s.busByte (a + i) := by
  have hbits : ∀ j < 8, (byteOf (s.busWord a) i).getLsbD j = (s.busByte (a + i)).getLsbD j := by
    intro j hj
    simp only [State.busWord, wordOfFour, byteOf, BitVec.getLsbD_append, BitVec.getLsbD_extractLsb']
    match i, hi with
    | 0, _ => grind
    | 1, _ => grind
    | 2, _ => grind
    | 3, _ => grind
  exact BitVec.eq_of_getLsbD_eq hbits

/-! ### What stands at the addresses of an access -/

theorem isUnmapped_of_onDevice {s : State} {a n : Nat} (h : s.OnDevice a n) :
    ∀ i < n, s.isUnmapped (a + i) = false := fun i hi => by simp [State.isUnmapped, h i hi]

theorem isReadOnly_of_onDevice {s : State} {a n : Nat} (h : s.OnDevice a n) :
    ∀ i < n, s.isReadOnly (a + i) = false := fun i hi => by simp [State.isReadOnly, h i hi]

theorem isDevice_of_onDevice {s : State} {a n : Nat} (h : s.OnDevice a n) : ∀ i < n, s.isDevice (a + i) = true :=
  fun i hi => by simp [State.isDevice, h i hi]

/-- A read at a peripheral draws one free value (R82). -/
theorem freeCount_afterRead_of_onDevice {s : State} {a n : Nat} (h : s.OnDevice a (n + 1)) :
    (s.afterRead a (n + 1)).freeCount = s.freeCount + 1 := by
  have hfirst : s.isDevice a = true := isDevice_of_onDevice h 0 (Nat.succ_pos n)
  simp [State.afterRead, firstAddr, hfirst]

/-- Bytes written to a peripheral leave memory alone (R75, R82). -/
theorem writeBytes_of_device {d : Nat → Bool} {m : Memory} {a : Nat} {l : List Byte}
    (h : ∀ i < l.length, d (a + i) = true) : writeBytes d m a l = m := by
  induction l generalizing a with
  | nil => rfl
  | cons v rest ih =>
    have hfirst : d a = true := h 0 (by simp)
    have hrest : ∀ i < rest.length, d (a + 1 + i) = true := fun i hi => by
      rw [Nat.add_assoc, Nat.add_comm 1 i]
      exact h (i + 1) (by simpa using hi)
    simp only [writeBytes, hfirst, if_true]
    exact ih hrest

/-- A write that reaches no memory that can be written marks no byte of the vector table (R282). -/
theorem tableAfter_of_not_isRam {s : State} {a n : Nat} (h : ∀ i < n, s.isRam (a + i) = false) :
    s.tableAfter a n = s.tableWritten := by
  apply BitVec.eq_of_getLsbD_eq
  intro i hi
  rw [State.tableAfter, getLsbD_markWritten _ _ _ _ _ _ hi]
  by_cases hin : a ≤ s.cfg.vecBase.toNat + i ∧ s.cfg.vecBase.toNat + i < a + n
  · have hram := h (s.cfg.vecBase.toNat + i - a) (by omega)
    rw [Nat.add_sub_cancel' hin.1] at hram
    simp [hram]
  · have hout : (decide (a ≤ s.cfg.vecBase.toNat + i) && decide (s.cfg.vecBase.toNat + i < a + n)) = false := by
      simpa using hin
    rw [Bool.and_assoc, hout, Bool.and_false, Bool.or_false]

theorem keepsMemory_stored_of_onDevice {s : State} {a : Nat} {l : List Byte} (h : s.OnDevice a l.length) :
    KeepsMemory s (s.stored a l) := by
  have hram : ∀ i < l.length, s.isRam (a + i) = false := fun i hi => by simp [State.isRam, h i hi]
  refine ⟨fun b => ?_, tableAfter_of_not_isRam hram⟩
  rw [State.byteAt, State.stored_mem, writeBytes_of_device (isDevice_of_onDevice h)]
  rfl

/-- A stored word reads back (R72, R75). -/
theorem wordAt_stored_wordBytes {s : State} {a : Nat} (v : Word) (h : s.Writable a 4) :
    (s.stored a (wordBytes v)).wordAt a = v := by
  have hbyte := byteAt_stored_writable s (l := wordBytes v) h
  have h0 : (s.stored a (wordBytes v)).byteAt a = byteOf v 0 := hbyte 0 (by simp [wordBytes])
  have h1 : (s.stored a (wordBytes v)).byteAt (a + 1) = byteOf v 1 := hbyte 1 (by simp [wordBytes])
  have h2 : (s.stored a (wordBytes v)).byteAt (a + 2) = byteOf v 2 := hbyte 2 (by simp [wordBytes])
  have h3 : (s.stored a (wordBytes v)).byteAt (a + 3) = byteOf v 3 := hbyte 3 (by simp [wordBytes])
  rw [State.wordAt, h0, h1, h2, h3, wordOfFour_byteOf]

/-- A stored half-word reads back (R72, R75). -/
theorem halfAt_stored_halfBytes {s : State} {a : Nat} (v : Half) (h : s.Writable a 2) :
    (s.stored a (halfBytes v)).halfAt a = v := by
  have hbyte := byteAt_stored_writable s (l := halfBytes v) h
  have h0 : (s.stored a (halfBytes v)).byteAt a = v.extractLsb' 0 8 := hbyte 0 (by simp [halfBytes])
  have h1 : (s.stored a (halfBytes v)).byteAt (a + 1) = v.extractLsb' 8 8 := hbyte 1 (by simp [halfBytes])
  rw [State.halfAt, h0, h1, halfOfBytes_extractLsb']

/-! ### The access of a load or store -/

theorem exec_ld (a b : RegIdx) (s : State) :
    exec (.ld a b) s = ordinary false s (loadEffect b (fun s => eaRegister s b) a) := rfl

theorem exec_ldp (p : BitVec 2) (n : BitVec 5) (a : RegIdx) (s : State) :
    exec (.ldp p n a) s = ordinary false s (loadEffect (ptrReg p) (fun s => eaPointer s p n) a) := rfl

theorem exec_lds (n : BitVec 8) (a : RegIdx) (s : State) :
    exec (.lds n a) s = ordinary false s (loadEffect spReg (fun s => eaStackWord s n) a) := rfl

theorem exec_st (a b : RegIdx) (s : State) :
    exec (.st a b) s = ordinary false s (storeWordEffect b (fun s => eaRegister s b) a) := rfl

theorem exec_stp (p : BitVec 2) (n : BitVec 5) (a : RegIdx) (s : State) :
    exec (.stp p n a) s = ordinary false s (storeWordEffect (ptrReg p) (fun s => eaPointer s p n) a) := rfl

theorem exec_sts (n : BitVec 8) (a : RegIdx) (s : State) :
    exec (.sts n a) s = ordinary false s (storeWordEffect spReg (fun s => eaStackWord s n) a) := rfl

theorem exec_st8d (a : RegIdx) (s : State) :
    exec (.st8d a) s = ordinary false s (storeByteEffect a (fun s => eaRegister s a) fun s => byteLane (s.reg a)) := rfl

theorem exec_st8s (a : RegIdx) (n : BitVec 2) (s : State) :
    exec (.st8s a n) s = ordinary false s (storeByteEffect a (fun s => eaRegister s a) fun _ => n) := rfl

theorem exec_st16d (a : RegIdx) (s : State) :
    exec (.st16d a) s =
      ordinary false s (storeHalfEffect a (fun s => eaRegister s a) fun s => halfLane (s.reg a)) := rfl

theorem exec_st16s (a : RegIdx) (n : BitVec 1) (s : State) :
    exec (.st16s a n) s = ordinary false s (storeHalfEffect a (fun s => eaRegister s a) fun _ => n) := rfl

theorem exec_sts8s (n : BitVec 10) (s : State) :
    exec (.sts8s n) s =
      ordinary false s (storeByteEffect spReg (fun s => eaStackByte s n) fun _ => n.extractLsb' 0 2) := rfl

theorem exec_sts16s (n : BitVec 9) (s : State) :
    exec (.sts16s n) s =
      ordinary false s (storeHalfEffect spReg (fun s => eaStackHalf s n) fun _ => n.extractLsb' 0 1) := rfl

section Access

variable {i : Instr} {s : State} {base a : RegIdx} {ea : State → Word}

/-- Once its base register can be reached, a load is the read of its word and the register write. -/
theorem loadEffect_eq (hbase : s.reachable base = true) :
    loadEffect base ea a s = (do let (v, t) ← loadWord s (wordAddr (ea s)); writeReg t a v) := by
  simp only [loadEffect, readReg_eq s base hbase, res_bind_ok]

theorem storeWordEffect_eq (hbase : s.reachable base = true) (ha : s.reachable a = true) :
    storeWordEffect base ea a s = storeBytes s (wordAddr (ea s)) (wordBytes (s.reg a)) := by
  simp only [storeWordEffect, readReg_eq s base hbase, readReg_eq s a ha, res_bind_ok]

theorem storeByteEffect_eq {lane : State → BitVec 2} (hbase : s.reachable base = true) :
    storeByteEffect base ea lane s =
      storeBytes s (byteAddr (ea s) (lane s)) [byteOf (s.reg 0) (lane s).toNat] := by
  simp only [storeByteEffect, readReg_eq s base hbase, readReg_eq s 0 (reachable_zero s), res_bind_ok]

theorem storeHalfEffect_eq {lane : State → BitVec 1} (hbase : s.reachable base = true) :
    storeHalfEffect base ea lane s =
      storeBytes s (halfAddr (ea s) (lane s)) (halfBytes (halfOf (s.reg 0) (lane s).toNat)) := by
  simp only [storeHalfEffect, readReg_eq s base hbase, readReg_eq s 0 (reachable_zero s), res_bind_ok]

/-- Instruction `i`, run in `s`, is a store of the bytes `l` from `x` on, and the end of the instruction. -/
def StoresBytes (i : Instr) (s : State) (x : Nat) (l : List Byte) : Prop :=
  ∃ effect, exec i s = ordinary false s effect ∧ effect s = storeBytes s x l

/-- A store instruction whose registers can be reached makes the access that `storesAt` names. -/
theorem storesBytes_of_storesAt {x n : Nat} (hat : i.storesAt s = some (x, n))
    (hregs : ∀ r ∈ i.registers s.pfxf, s.reachable r = true) : ∃ l, l.length = n ∧ StoresBytes i s x l := by
  have word {a base : RegIdx} {ea : State → Word} (hi : exec i s = ordinary false s (storeWordEffect base ea a))
      (hbase : base ∈ i.registers s.pfxf) (ha : a ∈ i.registers s.pfxf)
      (hx : some (wordAddr (ea s), 4) = some (x, n)) : ∃ l, l.length = n ∧ StoresBytes i s x l := by
    cases hx
    exact ⟨_, rfl, _, hi, storeWordEffect_eq (hregs _ hbase) (hregs _ ha)⟩
  have byte {base : RegIdx} {ea : State → Word} {lane : State → BitVec 2}
      (hi : exec i s = ordinary false s (storeByteEffect base ea lane)) (hbase : base ∈ i.registers s.pfxf)
      (hx : some (byteAddr (ea s) (lane s), 1) = some (x, n)) : ∃ l, l.length = n ∧ StoresBytes i s x l := by
    cases hx
    exact ⟨_, rfl, _, hi, storeByteEffect_eq (hregs _ hbase)⟩
  have half {base : RegIdx} {ea : State → Word} {lane : State → BitVec 1}
      (hi : exec i s = ordinary false s (storeHalfEffect base ea lane)) (hbase : base ∈ i.registers s.pfxf)
      (hx : some (halfAddr (ea s) (lane s), 2) = some (x, n)) : ∃ l, l.length = n ∧ StoresBytes i s x l := by
    cases hx
    exact ⟨_, rfl, _, hi, storeHalfEffect_eq (hregs _ hbase)⟩
  cases i with
  | st a b => exact word (exec_st a b s) (by simp [Instr.registers]) (by simp [Instr.registers]) hat
  | stp p m a => exact word (exec_stp p m a s) (by simp [Instr.registers]) (by simp [Instr.registers]) hat
  | sts m a => exact word (exec_sts m a s) (by simp [Instr.registers]) (by simp [Instr.registers]) hat
  | st8d a => exact byte (exec_st8d a s) (by simp [Instr.registers]) hat
  | st8s a m => exact byte (exec_st8s a m s) (by simp [Instr.registers]) hat
  | sts8s m => exact byte (exec_sts8s m s) (by simp [Instr.registers]) hat
  | st16d a => exact half (exec_st16d a s) (by simp [Instr.registers]) hat
  | st16s a m => exact half (exec_st16s a m s) (by simp [Instr.registers]) hat
  | sts16s m => exact half (exec_sts16s m s) (by simp [Instr.registers]) hat
  | _ => cases hat

/-- A load instruction whose registers can be reached is a load from the address that `loadsAt` names. -/
theorem exec_eq_loadEffect_of_loadsAt {x : Nat} (hat : i.loadsAt s = some x)
    (hregs : ∀ r ∈ i.registers s.pfxf, s.reachable r = true) :
    ∃ base ea a, exec i s = ordinary false s (loadEffect base ea a) ∧ s.reachable base = true ∧
      wordAddr (ea s) = x := by
  cases i with
  | ld a b => exact ⟨b, _, a, exec_ld a b s, hregs b (by simp [Instr.registers]), Option.some.inj hat⟩
  | ldp p n a => exact ⟨ptrReg p, _, a, exec_ldp p n a s, hregs _ (by simp [Instr.registers]), Option.some.inj hat⟩
  | lds n a => exact ⟨spReg, _, a, exec_lds n a s, hregs _ (by simp [Instr.registers]), Option.some.inj hat⟩
  | _ => cases hat

/-! ### Loads -/

/-- A load from memory gives the register memory's word and draws nothing (R74). -/
theorem load_of_readable {x : Nat} (hexec : exec i s = ordinary false s (loadEffect base ea a)) (hs : s.Ready)
    (ha : s.reachable a = true) (hx : wordAddr (ea s) = x) (hbase : s.reachable base = true) (hr : s.Readable x 4) :
    ∃ t, exec i s = .next t ∧ t.reg a = s.wordAt x ∧ WritesOnly s t a ∧ t.flags = s.flags ∧ Follows s t := by
  subst hx
  have heffect : loadEffect base ea a s = .ok (s.setReg a (s.wordAt (wordAddr (ea s)))) := by
    rw [loadEffect_eq hbase, loadWord_eq s hr]
    exact writeReg_eq s a _ ha
  exact ⟨_, hexec.trans (ordinary_eq false hs heffect), reg_setReg_same s a _ ha, writesOnly_setReg _ _ _ _, rfl,
    follows_retire _ _⟩

/-- A load from a peripheral gives the register four free bytes and draws one free value (R82). -/
theorem load_of_onDevice {x : Nat} (hexec : exec i s = ordinary false s (loadEffect base ea a)) (hs : s.Ready)
    (ha : s.reachable a = true) (hd : s.OnDevice x 4) (hbase : s.reachable base = true)
    (hx : wordAddr (ea s) = x) :
    ∃ t, exec i s = .next t ∧
      (∀ j < 4, byteOf (t.reg a) j = Config.deviceByte s.freeCount (x + j)) ∧ t.freeCount = s.freeCount + 1 ∧
      KeepsRegisters s t (· = physIndex s.cwp a) ∧ KeepsMemory s t ∧ KeepsControl s t ∧ t.flags = s.flags ∧
      Follows s t := by
  subst hx
  have heffect := (loadEffect_ok_iff base ea a s _).2 ⟨hbase, ha, isUnmapped_of_onDevice hd, rfl⟩
  refine ⟨_, hexec.trans (ordinary_eq false hs heffect), fun j hj => ?bytes,
    freeCount_afterRead_of_onDevice hd, fun q hq => phys_setReg_other (s.afterRead _ 4) a _ hq,
    ⟨fun _ => rfl, rfl⟩, ?control, rfl, follows_retire _ _⟩
  case bytes =>
    rw [reg_retire, reg_setReg_same (s.afterRead _ 4) a _ ha, byteOf_busWord s _ hj]
    simp [State.busByte, isDevice_of_onDevice hd j hj]
  case control =>
    exact keepsControl_retire (keepsControl_setReg (keepsControl_afterRead (keepsControl_refl s) _ _) _ _) _

/-! ### Stores -/

theorem StoresBytes.next {x : Nat} {l : List Byte} (h : StoresBytes i s x l) (hs : s.Ready)
    (hmapped : ∀ j < l.length, s.isUnmapped (x + j) = false)
    (hwrite : ∀ j < l.length, s.isReadOnly (x + j) = false) :
    exec i s = .next ((s.stored x l).retire s.followPc) := by
  obtain ⟨effect, hexec, heffect⟩ := h
  have hstored := (storeBytes_ok_iff s x l _).2 ⟨hmapped, hwrite, rfl⟩
  exact hexec.trans (ordinary_eq false hs (heffect.trans hstored))

theorem StoresBytes.next_of_writable {x : Nat} {l : List Byte} (h : StoresBytes i s x l) (hs : s.Ready)
    (hw : s.Writable x l.length) : exec i s = .next ((s.stored x l).retire s.followPc) :=
  h.next hs (isUnmapped_of_readable s (readable_of_writable s hw)) (isReadOnly_of_writable s hw)

/-- A word store in memory that can be written (R72, R75). -/
theorem storeWord_of_writable {x : Nat} (hexec : exec i s = ordinary false s (storeWordEffect base ea a))
    (hs : s.Ready) (ha : s.reachable a = true) (hx : wordAddr (ea s) = x) (hbase : s.reachable base = true)
    (hw : s.Writable x 4) :
    ∃ t, exec i s = .next t ∧ t.wordAt x = s.reg a ∧ StoresOnly s t x 4 ∧ Follows s t := by
  subst hx
  have hstores : StoresBytes i s _ _ := ⟨_, hexec, storeWordEffect_eq hbase ha⟩
  exact ⟨_, hstores.next_of_writable hs hw, wordAt_stored_wordBytes (s.reg a) hw, storesOnly_stored _ _ _ _ hw,
    follows_retire _ _⟩

/-- A store of byte lane `m` in memory that can be written (R79). -/
theorem storeByte_of_writable {lane : State → BitVec 2} {m x : Nat}
    (hexec : exec i s = ordinary false s (storeByteEffect base ea lane)) (hs : s.Ready)
    (hbase : s.reachable base = true) (hlane : (lane s).toNat = m) (hx : x = wordAddr (ea s) + m)
    (hw : s.Writable x 1) :
    ∃ t, exec i s = .next t ∧ (t.byteAt x).toNat = (s.reg 0).toNat / 2 ^ (8 * m) % 2 ^ 8 ∧ StoresOnly s t x 1 ∧
      Follows s t := by
  subst hlane
  subst hx
  have hstores : StoresBytes i s _ _ := ⟨_, hexec, storeByteEffect_eq hbase⟩
  refine ⟨_, hstores.next_of_writable hs hw, ?_, storesOnly_stored _ _ _ _ hw, follows_retire _ _⟩
  have hbyte := byteAt_stored_writable s (l := [byteOf (s.reg 0) (lane s).toNat]) hw 0 Nat.one_pos
  exact (congrArg BitVec.toNat hbyte).trans (byteOf_toNat _ _)

/-- A store of half-word lane `m` in memory that can be written (R79). -/
theorem storeHalf_of_writable {lane : State → BitVec 1} {m x : Nat}
    (hexec : exec i s = ordinary false s (storeHalfEffect base ea lane)) (hs : s.Ready)
    (hbase : s.reachable base = true) (hlane : (lane s).toNat = m) (hx : x = wordAddr (ea s) + 2 * m)
    (hw : s.Writable x 2) :
    ∃ t, exec i s = .next t ∧ (t.halfAt x).toNat = (s.reg 0).toNat / 2 ^ (16 * m) % 2 ^ 16 ∧
      StoresOnly s t x 2 ∧ Follows s t := by
  subst hlane
  subst hx
  have hstores : StoresBytes i s _ _ := ⟨_, hexec, storeHalfEffect_eq hbase⟩
  refine ⟨_, hstores.next_of_writable hs hw, ?_, storesOnly_stored _ _ _ _ hw, follows_retire _ _⟩
  exact (congrArg BitVec.toNat (halfAt_stored_halfBytes _ hw)).trans (halfOf_toNat _ _)

end Access

/-! ### The statements about loads and stores -/

/-- Settles O32: the three loads differ in their effective address alone. -/
theorem loadsReadTheAlignedWord : Obligations.LoadsReadTheAlignedWord := by
  intro s a hs ha
  exact ⟨fun b => load_of_readable (exec_ld a b s) hs ha rfl,
    fun p n => load_of_readable (exec_ldp p n a s) hs ha rfl, fun n => load_of_readable (exec_lds n a s) hs ha rfl⟩

/-- Settles O33: the three loads differ in their effective address alone. -/
theorem loadsFromAPeripheralAreFree : Obligations.LoadsFromAPeripheralAreFree := by
  intro s a b p n5 n8 x hs ha hd
  exact ⟨load_of_onDevice (exec_ld a b s) hs ha hd, load_of_onDevice (exec_ldp p n5 a s) hs ha hd,
    load_of_onDevice (exec_lds n8 a s) hs ha hd⟩

/-- Settles O34: the bytes reach neither memory nor the vector table's marks. -/
theorem storesToAPeripheralLeaveMemory : Obligations.StoresToAPeripheralLeaveMemory := by
  intro i s x n hat hs hregs hd
  obtain ⟨l, rfl, hstores⟩ := storesBytes_of_storesAt hat hregs
  have hnext := hstores.next hs (isUnmapped_of_onDevice hd) (isReadOnly_of_onDevice hd)
  have hcontrol := keepsControl_retire (keepsControl_stored (keepsControl_refl s) x l) s.followPc
  exact ⟨_, hnext, fun _ _ => rfl, keepsMemory_stored_of_onDevice hd, hcontrol, rfl, rfl, follows_retire _ _⟩

/-- Settles O35: the three stores differ in their effective address alone. -/
theorem wordStoresWriteTheAlignedWord : Obligations.WordStoresWriteTheAlignedWord := by
  intro s a hs ha
  exact ⟨fun b => storeWord_of_writable (exec_st a b s) hs ha rfl,
    fun p n => storeWord_of_writable (exec_stp p n a s) hs ha rfl,
    fun n => storeWord_of_writable (exec_sts n a s) hs ha rfl⟩

/-- Settles O36: the lane is the address register's low bits or the immediate. -/
theorem partialStoresKeepTheLane : Obligations.PartialStoresKeepTheLane := by
  intro s a hs ha
  exact ⟨fun x hx hw => storeByte_of_writable (exec_st8d a s) hs ha (byteLane_toNat (s.reg a)) hx hw,
    fun n x hx hw => storeByte_of_writable (exec_st8s a n s) hs ha rfl hx hw,
    fun x hx hw => storeHalf_of_writable (exec_st16d a s) hs ha (halfLane_toNat (s.reg a)) hx hw,
    fun n x hx hw => storeHalf_of_writable (exec_st16s a n s) hs ha rfl hx hw⟩

/-- With K idle the effective address is the register's (R212). -/
theorem eaRegister_of_k_zero {s : State} (h : s.k = 0) (b : RegIdx) : eaRegister s b = s.reg b := by
  simp [eaRegister, kOffset, h]

theorem reg_eq_of_keepsRegisters {s t : State} (h : KeepsRegisters s t fun _ => False) (hc : t.cwp = s.cwp)
    (i : RegIdx) : t.reg i = s.reg i := by
  refine reg_eq_of_phys ?_
  rw [hc, h _ not_false]

/-- Settles O38: the store leaves the address register, the window and the memory map as they were, so the load reads
the word just stored. -/
theorem storedWordIsLoadedBack : Obligations.StoredWordIsLoadedBack := by
  rintro s a b c ⟨hn, hbt⟩ hfits hk ha hb hc hw
  have hfits2 : s.pcFits 2 := Nat.le_trans (Nat.add_le_add_left (by decide) _) hfits
  rw [← eaRegister_of_k_zero hk] at hw
  obtain ⟨t, hst, hword, honly, hidle, htpc⟩ :=
    storeWord_of_writable (exec_st a b s) ⟨hn, fun _ => hfits2⟩ ha rfl hb hw
  have hpc : t.pc = s.pc + 2 := by rw [htpc, State.followPc, hbt]
  have hready : t.Ready := ⟨hidle.nopReq, fun _ => pcFits_two_of_pc_add_two hfits hpc⟩
  have hreach (r : RegIdx) : t.reachable r = s.reachable r := reachable_congr honly.control.cwp honly.control.cfg r
  have hea : wordAddr (eaRegister t b) = wordAddr (eaRegister s b) := by
    rw [eaRegister_of_k_zero hidle.k, eaRegister_of_k_zero hk,
      reg_eq_of_keepsRegisters honly.others honly.control.cwp]
  have hreadable : t.Readable (wordAddr (eaRegister s b)) 4 := by
    simpa only [State.Readable, State.kindAt, honly.control.cfg] using readable_of_writable s hw
  obtain ⟨u, hld, hreg, -⟩ :=
    load_of_readable (exec_ld c b t) hready ((hreach c).trans hc) hea ((hreach b).trans hb) hreadable
  exact ⟨t, u, hst, hld, hreg.trans hword⟩

end Sys2Proof.Proofs
end

section
/-! PROOFS. What stands in memory, which bytes of the vector table count as written and which stores are remembered:
what every instruction, an interrupt and the environment make of them (spec 20_memory.md R81, R86, R89,
43_load_store.md, 60_exceptions.md R282). -/

namespace Sys2Proof.Proofs

open Sys2Proof.Machine

/-! ### Instructions that store nothing -/

/-- Memory, the table's written bytes and the remembered stores are the same. -/
structure SameStorage (s t : State) : Prop where
  mem : t.mem = s.mem
  tableWritten : t.tableWritten = s.tableWritten
  recentStores : t.recentStores = s.recentStores

theorem SameStorage.refl (s : State) : SameStorage s s := ⟨rfl, rfl, rfl⟩

theorem SameStorage.trans {s t u : State} (h : SameStorage s t) (h' : SameStorage t u) : SameStorage s u :=
  ⟨h'.mem.trans h.mem, h'.tableWritten.trans h.tableWritten, h'.recentStores.trans h.recentStores⟩

theorem SameStorage.retire {s t : State} (h : SameStorage s t) (p q : CodeAddr) :
    SameStorage (s.retire p) (t.retire q) :=
  ⟨h.mem, h.tableWritten, congrArg ageStores h.recentStores⟩

theorem SameStorage.keepsMemory {s t : State} (h : SameStorage s t) : KeepsMemory s t :=
  ⟨fun a => congrArg (Memory.read · a) h.mem, h.tableWritten⟩

theorem Update.sameStorage {i : Instr} {s u : State} (h : Update i s u) (hi : i.storesAt s = none) :
    SameStorage s u := by
  induction h with
  | nothing => exact .refl s
  | register _ r v ih => exact ⟨ih.mem, ih.tableWritten, ih.recentStores⟩
  | flags _ _ f ih => exact ⟨ih.mem, ih.tableWritten, ih.recentStores⟩
  | read _ x n ih => exact ⟨ih.mem, ih.tableWritten, ih.recentStores⟩
  | draw _ ih => exact ⟨ih.mem, ih.tableWritten, ih.recentStores⟩
  | store hat => simp [hi] at hat

theorem sameStorage_of_takeException {n : BitVec 6} {ret : CodeAddr} {isUnderflow : Bool} {s t : State}
    (h : takeException n ret isUnderflow s = .ok t) : SameStorage s t := by
  obtain ⟨-, -, -, -, rfl⟩ := (takeException_ok_iff _ _ _ _ _).1 h
  exact ⟨rfl, rfl, rfl⟩

theorem sameStorage_of_windowException {arose isUnderflow : Bool} {n : BitVec 6} {s t : State}
    (h : windowException arose n isUnderflow s = .ok t) : SameStorage s t := by
  unfold windowException at h
  split at h
  · exact sameStorage_of_takeException h
  · cases h
    exact .refl s

theorem sameStorage_of_writeControl {s u : State} {k : BitVec 11} {v : Word} (h : writeControl s k v = .ok u) :
    SameStorage s u := by
  rcases (writeControl_ok_iff _ _ _ _).1 h with ⟨-, rfl⟩ | ⟨-, rfl⟩ | ⟨-, rfl⟩ | ⟨-, rfl⟩ | ⟨-, rfl⟩
  · exact ⟨rfl, rfl, rfl⟩
  · exact ⟨rfl, rfl, rfl⟩
  · split <;> exact ⟨rfl, rfl, rfl⟩
  · exact ⟨rfl, rfl, rfl⟩
  · exact ⟨rfl, rfl, rfl⟩

/-- An instruction that stores nothing does no more to memory and the remembered stores than end (R81, R89). -/
theorem Ends.sameStorage {i : Instr} {s t : State} (h : Ends i s t) (hi : i.storesAt s = none) :
    SameStorage (s.retire s.pc) t := by
  cases h with
  | follows _ he => exact (he.update.sameStorage hi).retire _ _
  | transfers _ _ he _ =>
    obtain ⟨hmem, htable, hrecent⟩ := (he.update.sameStorage hi).retire s.pc (s.pc + 2)
    exact ⟨hmem, htable, hrecent⟩
  | skips _ he _ => exact (he.update.sameStorage hi).retire _ _
  | pfx => exact ⟨rfl, rfl, rfl⟩
  | save _ _ _ v hw =>
    refine SameStorage.trans ?_ (sameStorage_of_windowException hw)
    exact ⟨rfl, rfl, rfl⟩
  | restore _ _ hw =>
    refine SameStorage.trans ?_ (sameStorage_of_windowException hw)
    exact ⟨rfl, rfl, rfl⟩
  | trap _ _ hw =>
    refine SameStorage.trans ?_ (sameStorage_of_takeException hw)
    exact ⟨rfl, rfl, rfl⟩
  | tret => exact ⟨rfl, rfl, rfl⟩
  | wrctl _ _ _ hu =>
    obtain ⟨hmem, htable, hrecent⟩ := (sameStorage_of_writeControl hu).retire s.pc s.followPc
    exact ⟨hmem, htable, hrecent⟩

theorem storesAt_eq_none {i : Instr} (h : i.isStore = false) (s : State) : i.storesAt s = none := by
  cases i with
  | st => cases h
  | stp => cases h
  | sts => cases h
  | st8d => cases h
  | st8s => cases h
  | st16d => cases h
  | st16s => cases h
  | sts8s => cases h
  | sts16s => cases h
  | _ => rfl

/-- Settles O18: every other instruction leaves memory and the table's marks as they were. -/
theorem onlyStoresChangeMemory : Obligations.OnlyStoresChangeMemory := by
  intro i s t hi h
  obtain ⟨hbytes, htable⟩ := ((ends_of_exec h).sameStorage (storesAt_eq_none hi s)).keepsMemory
  exact ⟨hbytes, htable⟩

/-! ### The remembered stores -/

/-- Aging takes one instruction off each store and keeps those with some to go (R89). -/
theorem mem_ageStores_iff (l : List RecentStore) (r : RecentStore) :
    r ∈ ageStores l ↔ 0 < r.left ∧ ⟨r.addr, r.len, r.left + 1⟩ ∈ l := by
  simp only [ageStores, List.mem_filter, List.mem_map, decide_eq_true_eq]
  constructor
  · rintro ⟨⟨q, hq, rfl⟩, hleft⟩
    have hback : q.left - 1 + 1 = q.left := Nat.sub_add_cancel (by have : 0 < q.left - 1 := hleft; omega)
    exact ⟨hleft, by simpa only [hback] using hq⟩
  · rintro ⟨hleft, hmem⟩
    exact ⟨⟨_, hmem, rfl⟩, hleft⟩

/-- What a store instruction that has a next state has done (R75, R89). -/
theorem stored_of_exec {i : Instr} {s t : State} {x n : Nat} (hat : i.storesAt s = some (x, n))
    (h : exec i s = .next t) : ∃ l, l.length = n ∧ t = (s.stored x l).retire s.followPc := by
  obtain ⟨l, hlength, effect, hexec, heffect⟩ := storesBytes_of_storesAt hat (ends_of_exec h).registers
  obtain ⟨-, -, u, hu, rfl⟩ := (ordinary_next_iff _ _ _ _).1 (hexec.symm.trans h)
  obtain ⟨-, -, rfl⟩ := (storeBytes_ok_iff _ _ _ _).1 (heffect.symm.trans hu)
  exact ⟨l, hlength, rfl⟩

/-- The stores remembered after an instruction: its own, with IFETCH_DISTANCE to go, and the earlier ones with one less
(R89, D13). -/
theorem mem_recentStores_of_exec {i : Instr} {s t : State} (h : exec i s = .next t) (r : RecentStore) :
    r ∈ t.recentStores ↔ 0 < r.left ∧
      ((∃ x n, i.storesAt s = some (x, n) ∧ r = ⟨x, n, s.cfg.ifetchDistance⟩) ∨
        ⟨r.addr, r.len, r.left + 1⟩ ∈ s.recentStores) := by
  cases hat : i.storesAt s with
  | none =>
    rw [((ends_of_exec h).sameStorage hat).recentStores, State.retire_recentStores, mem_ageStores_iff]
    simp
  | some access =>
    obtain ⟨x, n⟩ := access
    obtain ⟨l, rfl, rfl⟩ := stored_of_exec hat h
    obtain ⟨addr, len, left⟩ := r
    rw [State.retire_recentStores, mem_ageStores_iff, State.stored_recentStores, List.mem_cons]
    simp [eq_comm]

/-- Every byte of a remembered store may not be fetched (R89). -/
theorem isFresh_of_mem {s : State} {r : RecentStore} (h : r ∈ s.recentStores) {j : Nat} (hj : j < r.len) :
    s.isFresh (r.addr + j) = true := by
  simp only [State.isFresh, List.any_eq_true, Bool.and_eq_true, decide_eq_true_eq]
  exact ⟨r, h, Nat.le_add_right _ _, Nat.add_lt_add_left hj _⟩

theorem step_refused_of_fetchWord {s : State} {r : Refusal} (hirq : interruptNow s = none)
    (h : fetchWord s.sampled s.pc = .error r) : step s = .refused r := by
  have hfetch : fetchInstr s.sampled = .error r := by rw [fetchInstr, State.sampled_pc, h, res_bind_error]
  rw [step_of_interruptNow_none hirq, instructionStep, hfetch]

/-- A fetch stops at its first byte that a recent store wrote (R89). -/
theorem fetchWord_of_fresh {s : State} {p : CodeAddr} {c : Nat} (hp : s.Present p.toNat 2) (hc : s.isFresh c = true)
    (hfirst : c = p.toNat ∨ (c = p.toNat + 1 ∧ s.isFresh p.toNat = false)) :
    fetchWord s p = .error (.fetchTooSoonAfterStore c) := by
  have hfresh : firstAddr s.isFresh p.toNat 2 = some c := by
    rcases hfirst with rfl | ⟨rfl, hlow⟩
    · exact firstAddr_eq_some (i := 0) (by decide) hc (by simp)
    · exact firstAddr_eq_some (i := 1) (by decide) hc (by simpa using hlow)
  simp only [fetchWord, firstAddr_of_present hp, hfresh]

/-- Settles O40: the remembered stores after each instruction and after an interrupt, and the fetch that they stop. -/
theorem freshlyStoredCodeStops : Obligations.FreshlyStoredCodeStops := by
  refine ⟨fun i s t h => mem_recentStores_of_exec h, fun i s t x n hat h hd j hj => ?fresh,
    fun n s t h => (entryFrame_of_interruptStep h).recentStores, fun s c hirq hp hc hfirst => ?stops⟩
  case fresh =>
    have hmem := (mem_recentStores_of_exec h ⟨x, n, s.cfg.ifetchDistance⟩).2 ⟨hd, .inl ⟨x, n, hat, rfl⟩⟩
    exact isFresh_of_mem hmem hj
  case stops => exact step_refused_of_fetchWord hirq (fetchWord_of_fresh (s := s.sampled) hp hc hfirst)

/-! ### The environment's writes -/

/-- Any of a list of one-byte writes makes an address fresh exactly when it names it (log 44). -/
theorem any_freshWrites (d : Nat) (l : List BusWrite) (a : Nat) :
    ((freshWrites d l).any fun r => decide (r.addr ≤ a) && decide (a < r.addr + r.len)) =
      (decide (0 < d) && l.any fun w => w.addr.toNat == a) := by
  have hbyte (w : BusWrite) : (decide (w.addr.toNat ≤ a) && decide (a < w.addr.toNat + 1)) = (w.addr.toNat == a) := by
    rw [Bool.eq_iff_iff]
    simp
    omega
  unfold freshWrites
  split
  · simp only [List.any_map, Function.comp_def, hbyte, decide_eq_true ‹0 < d›, Bool.true_and]
  · simp [*]

/-- The address is one of those that the environment's landing writes name. -/
def landsAt (s : State) (a : Nat) : Bool := s.landing.any fun w => w.addr.toNat == a

theorem isFresh_sampled (s : State) (a : Nat) :
    s.sampled.isFresh a = ((decide (0 < s.cfg.ifetchDistance) && landsAt s a) || s.isFresh a) := by
  rw [State.isFresh, State.sampled_recentStores, List.any_append, any_freshWrites]
  rfl

theorem tableByte_sampled (s : State) {i : Nat} (hi : i < tableSize) :
    s.sampled.tableByte i =
      (s.tableByte i || (s.isRam (s.cfg.vecBase.toNat + i) && landsAt s (s.cfg.vecBase.toNat + i))) :=
  getLsbD_landTable _ _ _ _ _ hi

theorem byteAt_sampled_of_not_landsAt {s : State} {a : Nat} (h : landsAt s a = false) :
    s.sampled.byteAt a = s.byteAt a := by
  refine read_landWrites_other _ _ _ fun w hw => ?_
  simpa using List.any_eq_false.1 h w hw

/-- The writes that the environment makes before the next step. -/
theorem landing_eq {s : State} {writes : List BusWrite}
    (h : s.busWrites.head? = some writes ∨ (s.busWrites = [] ∧ writes = [])) :
    s.landing = writes.filter fun w => s.isRam w.addr.toNat := by
  rcases h with h | ⟨h, rfl⟩
  · rw [State.landing, List.headD_eq_head?_getD, h, Option.getD_some]
  · rw [State.landing, h, List.headD_nil]

/-- Settles O10: the landing writes are those in memory that can be written, and the last to an address is the one that
stays. -/
theorem environmentWritesLand : Obligations.EnvironmentWritesLand := by
  intro s writes hwrites
  have hlanding := landing_eq hwrites
  refine ⟨fun before w after hsplit hlast hram => ?landed, fun a ha => ?kept, fun _ _ => rfl, rfl, rfl, rfl, rfl, rfl,
    rfl, rfl, rfl, rfl, rfl, rfl, rfl⟩
  case landed =>
    have hisRam : s.isRam w.addr.toNat = true := by simp [State.isRam, hram]
    have hlands : landsAt s w.addr.toNat = true := by
      simp only [landsAt, hlanding, hsplit, List.any_eq_true, List.mem_filter]
      exact ⟨w, ⟨by simp, hisRam⟩, by simp⟩
    refine ⟨?_, fun hd => ?_, fun i hi hw => ?_⟩
    · rw [State.byteAt, State.sampled_mem, hlanding, hsplit, List.filter_append,
        List.filter_cons_of_pos (p := fun w : BusWrite => s.isRam w.addr.toNat) hisRam]
      refine read_landWrites_last _ _ w _ fun v hv heq => ?_
      exact hlast v (List.mem_filter.1 hv).1 (BitVec.eq_of_toNat_eq heq)
    · simp [isFresh_sampled, hd, hlands]
    · rw [tableByte_sampled s hi, ← hw, hisRam, hlands]
      simp
  case kept =>
    have hnot : landsAt s a = false := by
      simp only [landsAt, hlanding, List.any_eq_false, List.mem_filter]
      rintro w ⟨hw, hram⟩ hat
      rw [beq_iff_eq.1 hat] at hram
      exact ha w hw (beq_iff_eq.1 hat) (by simpa [State.isRam] using hram)
    refine ⟨byteAt_sampled_of_not_landsAt hnot, ?_, fun i hi hia => ?_⟩
    · simp [isFresh_sampled, hnot]
    · simp [tableByte_sampled s hi, ← hia, hnot]

end Sys2Proof.Proofs
end

section
/-! PROOFS. Accesses outside memory: every load and store, the instruction fetch, and the vector fetch of TRAP, of an
interrupt and of the window exceptions (spec 20_memory.md R84, 60_exceptions.md R271, R282). -/

namespace Sys2Proof.Proofs

open Sys2Proof.Machine

/-! ### Loads, stores and fetches -/

theorem loadWord_of_firstUnmapped {s : State} {x j : Nat} (h : s.FirstUnmapped x 4 j) :
    loadWord s x = .error (.unmappedAddress (x + j)) := by
  simp only [loadWord, firstAddr_of_firstUnmapped h]

theorem storeBytes_of_firstUnmapped {s : State} {x j : Nat} {l : List Byte} (h : s.FirstUnmapped x l.length j) :
    storeBytes s x l = .error (.unmappedAddress (x + j)) := by
  simp only [storeBytes, firstAddr_of_firstUnmapped h]

theorem storeBytes_of_firstReadOnly {s : State} {x j : Nat} {l : List Byte} (h : s.FirstReadOnly x l.length j) :
    storeBytes s x l = .error (.storeToReadOnly (x + j)) := by
  simp only [storeBytes, firstAddr_of_present h.1, firstAddr_of_firstReadOnly h]

theorem fetchWord_of_firstUnmapped {s : State} {p : CodeAddr} {j : Nat} (h : s.FirstUnmapped p.toNat 2 j) :
    fetchWord s p = .error (.unmappedAddress (p.toNat + j)) := by
  simp only [fetchWord, firstAddr_of_firstUnmapped h]

theorem load_refused {i : Instr} {s : State} {x : Nat} {r : Refusal} (hs : s.Ready)
    (hregs : ∀ r ∈ i.registers s.pfxf, s.reachable r = true) (hat : i.loadsAt s = some x)
    (h : loadWord s x = .error r) : exec i s = .refused r := by
  obtain ⟨base, ea, a, hexec, hbase, rfl⟩ := exec_eq_loadEffect_of_loadsAt hat hregs
  have heffect : loadEffect base ea a s = .error r := by rw [loadEffect_eq hbase, h, res_bind_error]
  exact hexec.trans (ordinary_refused hs.1 heffect)

theorem StoresBytes.refused {i : Instr} {s : State} {x : Nat} {l : List Byte} {r : Refusal} (h : StoresBytes i s x l)
    (hs : s.Ready) (hstop : storeBytes s x l = .error r) : exec i s = .refused r := by
  obtain ⟨effect, hexec, heffect⟩ := h
  exact hexec.trans (ordinary_refused hs.1 (heffect.trans hstop))

/-! ### Vector fetches -/

/-- Where the jump through an entry stops depends on the memory map and the table's marks alone. -/
theorem vectorStops_congr {s t : State} {n : BitVec 6} {r : Refusal} (hc : t.cfg = s.cfg)
    (ht : t.tableWritten = s.tableWritten) (h : s.VectorStops n r) : t.VectorStops n r := by
  simpa only [State.VectorStops, State.FirstUnmapped, State.FirstUnwritten, State.Present, State.kindAt,
    State.tableByte, hc, ht] using h

/-- An exception whose window can be opened stops where the jump through its entry does (R282, U14). -/
theorem takeException_of_vectorStops {s : State} {n : BitVec 6} {r : Refusal} {isUnderflow : Bool} (ret : CodeAddr)
    (h : s.VectorStops n r) (hw : isUnderflow = true ∨ s.cwp ≠ 0) (hm : s.Mapped (entryWindow isUnderflow s)) :
    takeException n ret isUnderflow s = .error r := by
  have hopen : require (isUnderflow || s.cwp != 0) .windowPointerRange = .ok () :=
    (require_ok_iff _ _ ()).2 (by simpa using hw)
  have hlink : (s.enter n (entryWindow isUnderflow s)).reachable 15 = true :=
    reachable_of_mapped _ _ (by rwa [cwp_enter])
  have hload := loadVector_of_vectorStops
    (vectorStops_congr (t := (s.enter n (entryWindow isUnderflow s)).setReg 15 (halfOfCode ret)) rfl rfl h)
  simp only [entryWindow] at hlink hload
  simp only [takeException, hopen, writeReg_eq _ _ _ hlink, hload, res_bind_ok, res_bind_error]

theorem execTrap_of_vectorStops {s : State} {n : BitVec 6} {r : Refusal} (h : s.VectorStops n r) (h0 : s.cwp ≠ 0)
    (hm : s.Mapped (s.cwp - 1)) (hs : s.ReadyAlone) (hfits : s.pcFits 2) : execTrap n s = .refused r := by
  have hpc : pcPlus s 2 = .ok (s.pc + 2) := pcPlus_eq s 2 hfits
  have hstop : takeException n (s.pc + 2) false (s.retire (s.pc + 2)) = .error r :=
    takeException_of_vectorStops _ (vectorStops_congr rfl rfl h) (.inr h0) hm
  simp only [execTrap, requireNopDone_eq s false hs.1, requireNoSlot_eq s hs.2, hpc, hstop, res_bind_ok,
    outcome_refused]

/-- A window exception that is processed stops where taking it does (R278). -/
theorem windowException_error {s : State} {n : BitVec 6} {isUnderflow : Bool} {r : Refusal} (hie : s.ie = true)
    (hpri : n.toNat < s.ipri.toNat) (h : takeException n s.pc isUnderflow s = .error r) :
    windowException true n isUnderflow s = .error r := by
  simp [windowException, processes, hie, hpri, h]

theorem execSave_of_vectorStops {s : State} {r : Refusal} (m : BitVec 8) (h : s.VectorStops 1 r) (hs : s.Ready)
    (h0 : s.cwp ≠ 0) (hm : s.Mapped s.cwp) (hlimit : s.cwp = s.loLimit) (hie : s.ie = true)
    (hpri : 1 < s.ipri.toNat) : execSave m s = .refused r := by
  have hstop : takeException 1 (savedState s m).pc true (savedState s m) = .error r := by
    refine takeException_of_vectorStops _ (vectorStops_congr rfl rfl h) (.inl rfl) ?_
    have hbelow : (s.cwp - 1).toNat ≤ s.cwp.toNat := (toNat_sub_one h0).le.trans (Nat.sub_le _ _)
    have hopened : entryWindow true (savedState s m) = s.cwp - 1 := cwp_savedState s m
    rw [State.Mapped, hopened]
    exact hbelow.trans hm
  have hwindow : windowException (s.cwp == s.loLimit) 1 true (savedState s m) = .error r := by
    rw [beq_iff_eq.2 hlimit]
    exact windowException_error ((ie_setCwp s _).trans hie) ((ipri_setCwp s _).symm ▸ hpri) hstop
  have hsp := readReg_eq s spReg (reachable_of_mapped _ _ hm)
  have hwrite := writeReg_eq (s.setCwp (s.cwp - 1)) spReg (s.reg spReg - m.zeroExtend 32 * 4)
    (reachable_window_below h0 hm _)
  have hopen : require (s.cwp != 0) .windowPointerRange = .ok () := (require_ok_iff _ _ ()).2 (by simpa using h0)
  unfold savedState at hwindow
  simp only [execSave, requireNopDone_eq s false hs.1, hsp, hopen, hwrite, nextPc_eq s hs.2, hwindow, res_bind_ok,
    outcome_refused]

theorem execRestore_of_vectorStops {s : State} {r : Refusal} (h : s.VectorStops 2 r) (hs : s.Ready) (h31 : s.cwp ≠ 31)
    (hm : s.Mapped s.cwp) (hlimit : s.cwp = s.hiLimit) (hie : s.ie = true) (hpri : 2 < s.ipri.toNat) :
    execRestore s = .refused r := by
  have hcwp : (restoredState s).cwp = s.cwp + 1 := cwp_setCwp s _
  have hstop : takeException 2 (restoredState s).pc false (restoredState s) = .error r := by
    refine takeException_of_vectorStops _ (vectorStops_congr rfl rfl h) (.inr (hcwp ▸ add_one_ne_zero h31)) ?_
    have hback : entryWindow false (restoredState s) = s.cwp := by
      simp only [entryWindow, hcwp, Bool.false_eq_true, if_false, BitVec.add_sub_cancel]
    exact hback.symm ▸ hm
  have hwindow : windowException (s.cwp == s.hiLimit) 2 false (restoredState s) = .error r := by
    rw [beq_iff_eq.2 hlimit]
    exact windowException_error ((ie_setCwp s _).trans hie) ((ipri_setCwp s _).symm ▸ hpri) hstop
  have hopen : require (s.cwp != 31) .windowPointerRange = .ok () := (require_ok_iff _ _ ()).2 (by simpa using h31)
  unfold restoredState at hwindow
  simp only [execRestore, requireNopDone_eq s false hs.1, hopen, nextPc_eq s hs.2, hwindow, res_bind_ok,
    outcome_refused]

/-- Settles O39: each access stops at its own check, after the registers and the window it needs. -/
theorem accessesOutsideMemoryStop : Obligations.AccessesOutsideMemoryStop := by
  refine ⟨fun i s hs hregs =>
      ⟨fun x j hat h => ?load, fun x n j hat h => ?unmapped, fun x n j hat h => ?readOnly⟩,
    fun s j hirq h => ?fetch, fun s n r h h0 hm => ⟨?interrupt, execTrap_of_vectorStops h h0 hm⟩,
    fun s m r h hs h0 hm => execSave_of_vectorStops m h hs h0 hm,
    fun s r h hs h31 hm => execRestore_of_vectorStops h hs h31 hm⟩
  case load => exact load_refused hs hregs hat (loadWord_of_firstUnmapped h)
  case unmapped =>
    obtain ⟨l, rfl, hstores⟩ := storesBytes_of_storesAt hat hregs
    exact hstores.refused hs (storeBytes_of_firstUnmapped h)
  case readOnly =>
    obtain ⟨l, rfl, hstores⟩ := storesBytes_of_storesAt hat hregs
    exact hstores.refused hs (storeBytes_of_firstReadOnly h)
  case fetch => exact step_refused_of_fetchWord hirq (fetchWord_of_firstUnmapped (s := s.sampled) h)
  case interrupt => exact congrArg outcome (takeException_of_vectorStops (isUnderflow := false) s.pc h (.inr h0) hm)

end Sys2Proof.Proofs
end

section
/-! PROOFS. The decoder and the encoder: the fields that the formats cut a word into, the round trips between words and
instructions, the words that are no instruction, and the step that meets one (spec 30_encoding.md R100 to R114, R128,
R130). -/

namespace Sys2Proof.Proofs

open Sys2Proof.Machine

/-! ### The fields of a word -/

/-- A field that lies within another is a part of it. -/
theorem extractLsb'_of_field {v start len : Nat} {w : BitVec v} {c : BitVec len} (h : w.extractLsb' start len = c)
    (start' len' : Nat) (hlo : start ≤ start') (hhi : start' + len' ≤ start + len) :
    w.extractLsb' start' len' = c.extractLsb' (start' - start) len' := by
  subst h
  refine BitVec.eq_of_getLsbD_eq fun j hj => ?_
  simp [hj, show start' - start + j < len by omega, show start + (start' - start + j) = start' + j by omega]

/-- Two fields that make up a word. -/
theorem append_eq_iff {m n : Nat} {hi : BitVec m} {lo : BitVec n} {w : BitVec (m + n)} :
    hi ++ lo = w ↔ w.extractLsb' n m = hi ∧ w.extractLsb' 0 n = lo := by
  constructor
  · rintro rfl
    exact ⟨by simp [BitVec.extractLsb'_append_eq_of_le], by simp [BitVec.extractLsb'_append_eq_of_add_le]⟩
  · rintro ⟨rfl, rfl⟩
    exact BitVec.extractLsb'_append_extractLsb'

/-- A field is the two parts of it. -/
theorem field_eq_append_iff {v m n start : Nat} {w : BitVec v} {hi : BitVec m} {lo : BitVec n} :
    w.extractLsb' start (m + n) = hi ++ lo ↔ w.extractLsb' (start + n) m = hi ∧ w.extractLsb' start n = lo := by
  rw [eq_comm, append_eq_iff, extractLsb'_of_field (w := w) (start := start) (len := m + n) rfl (start + n) m
    (by omega) (by omega), extractLsb'_of_field (w := w) (start := start) (len := m + n) rfl start n
    (by omega) (by omega), Nat.add_sub_cancel_left, Nat.sub_self]

/-- Three fields that make up a word. -/
theorem append_append_eq_iff {l m n : Nat} {hi : BitVec l} {mid : BitVec m} {lo : BitVec n} {w : BitVec (l + m + n)} :
    hi ++ mid ++ lo = w ↔
      w.extractLsb' (n + m) l = hi ∧ w.extractLsb' n m = mid ∧ w.extractLsb' 0 n = lo := by
  rw [append_eq_iff, field_eq_append_iff, and_assoc]

/-- Four fields that make up a word. -/
theorem append_append_append_eq_iff {k l m n : Nat} {hi : BitVec k} {hm : BitVec l} {lm : BitVec m} {lo : BitVec n}
    {w : BitVec (k + l + m + n)} :
    hi ++ hm ++ lm ++ lo = w ↔
      w.extractLsb' (n + m + l) k = hi ∧ w.extractLsb' (n + m) l = hm ∧ w.extractLsb' n m = lm ∧
        w.extractLsb' 0 n = lo := by
  rw [append_eq_iff, field_eq_append_iff, field_eq_append_iff, and_assoc, and_assoc]

/-- The formats RR and Ri5 (R101). -/
theorem rr_eq_iff {op : BitVec 6} {b a : BitVec 5} {w : Half} :
    rr op b a = w ↔ w.extractLsb' 10 6 = op ∧ w.extractLsb' 5 5 = b ∧ w.extractLsb' 0 5 = a :=
  append_append_eq_iff

/-- The format Ri2u (R101). -/
theorem ri2u_eq_iff {op : BitVec 3} {n : BitVec 2} {a : RegIdx} {w : Half} :
    ri2u op n a = w ↔
      w.extractLsb' 10 6 = 0b011101#6 ∧ w.extractLsb' 7 3 = op ∧ w.extractLsb' 5 2 = n ∧ w.extractLsb' 0 5 = a :=
  append_append_append_eq_iff

/-- The format Ri1u (R101). -/
theorem ri1u_eq_iff {op : BitVec 3} {n : BitVec 1} {a : RegIdx} {w : Half} :
    ri2u op (n ++ 0#1) a = w ↔
      w.extractLsb' 10 6 = 0b011101#6 ∧ w.extractLsb' 7 3 = op ∧
        (w.extractLsb' 6 1 = n ∧ w.extractLsb' 5 1 = 0#1) ∧ w.extractLsb' 0 5 = a := by
  rw [ri2u_eq_iff, field_eq_append_iff (m := 1) (n := 1)]

/-- The formats Rw and w (R101). -/
theorem rw_eq_iff {op : BitVec 5} {a : RegIdx} {w : Half} :
    rw op a = w ↔ w.extractLsb' 10 6 = 0b011111#6 ∧ w.extractLsb' 5 5 = op ∧ w.extractLsb' 0 5 = a :=
  append_append_eq_iff

theorem bit_eq_ofBool (w : Half) (i : Nat) : w.extractLsb' i 1 = BitVec.ofBool (w.getLsbD i) := by
  refine BitVec.eq_of_getLsbD_eq fun j hj => ?_
  simp [show j = 0 by omega]

theorem bit_eq_zero_iff {w : Half} {i : Nat} : w.extractLsb' i 1 = 0#1 ↔ ¬w.getLsbD i = true := by
  rw [bit_eq_ofBool]
  cases w.getLsbD i <;> decide

theorem bit_eq_one_iff {w : Half} {i : Nat} : w.extractLsb' i 1 = 1#1 ↔ w.getLsbD i = true := by
  rw [bit_eq_ofBool]
  cases w.getLsbD i <;> decide

/-- A field that reaches up to bit 15 has the word's top bit. -/
theorem msb_eq_of_field {w : Half} {start len : Nat} {c : BitVec len} (h : w.extractLsb' start len = c)
    (hlen : 0 < len) (htop : start + len = 16) : w.msb = c.msb := by
  subst h
  simp only [BitVec.msb_extractLsb', hlen, htop, Nat.le_refl, decide_true, Bool.true_and, Nat.sub_self]
  rfl

theorem field_ne_of_msb_ne {w : Half} {start len : Nat} {c : BitVec len} (hmsb : w.msb ≠ c.msb) (hlen : 0 < len)
    (htop : start + len = 16) : w.extractLsb' start len ≠ c := fun h => hmsb (msb_eq_of_field h hlen htop)

/-! ### Decoding an encoded instruction -/

/-- With bit 15 clear the major opcode is `op6` (R103, R110). -/
theorem decodeWord_of_msb_false {w : Half} (h : w.msb = false) : decodeWord w = decodeSix w := by
  have hne (start : Nat) {len : Nat} (c : BitVec len) (hc : c.msb = true) (hlen : 0 < len) (htop : start + len = 16) :
      w.extractLsb' start len ≠ c := field_ne_of_msb_ne (by simp [h, hc]) hlen htop
  simp only [decodeWord, hne 13 0b111#3 rfl, hne 13 0b110#3 rfl, hne 12 0b1011#4 rfl, hne 12 0b1010#4 rfl,
    hne 11 0b10000#5 rfl, hne 11 0b10001#5 rfl, hne 11 0b10010#5 rfl, hne 11 0b10011#5 rfl, Nat.reduceLT,
    Nat.reduceAdd, if_false]

theorem decodeWord_of_opSix {w : Half} {op : BitVec 6} (hop : w.extractLsb' 10 6 = op) (h : op.msb = false) :
    decodeWord w = decodeSix w :=
  decodeWord_of_msb_false ((msb_eq_of_field hop (by decide) rfl).trans h)

/-- The bits that `decodeSix` looks at are those of `op6` below bit 15 (R110). -/
theorem opLow_of_opSix {w : Half} {op : BitVec 6} (hop : w.extractLsb' 10 6 = op) :
    w.extractLsb' 10 5 = op.extractLsb' 0 5 :=
  extractLsb'_of_field hop 10 5 (by decide) (by decide)

theorem decodeWord_of_u {w : Half} (hop : w.extractLsb' 10 6 = 0b011101#6) : decodeWord w = decodeU w := by
  rw [decodeWord_of_opSix hop rfl, decodeSix, opLow_of_opSix hop]
  rfl

theorem decodeWord_of_v {w : Half} (hop : w.extractLsb' 10 6 = 0b011110#6) : decodeWord w = decodeV w := by
  rw [decodeWord_of_opSix hop rfl, decodeSix, opLow_of_opSix hop]
  rfl

theorem decodeWord_of_w {w : Half} (hop : w.extractLsb' 10 6 = 0b011111#6) : decodeWord w = decodeW w := by
  rw [decodeWord_of_opSix hop rfl, decodeSix, opLow_of_opSix hop]
  rfl

/-- The round trip for one word, a format at a time (R101). -/
theorem decodeWord_encodeWord {i : Instr} (hwf : i.wellFormed = true) :
    decodeWord (encodeWord i) = .ok i.canonical := by
  generalize hw : encodeWord i = w
  cases i with
  | add | addi | sub | subi | cmp | cmpi | lsl | lsli | lsr | lsri | asr | asri | mov | movi | and | andn | or | xor
  | bgen | ext8d | skp0 | skp1 | ld | st | ext16d | movhi | nop | if0 | if1 =>
    obtain ⟨hop, hb, ha⟩ := rr_eq_iff.1 hw
    rw [decodeWord_of_opSix hop rfl]
    simp [decodeSix, opLow_of_opSix hop, hb, ha, Instr.canonical]
  | sts8s =>
    obtain ⟨hop, hn⟩ := append_eq_iff.1 hw
    rw [decodeWord_of_opSix hop rfl]
    simp [decodeSix, opLow_of_opSix hop, hn, Instr.canonical]
  | sts16s =>
    obtain ⟨hop, hn, hzero⟩ := append_append_eq_iff.1 hw
    rw [decodeWord_of_opSix hop rfl]
    simp [-BitVec.getLsbD_eq_getElem, decodeSix, opLow_of_opSix hop, hn, bit_eq_zero_iff.1 hzero, Instr.canonical]
  | ext8s | st8s =>
    obtain ⟨hop, hu, hn, ha⟩ := ri2u_eq_iff.1 hw
    rw [decodeWord_of_u hop]
    simp [decodeU, hu, hn, ha, Instr.canonical]
  | ext16s | st16s =>
    obtain ⟨hop, hu, ⟨hn, hzero⟩, ha⟩ := ri1u_eq_iff.1 hw
    rw [decodeWord_of_u hop]
    simp [-BitVec.getLsbD_eq_getElem, decodeU, hu, hn, ha, bit_eq_zero_iff.1 hzero, Instr.canonical]
  | save =>
    obtain ⟨hop, hv, hn⟩ := append_append_eq_iff.1 hw
    rw [decodeWord_of_v hop]
    simp [decodeV, hv, hn, Instr.canonical]
  | trap =>
    obtain ⟨hop, hv, hzero, hn⟩ := append_append_append_eq_iff.1 hw
    rw [decodeWord_of_v hop]
    simp [decodeV, hv, hzero, hn, Instr.canonical]
  | not | neg | abs | sext8 | sext16 | rlc | rrc | swap | restore | tret | st8d | st16d | fill8 | fill16 | mstep | mul
  | skprz | wrctl | rdctl | skprnz | jmp | call | lret | ret | ifrnz | ifrz =>
    obtain ⟨hop, hfive, ha⟩ := rw_eq_iff.1 hw
    rw [decodeWord_of_w hop]
    simp [decodeW, hfive, ha, Instr.canonical]
  | skps | ifs =>
    obtain ⟨hop, hfive, hzero, hc⟩ := append_append_append_eq_iff.1 hw
    rw [decodeWord_of_w hop]
    have hcond : isCondition _ = true := hwf
    simp [-BitVec.getLsbD_eq_getElem, decodeW, hfive, bit_eq_zero_iff.1 hzero, hc, hcond, Instr.canonical]
  | br | bsr | pfx =>
    obtain ⟨hop, hn⟩ := append_eq_iff.1 hw
    have hthree := extractLsb'_of_field hop 13 3 (by decide) (by decide)
    have hfour := extractLsb'_of_field hop 12 4 (by decide) (by decide)
    simp [decodeWord, hop, hthree, hfour, hn, Instr.canonical]
  | stp | ldp =>
    obtain ⟨hop, hp, hn, ha⟩ := append_append_append_eq_iff.1 hw
    have hthree := extractLsb'_of_field hop 13 3 (by decide) (by decide)
    simp [decodeWord, hop, hthree, hp, hn, ha, Instr.canonical]
  | sts | lds =>
    obtain ⟨hop, hn, ha⟩ := append_append_eq_iff.1 hw
    simp [decodeWord, hop, hn, ha, Instr.canonical]

/-- A text that begins with the bytes of a word decodes as the word, with the bytes after it left (R73, R100). -/
theorem decode_bytesOfWord_append {w : Half} {i : Instr} (h : decodeWord w = .ok i) (rest : List Byte) :
    decode (bytesOfWord w ++ rest) = .ok (i, rest) := by
  have hword : wordOfBytes (w.extractLsb' 0 8) (w.extractLsb' 8 8) = w := halfOfBytes_extractLsb' w
  simp [decode, bytesOfWord, hword, h]

/-- Settles O1: the bytes of a word make it up again, and the word decodes by its format. -/
theorem decodeOfEncodeIsCanonical : Obligations.DecodeOfEncodeIsCanonical :=
  fun _ rest hwf => decode_bytesOfWord_append (decodeWord_encodeWord hwf) rest

/-! ### Encoding a decoded instruction -/

/-- The instruction has the word, and is what the decoder names it. -/
def StandsFor (w : Half) (i : Instr) : Prop := encodeWord i = w ∧ i.wellFormed = true ∧ i.canonical = i

/-- Whatever instruction the answer holds stands for the word. -/
def Sound (w : Half) (r : Except DecodeError Instr) : Prop := ∀ i, r = .ok i → StandsFor w i

theorem sound_error (w : Half) (e : DecodeError) : Sound w (.error e) := fun _ h => nomatch h

/-- The canonical name of a well-formed instruction stands for its word. -/
theorem sound_canonical {w : Half} {i : Instr} (hsame : Laws.SameWord.Statement i) (hw : encodeWord i = w)
    (hwf : i.wellFormed = true) : Sound w (.ok i.canonical) := by
  rintro _ ⟨⟩
  obtain ⟨hword, hname, hwell⟩ := hsame
  exact ⟨hword.trans hw, hwell.trans hwf, hname⟩

theorem sound_ok {w : Half} {i : Instr} (hw : encodeWord i = w) (hwf : i.wellFormed = true) (hname : i.canonical = i) :
    Sound w (.ok i) := by
  rintro _ ⟨⟩
  exact ⟨hw, hwf, hname⟩

/-- The decoders look at a field as a number, the formats as bits. -/
theorem eq_of_toNat_field {w : Half} {start len k : Nat} (h : (w.extractLsb' start len).toNat = k) :
    w.extractLsb' start len = BitVec.ofNat len k := by
  rw [← h, BitVec.ofNat_toNat, BitVec.setWidth_eq]

/-- With bit 15 clear, `op6` is the number of the five bits below it (R110). -/
theorem opSix_of_opLow {w : Half} {k : Nat} (hmsb : w.msb = false) (h : (w.extractLsb' 10 5).toNat = k) :
    w.extractLsb' 10 6 = BitVec.ofNat 6 k := by
  have hw : w.toNat < 2 ^ 15 := by simpa [BitVec.msb_eq_decide] using hmsb
  apply BitVec.eq_of_toNat_eq
  simp only [BitVec.extractLsb'_toNat, Nat.shiftRight_eq_div_pow, BitVec.toNat_ofNat] at h ⊢
  omega

theorem sound_decodeU {w : Half} (hop : w.extractLsb' 10 6 = 0b011101#6) : Sound w (decodeU w) := by
  unfold decodeU
  dsimp only
  split
  case h_1 hu | h_3 hu => exact sound_ok (ri2u_eq_iff.2 ⟨hop, eq_of_toNat_field hu, rfl, rfl⟩) rfl rfl
  case h_2 hu | h_4 hu =>
    split
    case isTrue => exact sound_error _ _
    case isFalse hbit =>
      exact sound_ok (ri1u_eq_iff.2 ⟨hop, eq_of_toNat_field hu, ⟨rfl, bit_eq_zero_iff.2 hbit⟩, rfl⟩) rfl rfl
  case h_5 => exact sound_error _ _

theorem sound_decodeV {w : Half} (hop : w.extractLsb' 10 6 = 0b011110#6) : Sound w (decodeV w) := by
  unfold decodeV
  split
  case h_1 hv => exact sound_ok (append_append_eq_iff.2 ⟨hop, eq_of_toNat_field hv, rfl⟩) rfl rfl
  case h_2 hv =>
    split
    case isTrue hzero =>
      exact sound_ok (append_append_append_eq_iff.2 ⟨hop, eq_of_toNat_field hv, hzero, rfl⟩) rfl rfl
    case isFalse => exact sound_error _ _
  case h_3 => exact sound_error _ _

/-- The arms of `decodeW` with no check of their own. -/
theorem sound_rw {w : Half} {i : Instr} {k : Nat} (hop : w.extractLsb' 10 6 = 0b011111#6)
    (hfive : (w.extractLsb' 5 5).toNat = k) (hi : encodeWord i = rw (BitVec.ofNat 5 k) (w.extractLsb' 0 5))
    (hwf : i.wellFormed = true) (hname : i.canonical = i) : Sound w (.ok i) :=
  sound_ok (hi.trans (rw_eq_iff.2 ⟨hop, eq_of_toNat_field hfive, rfl⟩)) hwf hname

theorem sound_decodeW {w : Half} (hop : w.extractLsb' 10 6 = 0b011111#6) : Sound w (decodeW w) := by
  unfold decodeW
  dsimp only
  split
  case h_8 | h_10 | h_11 | h_12 | h_13 | h_16 | h_28 | h_29 | h_30 => exact sound_error _ _
  case h_14 hfive =>
    split
    case isTrue hzero => exact sound_rw hop hfive (by rw [hzero]; rfl) rfl rfl
    case isFalse => exact sound_error _ _
  case h_24 hfive =>
    split
    case isTrue => exact sound_error _ _
    case isFalse hbit =>
      have hzero := bit_eq_zero_iff.2 hbit
      split
      case isTrue hcond =>
        exact sound_ok (append_append_append_eq_iff.2 ⟨hop, eq_of_toNat_field hfive, hzero, rfl⟩) hcond rfl
      case isFalse => exact sound_error _ _
  case h_31 hfive =>
    exact sound_canonical (Laws.SameWord.jmp _) (rw_eq_iff.2 ⟨hop, eq_of_toNat_field hfive, rfl⟩) rfl
  case h_32 =>
    have hfive : (w.extractLsb' 5 5).toNat = 31 := by
      have hlt := (w.extractLsb' 5 5).isLt
      grind
    exact sound_rw hop hfive rfl rfl rfl
  all_goals exact sound_rw hop ‹_› rfl rfl rfl

/-- The arms of `decodeSix` with no check of their own. -/
theorem sound_rr {w : Half} {i : Instr} {k : Nat} (hmsb : w.msb = false) (hop : (w.extractLsb' 10 5).toNat = k)
    (hi : encodeWord i = rr (BitVec.ofNat 6 k) (w.extractLsb' 5 5) (w.extractLsb' 0 5))
    (hwf : i.wellFormed = true) (hname : i.canonical = i) : Sound w (.ok i) :=
  sound_ok (hi.trans (rr_eq_iff.2 ⟨opSix_of_opLow hmsb hop, rfl, rfl⟩)) hwf hname

theorem sound_decodeSix {w : Half} (hmsb : w.msb = false) : Sound w (decodeSix w) := by
  unfold decodeSix
  dsimp only
  split
  case h_13 hop =>
    exact sound_canonical (Laws.SameWord.mov _ _) (rr_eq_iff.2 ⟨opSix_of_opLow hmsb hop, rfl, rfl⟩) rfl
  case h_25 hop => exact sound_ok (append_eq_iff.2 ⟨opSix_of_opLow hmsb hop, rfl⟩) rfl rfl
  case h_26 hop =>
    split
    case isTrue => exact sound_error _ _
    case isFalse hbit =>
      exact sound_ok (append_append_eq_iff.2 ⟨opSix_of_opLow hmsb hop, rfl, bit_eq_zero_iff.2 hbit⟩) rfl rfl
  case h_29 => exact sound_error _ _
  case h_30 hop => exact sound_decodeU (opSix_of_opLow hmsb hop)
  case h_31 hop => exact sound_decodeV (opSix_of_opLow hmsb hop)
  case h_32 =>
    have hop : (w.extractLsb' 10 5).toNat = 31 := by
      have hlt := (w.extractLsb' 10 5).isLt
      grind
    exact sound_decodeW (opSix_of_opLow hmsb hop)
  all_goals exact sound_rr hmsb ‹_› rfl rfl rfl

/-- The tests of `decodeWord` leave no word with bit 15 set (R103). -/
theorem msb_eq_false_of_fields {w : Half} (h7 : w.extractLsb' 13 3 ≠ 0b111#3) (h6 : w.extractLsb' 13 3 ≠ 0b110#3)
    (h11 : w.extractLsb' 12 4 ≠ 0b1011#4) (h10 : w.extractLsb' 12 4 ≠ 0b1010#4) (h16 : w.extractLsb' 11 5 ≠ 0b10000#5)
    (h17 : w.extractLsb' 11 5 ≠ 0b10001#5) (h18 : w.extractLsb' 11 5 ≠ 0b10010#5)
    (h19 : w.extractLsb' 11 5 ≠ 0b10011#5) : w.msb = false := by
  have hlt := w.isLt
  rw [BitVec.msb_eq_decide, decide_eq_false_iff_not]
  simp only [ne_eq, ← BitVec.toNat_inj, BitVec.extractLsb'_toNat, Nat.shiftRight_eq_div_pow, BitVec.toNat_ofNat] at *
  omega

theorem sound_decodeWord (w : Half) : Sound w (decodeWord w) := by
  unfold decodeWord
  dsimp only
  split_ifs with h7 h6 h11 h10 h16 h17 h18 h19
  · exact sound_ok (append_append_eq_iff.2 ⟨h7, rfl, rfl⟩) rfl rfl
  · exact sound_ok (append_append_eq_iff.2 ⟨h6, rfl, rfl⟩) rfl rfl
  · exact sound_ok (append_append_append_eq_iff.2 ⟨h11, rfl, rfl, rfl⟩) rfl rfl
  · exact sound_ok (append_append_append_eq_iff.2 ⟨h10, rfl, rfl, rfl⟩) rfl rfl
  · exact sound_ok (append_eq_iff.2 ⟨h16, rfl⟩) rfl rfl
  · exact sound_ok (append_eq_iff.2 ⟨h17, rfl⟩) rfl rfl
  · exact sound_error _ _
  · exact sound_ok (append_eq_iff.2 ⟨h19, rfl⟩) rfl rfl
  · exact sound_decodeSix (msb_eq_false_of_fields h7 h6 h11 h10 h16 h17 h18 h19)

/-- Settles O2: in each arm of the decoders the fields of the format make up the word. -/
theorem encodeOfDecodeIsTheWord : Obligations.EncodeOfDecodeIsTheWord := sound_decodeWord

/-! ### The words that are no instruction -/

/-- The words refused under `op6 = 011101`: an unassigned `op3u`, or format Ri1u with bit 5 set (R111, R130). -/
theorem decodeU_error_iff (w : Half) :
    (∃ e, decodeU w = .error e) ↔
      w.extractLsb' 7 3 = 0b010#3 ∨ w.extractLsb' 7 3 = 0b011#3 ∨ w.extractLsb' 7 3 = 0b110#3 ∨
        w.extractLsb' 7 3 = 0b111#3 ∨
        ((w.extractLsb' 7 3 = 0b001#3 ∨ w.extractLsb' 7 3 = 0b101#3) ∧ w.extractLsb' 5 1 = 1#1) := by
  have hrest : ∀ op : BitVec 3, (op.toNat = 0 → False) → (op.toNat = 1 → False) → (op.toNat = 4 → False) →
      (op.toNat = 5 → False) → op = 0b010#3 ∨ op = 0b011#3 ∨ op = 0b110#3 ∨ op = 0b111#3 := by decide
  unfold decodeU
  dsimp only
  split
  case h_1 hu | h_3 hu => simp [eq_of_toNat_field hu]
  case h_2 hu | h_4 hu =>
    rw [bit_eq_one_iff]
    cases hbit : w.getLsbD 5 <;> simp [-BitVec.getLsbD_eq_getElem, eq_of_toNat_field hu]
  case h_5 h0 h1 h4 h5 => rcases hrest _ h0 h1 h4 h5 with hu | hu | hu | hu <;> simp [hu]

/-- The words refused under `op6 = 011110`: an unassigned `op2v`, or TRAP with bits 7:6 not 00 (R112, R130). -/
theorem decodeV_error_iff (w : Half) :
    (∃ e, decodeV w = .error e) ↔
      w.extractLsb' 8 2 = 0b10#2 ∨ w.extractLsb' 8 2 = 0b11#2 ∨
        (w.extractLsb' 8 2 = 0b01#2 ∧ w.extractLsb' 6 2 ≠ 0b00#2) := by
  have hrest : ∀ op : BitVec 2, (op.toNat = 0 → False) → (op.toNat = 1 → False) → op = 0b10#2 ∨ op = 0b11#2 := by
    decide
  unfold decodeV
  split
  case h_1 hv => simp [eq_of_toNat_field hv]
  case h_2 hv =>
    split
    case isTrue hzero => simp [eq_of_toNat_field hv, hzero]
    case isFalse hne => simpa [eq_of_toNat_field hv] using hne
  case h_3 h0 h1 => rcases hrest _ h0 h1 with hv | hv <;> simp [hv]

theorem isCondition_eq_false_iff (c : BitVec 4) : isCondition c = false ↔ c = 0xe#4 ∨ c = 0xf#4 := by
  revert c
  decide

/-- The words refused under `op6 = 011111`: an unassigned `op5w`, RESTORE with an operand, and SKPS with bit 4 set or a
number that is no condition (R113, R130). -/
theorem decodeW_error_iff (w : Half) :
    (∃ e, decodeW w = .error e) ↔
      w.extractLsb' 5 5 ∈ [0b00111#5, 0b01001#5, 0b01010#5, 0b01011#5, 0b01100#5, 0b01111#5, 0b11011#5, 0b11100#5,
          0b11101#5] ∨
        (w.extractLsb' 5 5 = 0b01101#5 ∧ w.extractLsb' 0 5 ≠ 0b00000#5) ∨
        (w.extractLsb' 5 5 = 0b10111#5 ∧ w.extractLsb' 4 1 = 1#1) ∨
        (w.extractLsb' 5 5 = 0b10111#5 ∧ w.extractLsb' 4 1 = 0#1 ∧
          (w.extractLsb' 0 4 = 0xe#4 ∨ w.extractLsb' 0 4 = 0xf#4)) := by
  rw [← isCondition_eq_false_iff, bit_eq_one_iff, bit_eq_zero_iff]
  unfold decodeW
  dsimp only
  split
  case h_14 hfive =>
    split
    case isTrue hzero => simp [eq_of_toNat_field hfive, hzero]
    case isFalse hne => simpa [eq_of_toNat_field hfive] using hne
  case h_24 hfive =>
    cases hbit : w.getLsbD 4 <;> cases hcond : isCondition (w.extractLsb' 0 4) <;>
      simp [-BitVec.getLsbD_eq_getElem, eq_of_toNat_field hfive]
  case h_32 =>
    have hfive : (w.extractLsb' 5 5).toNat = 31 := by
      have hlt := (w.extractLsb' 5 5).isLt
      grind
    simp [eq_of_toNat_field hfive]
  all_goals simp [eq_of_toNat_field ‹_›]

/-- The words refused with bit 15 clear (R110, R130). -/
theorem decodeSix_error_iff {w : Half} (hmsb : w.msb = false) :
    (∃ e, decodeSix w = .error e) ↔
      w.extractLsb' 10 6 = 0b011100#6 ∨ (w.extractLsb' 10 6 = 0b011101#6 ∧ ∃ e, decodeU w = .error e) ∨
        (w.extractLsb' 10 6 = 0b011110#6 ∧ ∃ e, decodeV w = .error e) ∨
        (w.extractLsb' 10 6 = 0b011111#6 ∧ ∃ e, decodeW w = .error e) ∨
        (w.extractLsb' 10 6 = 0b011001#6 ∧ w.extractLsb' 0 1 = 1#1) := by
  rw [bit_eq_one_iff]
  unfold decodeSix
  dsimp only
  split
  case h_26 hop =>
    cases hbit : w.getLsbD 0 <;> simp [-BitVec.getLsbD_eq_getElem, opSix_of_opLow hmsb hop]
  case h_32 =>
    have hop : (w.extractLsb' 10 5).toNat = 31 := by
      have hlt := (w.extractLsb' 10 5).isLt
      grind
    simp [opSix_of_opLow hmsb hop]
  all_goals simp [opSix_of_opLow hmsb ‹_›]

/-- The words that the decoder refuses, those of the minor opcodes under their major ones (R103, R130). -/
theorem decodeWord_error_iff (w : Half) :
    (∃ e, decodeWord w = .error e) ↔
      w.extractLsb' 10 6 = 0b011100#6 ∨ (w.extractLsb' 10 6 = 0b011101#6 ∧ ∃ e, decodeU w = .error e) ∨
        (w.extractLsb' 10 6 = 0b011110#6 ∧ ∃ e, decodeV w = .error e) ∨
        (w.extractLsb' 10 6 = 0b011111#6 ∧ ∃ e, decodeW w = .error e) ∨
        (w.extractLsb' 10 6 = 0b011001#6 ∧ w.extractLsb' 0 1 = 1#1) ∨ w.extractLsb' 11 5 = 0b10010#5 := by
  cases hmsb : w.msb with
  | false =>
    have hne : w.extractLsb' 11 5 ≠ 0b10010#5 := field_ne_of_msb_ne (by rw [hmsb]; decide) (by decide) rfl
    simp only [decodeWord_of_msb_false hmsb, decodeSix_error_iff hmsb, hne, or_false]
  | true =>
    have hne (op : BitVec 6) (hop : op.msb = false) : w.extractLsb' 10 6 ≠ op :=
      field_ne_of_msb_ne (by simp [hmsb, hop]) (by decide) rfl
    simp only [hne 0b011100#6 rfl, hne 0b011101#6 rfl, hne 0b011110#6 rfl, hne 0b011111#6 rfl, hne 0b011001#6 rfl,
      false_and, false_or]
    constructor
    · rintro ⟨e, he⟩
      unfold decodeWord at he
      dsimp only at he
      split_ifs at he with h7 h6 h11 h10 h16 h17 h18 h19
      · exact h18
      · rw [msb_eq_false_of_fields h7 h6 h11 h10 h16 h17 h18 h19] at hmsb
        cases hmsb
    · intro h18
      have hthree := extractLsb'_of_field h18 13 3 (by decide) (by decide)
      have hfour := extractLsb'_of_field h18 12 4 (by decide) (by decide)
      simp [decodeWord, h18, hthree, hfour]

/-- Settles O3: the refusals of the three minor decoders, under their major opcodes. -/
theorem undecodedWordsAreTheUnassigned : Obligations.UndecodedWordsAreTheUnassigned := by
  intro w
  rw [decodeWord_error_iff, decodeU_error_iff, decodeV_error_iff, decodeW_error_iff]

/-! ### The step that meets such a word -/

theorem fetchInstr_unassigned {s t : State} {w : Half} {e : DecodeError} (hf : fetchWord s s.pc = .ok (w, t))
    (hd : decodeWord w = .error e) : fetchInstr s = .error (.unassignedEncoding e) := by
  simp [fetchInstr, hf, hd]

theorem fetchInstr_unconfirmed {s t : State} {w : Half} {i : Instr} (hf : fetchWord s s.pc = .ok (w, t))
    (hd : decodeWord w = .ok i) (hi : i.fromGeneralKnowledge = true) (hcfg : s.cfg.admitGk = false) :
    fetchInstr s = .error .unconfirmedEncoding := by
  simp [fetchInstr, hf, hd, hi, hcfg]

theorem step_refused_of_fetchInstr {s : State} {r : Refusal} (hirq : interruptNow s = none)
    (h : fetchInstr s.sampled = .error r) : step s = .refused r := by
  rw [step_of_interruptNow_none hirq, instructionStep, h]

/-- Settles O7: the fetch goes through, and the word stops the step. -/
theorem stepRefusesUnassignedWords : Obligations.StepRefusesUnassignedWords := by
  intro s w hirq hw
  have hfetch : fetchWord s.sampled s.sampled.pc = .ok (w, s.sampled) := fetchWord_eq s.sampled hw
  exact ⟨fun e hd => step_refused_of_fetchInstr hirq (fetchInstr_unassigned hfetch hd),
    fun i hd hi hcfg => step_refused_of_fetchInstr hirq (fetchInstr_unconfirmed hfetch hd hi hcfg)⟩

/-! ### Written-out words and second names -/

/-- Settles O4: ten closed words. -/
theorem writtenOutWordsDecode : Obligations.WrittenOutWordsDecode := by
  unfold Obligations.WrittenOutWordsDecode
  decide

/-- Settles O5: the two names have one word and one meaning by definition. -/
theorem aliasesAreTheirPartners : Obligations.AliasesAreTheirPartners := by
  refine ⟨⟨rfl, rfl, rfl⟩, fun _ _ => ⟨rfl, rfl⟩, fun _ => ⟨rfl, rfl⟩, fun _ => rfl, fun s => ?_⟩
  exact ⟨rfl, rfl, rfl, fun _ _ => ⟨rfl, rfl⟩, fun _ => ⟨rfl, rfl⟩, fun _ => rfl⟩

end Sys2Proof.Proofs
end

section
/-! PROOFS. ADD, SUB and their immediate forms with the flags in unlimited precision, and the instructions that write a
constant (spec 40_arith.md R140 to R143, 41_logic_shift.md R173, 42_move_extract.md R183, R184). -/

namespace Sys2Proof.Proofs

open Sys2Proof.Machine

/-! ### The flags in unlimited precision -/

/-- A sum overflows exactly when the signs of the operands agree and the result's differs (R42). -/
theorem v_flagsAdd (x y : Word) : (flagsAdd x y).v = decide ((x + y).toInt ≠ x.toInt + y.toInt) := by
  have hx := x.isLt
  have hy := y.isLt
  rw [Bool.eq_iff_iff]
  simp only [flagsAdd, Bool.and_eq_true, beq_iff_eq, bne_iff_ne, decide_eq_true_eq, BitVec.msb_eq_decide,
    ne_eq, decide_eq_decide, BitVec.toInt_eq_toNat_cond, BitVec.toNat_add]
  split <;> split <;> split <;> omega

/-- A difference overflows exactly when the signs of the operands differ and the result's is the second's (R43). -/
theorem v_flagsSub (x y : Word) : (flagsSub x y).v = decide ((x - y).toInt ≠ x.toInt - y.toInt) := by
  have hx := x.isLt
  have hy := y.isLt
  rw [Bool.eq_iff_iff]
  simp only [flagsSub, Bool.and_eq_true, bne_iff_ne, decide_eq_true_eq, BitVec.msb_eq_decide, ne_eq, decide_eq_decide,
    BitVec.toInt_eq_toNat_cond, BitVec.toNat_sub]
  split <;> split <;> split <;> omega

theorem sumFlags_flagsAdd (x y : Word) : SumFlags x y (flagsAdd x y) := by
  obtain ⟨hn, hz, -, -⟩ := logicFlags_flagsNZ (x + y) (flagsAdd x y)
  exact ⟨hn, v_flagsAdd x y, hz, rfl⟩

theorem differenceFlags_flagsSub (x y : Word) : DifferenceFlags x y (flagsSub x y) := by
  obtain ⟨hn, -, -, -⟩ := logicFlags_flagsNZ (x - y) (flagsSub x y)
  exact ⟨hn, v_flagsSub x y, (z_flagsSub x y).trans (by simp only [BitVec.toNat_inj]), rfl⟩

/-! ### ADD, SUB, ADDI and SUBI -/

/-- A sum or difference with its second operand at hand (R140 to R143). -/
theorem arith_next {i : Instr} {s : State} {a : RegIdx} {operand : State → Res Word} {op : Word → Word → Word}
    {fl : Word → Word → Flags} {y : Word}
    (hexec : exec i s = ordinary false s fun s => arithEffect a (operand s) op fl s) (hs : s.Ready)
    (ha : s.reachable a = true) (hy : operand s = .ok y) :
    ∃ t, exec i s = .next t ∧ t.reg a = op (s.reg a) y ∧ t.flags = fl (s.reg a) y ∧ WritesOnly s t a ∧
      Follows s t := by
  have heffect := (arithEffect_ok_iff a (operand s) op fl s _).2 ⟨ha, y, hy, rfl⟩
  exact ⟨_, hexec.trans (ordinary_eq false hs heffect), by simp [ha], by simp, writesOnly_setReg_setFlags _ _ _ _ _,
    follows_retire _ _⟩

theorem add_next {i : Instr} {s : State} {a : RegIdx} {operand : State → Res Word} {y : Word}
    (hexec : exec i s = ordinary false s fun s => arithEffect a (operand s) (· + ·) flagsAdd s) (hs : s.Ready)
    (ha : s.reachable a = true) (hy : operand s = .ok y) :
    ∃ t, exec i s = .next t ∧ t.reg a = s.reg a + y ∧ SumFlags (s.reg a) y t.flags ∧ WritesOnly s t a ∧
      Follows s t := by
  obtain ⟨t, hnext, hreg, hflags, hframe⟩ := arith_next hexec hs ha hy
  exact ⟨t, hnext, hreg, hflags ▸ sumFlags_flagsAdd _ _, hframe⟩

theorem sub_next {i : Instr} {s : State} {a : RegIdx} {operand : State → Res Word} {y : Word}
    (hexec : exec i s = ordinary false s fun s => arithEffect a (operand s) (· - ·) flagsSub s) (hs : s.Ready)
    (ha : s.reachable a = true) (hy : operand s = .ok y) :
    ∃ t, exec i s = .next t ∧ t.reg a = s.reg a - y ∧ DifferenceFlags (s.reg a) y t.flags ∧ WritesOnly s t a ∧
      Follows s t := by
  obtain ⟨t, hnext, hreg, hflags, hframe⟩ := arith_next hexec hs ha hy
  exact ⟨t, hnext, hreg, hflags ▸ differenceFlags_flagsSub _ _, hframe⟩

/-- Settles O19: the second operand is the register or the immediate `K : IMM5`. -/
theorem addAndSubOfTwoOperands : Obligations.AddAndSubOfTwoOperands := by
  intro s a hs ha
  refine ⟨fun b hb => ?register, fun n y hy => ?immediate⟩
  case register =>
    have hread := readReg_eq s b hb
    exact ⟨add_next (operand := (readReg · b)) rfl hs ha hread, sub_next (operand := (readReg · b)) rfl hs ha hread⟩
  case immediate =>
    rw [eq_imm16 hy]
    exact ⟨add_next (operand := fun s => .ok (imm16 s.k n)) rfl hs ha rfl,
      sub_next (operand := fun s => .ok (imm16 s.k n)) rfl hs ha rfl⟩

/-! ### BGEN, MOVI and MOVHI -/

/-- An instruction whose effect is one register's new value, with what is said of that value. -/
theorem setReg_next {i : Instr} {s : State} {a : RegIdx} {effect : State → Res State} {v : Word} {P : Word → Prop}
    (hexec : exec i s = ordinary false s effect) (hs : s.Ready) (ha : s.reachable a = true)
    (heffect : effect s = .ok (s.setReg a v)) (hv : P v) :
    ∃ t, exec i s = .next t ∧ P (t.reg a) ∧ WritesOnly s t a ∧ t.flags = s.flags ∧ Follows s t := by
  refine ⟨_, hexec.trans (ordinary_eq false hs heffect), ?_, writesOnly_setReg _ _ _ _, rfl, follows_retire _ _⟩
  simpa [ha] using hv

theorem one_shiftLeft_toNat (n : BitVec 5) : ((1 : Word) <<< n.toNat).toNat = 2 ^ n.toNat := by
  have hlt : 2 ^ n.toNat < 2 ^ 32 := Nat.pow_lt_pow_right (by decide) n.isLt
  have hone : (1 : Word).toNat = 1 := rfl
  rw [BitVec.toNat_shiftLeft, hone, Nat.shiftLeft_eq, Nat.one_mul, Nat.mod_eq_of_lt hlt]

/-- The high half-word is the immediate, the low one the register's (R184). -/
theorem append_halfOf_toNat (k : BitVec 11) (n : BitVec 5) (x : Word) :
    ((k ++ n) ++ halfOf x 0).toNat = 2 ^ 16 * (32 * k.toNat + n.toNat) + x.toNat % 2 ^ 16 := by
  have hn := n.isLt
  have hlow := (halfOf x 0).isLt
  rw [BitVec.toNat_append, ← Nat.shiftLeft_add_eq_or_of_lt hlow, BitVec.toNat_append,
    ← Nat.shiftLeft_add_eq_or_of_lt hn, halfOf_toNat]
  simp only [Nat.shiftLeft_eq]
  omega

/-- Settles O26: each writes one word. -/
theorem bgenMoviMovhiWriteConstants : Obligations.BgenMoviMovhiWriteConstants := by
  intro s a n hs ha
  refine ⟨?bgen, ?movi, ?movhi⟩
  case bgen =>
    exact setReg_next (effect := (writeReg · a (1 <<< n.toNat))) (P := (·.toNat = _)) rfl hs ha (writeReg_eq s a _ ha)
      (one_shiftLeft_toNat n)
  case movi =>
    exact setReg_next (effect := fun s => writeReg s a (imm16 s.k n)) (P := (·.toNat = _)) rfl hs ha
      (writeReg_eq s a _ ha) (imm16_toNat s.k n)
  case movhi =>
    have heffect := (unaryEffect_ok_iff a (fun x => (s.k ++ n) ++ halfOf x 0) s _).2 ⟨ha, rfl⟩
    exact setReg_next (effect := fun s => unaryEffect a (fun x => (s.k ++ n) ++ halfOf x 0) s) (P := (·.toNat = _)) rfl
      hs ha heffect (append_halfOf_toNat s.k n (s.reg a))

end Sys2Proof.Proofs
end

section
/-! PROOFS. CMP and CMPI; NEG, ABS and NOT as whole numbers; MUL and MSTEP on `%r0` (spec 40_arith.md R144 to R149,
41_logic_shift.md R164). -/

namespace Sys2Proof.Proofs

open Sys2Proof.Machine

/-! ### CMP and CMPI -/

/-- A comparison with its second operand at hand (R144, R145). -/
theorem compare_next {i : Instr} {s : State} {a : RegIdx} {operand : State → Res Word} {y : Word}
    (hexec : exec i s = ordinary false s fun s => compareEffect a (operand s) s) (hs : s.Ready)
    (ha : s.reachable a = true) (hy : operand s = .ok y) :
    ∃ t, exec i s = .next t ∧ DifferenceFlags (s.reg a) y t.flags ∧ WritesNothing s t ∧ Follows s t := by
  have heffect := (compareEffect_ok_iff a (operand s) s _).2 ⟨ha, y, hy, rfl⟩
  refine ⟨_, hexec.trans (ordinary_eq false hs heffect), ?_, writesNothing_setFlags _ _ _, follows_retire _ _⟩
  simpa using differenceFlags_flagsSub (s.reg a) y

/-- Settles O20: the second operand is the register or the immediate `K : IMM5`. -/
theorem comparesSetFlagsOnly : Obligations.ComparesSetFlagsOnly := by
  intro s a hs ha
  refine ⟨fun b hb => ?register, fun n y hy => ?immediate⟩
  case register => exact compare_next (operand := (readReg · b)) rfl hs ha (readReg_eq s b hb)
  case immediate =>
    rw [eq_imm16 hy]
    exact compare_next (operand := fun s => .ok (imm16 s.k n)) rfl hs ha rfl

/-! ### NEG, ABS and NOT -/

/-- An instruction that replaces register `a` by a function of itself. -/
theorem unary_next {i : Instr} {s : State} {a : RegIdx} {op : Word → Word}
    (hexec : exec i s = ordinary false s (unaryEffect a op)) (hs : s.Ready) (ha : s.reachable a = true) :
    ∃ t, exec i s = .next t ∧ t.reg a = op (s.reg a) ∧ WritesOnly s t a ∧ t.flags = s.flags ∧ Follows s t :=
  setReg_next (P := (· = _)) hexec hs ha ((unaryEffect_ok_iff a op s _).2 ⟨ha, rfl⟩) rfl

/-- The negation of every word but the most negative number, which is its own (R146). -/
theorem zero_sub_cases (x : Word) :
    if x = 0x80000000#32 then 0 - x = 0x80000000#32 else (0 - x).toInt = -x.toInt := by
  rw [zero_sub]
  split
  case isTrue hmin => subst hmin; exact BitVec.neg_intMin
  case isFalse hmin => exact BitVec.toInt_neg_of_ne_intMin hmin

/-- The absolute value of every word but the most negative number, which is its own (R147). -/
theorem abs_cases (x : Word) :
    if x = 0x80000000#32 then x.abs = 0x80000000#32 else x.abs.toInt = (x.toInt.natAbs : Int) := by
  split
  case isTrue hmin => subst hmin; exact BitVec.abs_intMin
  case isFalse hmin => exact BitVec.toInt_abs_eq_natAbs_of_ne_intMin hmin

/-- ABS as the model computes it is the library's absolute value. -/
theorem ite_msb_zero_sub (x : Word) : (if x.msb then 0 - x else x) = x.abs := by
  rw [BitVec.abs_eq, zero_sub]

/-- Settles O21: each replaces the register by a function of it. -/
theorem negAbsNotReplaceARegister : Obligations.NegAbsNotReplaceARegister := by
  intro s a hs ha
  refine ⟨?neg, ?abs, ?not⟩
  case neg =>
    obtain ⟨t, hnext, hreg, hframe⟩ := unary_next (i := .neg a) rfl hs ha
    exact ⟨t, hnext, hreg ▸ zero_sub_cases (s.reg a), hframe⟩
  case abs =>
    obtain ⟨t, hnext, hreg, hframe⟩ := unary_next (i := .abs a) rfl hs ha
    rw [ite_msb_zero_sub] at hreg
    exact ⟨t, hnext, hreg ▸ abs_cases (s.reg a), hframe⟩
  case not =>
    obtain ⟨t, hnext, hreg, hframe⟩ := unary_next (i := .not a) rfl hs ha
    exact ⟨t, hnext, hreg ▸ BitVec.toNat_not, hframe⟩

/-! ### MUL and MSTEP -/

/-- An instruction that replaces `%r0` by a function of itself and register `a`. -/
theorem onR0_next {i : Instr} {s : State} {a : RegIdx} {op : Word → Word → Word}
    (hexec : exec i s = ordinary false s (onR0Effect a op)) (hs : s.Ready) (ha : s.reachable a = true) :
    ∃ t, exec i s = .next t ∧ t.reg 0 = op (s.reg 0) (s.reg a) ∧ WritesOnly s t 0 ∧ t.flags = s.flags ∧
      Follows s t :=
  setReg_next (P := (· = _)) hexec hs (reachable_zero s) ((onR0Effect_ok_iff a op s _).2 ⟨ha, rfl⟩) rfl

theorem toNat_and_lowHalf (x : Word) : (x &&& 0x0000FFFF).toNat = x.toNat % 2 ^ 16 :=
  Nat.and_two_pow_sub_one_eq_mod x.toNat 16

/-- The product of two half-words fits in a word (R148). -/
theorem mulLow_toNat (x y : Word) : (mulLow x y).toNat = x.toNat % 2 ^ 16 * (y.toNat % 2 ^ 16) := by
  have hfits : x.toNat % 2 ^ 16 * (y.toNat % 2 ^ 16) < 2 ^ 16 * 2 ^ 16 :=
    Nat.mul_lt_mul'' (Nat.mod_lt _ (by decide)) (Nat.mod_lt _ (by decide))
  rw [mulLow, BitVec.toNat_mul, toNat_and_lowHalf, toNat_and_lowHalf]
  exact Nat.mod_eq_of_lt hfits

/-- The bit that decides the addition is the one shifted out (R149). -/
theorem mulStep_toNat (x y : Word) :
    (mulStep x y).toNat = (2 * x.toNat + if 2 ^ 31 ≤ x.toNat then y.toNat else 0) % 2 ^ 32 := by
  have hmsb : x.msb = true ↔ 2 ^ 31 ≤ x.toNat := by simp [BitVec.msb_eq_decide]
  simp only [mulStep, ← hmsb]
  split <;> simp only [BitVec.toNat_add, BitVec.toNat_shiftLeft, Nat.shiftLeft_eq] <;> omega

/-- Settles O22: each replaces `%r0` by a function of it and the register. -/
theorem mulAndMstepWriteR0 : Obligations.MulAndMstepWriteR0 := by
  intro s a hs ha
  refine ⟨?mul, ?mstep⟩
  case mul =>
    obtain ⟨t, hnext, hreg, hframe⟩ := onR0_next (i := .mul a) rfl hs ha
    exact ⟨t, hnext, hreg ▸ mulLow_toNat (s.reg 0) (s.reg a), hframe⟩
  case mstep =>
    obtain ⟨t, hnext, hreg, hframe⟩ := onR0_next (i := .mstep a) rfl hs ha
    exact ⟨t, hnext, hreg ▸ mulStep_toNat (s.reg 0) (s.reg a), hframe⟩

end Sys2Proof.Proofs
end

section
/-! PROOFS. The six shifts as whole numbers, and the rotates through C as numbers of 33 bits (spec 41_logic_shift.md R165
to R172). -/

namespace Sys2Proof.Proofs

open Sys2Proof.Machine

/-! ### The shifts -/

/-- An instruction that replaces register `a` by a function of itself and register `b`. -/
theorem binary_next {i : Instr} {s : State} {a b : RegIdx} {op : Word → Word → Word}
    (hexec : exec i s = ordinary false s (binaryEffect a b op)) (hs : s.Ready) (ha : s.reachable a = true)
    (hb : s.reachable b = true) :
    ∃ t, exec i s = .next t ∧ t.reg a = op (s.reg a) (s.reg b) ∧ WritesOnly s t a ∧ t.flags = s.flags ∧
      Follows s t :=
  setReg_next (P := (· = _)) hexec hs ha ((binaryEffect_ok_iff a b op s _).2 ⟨ha, hb, rfl⟩) rfl

/-- Bits 4:0 of a register are its remainder by 32. -/
theorem shiftCount_eq_mod (y : Word) : shiftCount y = y.toNat % 32 := by
  rw [shiftCount, BitVec.extractLsb'_toNat, Nat.shiftRight_zero]

theorem toNat_shiftLeft_eq_mul (x : Word) (n : Nat) : (x <<< n).toNat = x.toNat * 2 ^ n % 2 ^ 32 := by
  rw [BitVec.toNat_shiftLeft, Nat.shiftLeft_eq]

theorem toNat_ushiftRight_eq_div (x : Word) (n : Nat) : (x >>> n).toNat = x.toNat / 2 ^ n := by
  rw [BitVec.toNat_ushiftRight, Nat.shiftRight_eq_div_pow]

/-- The arithmetic shift divides the signed number, rounding down. -/
theorem toInt_sshiftRight_eq_div (x : Word) (n : Nat) : (x.sshiftRight n).toInt = x.toInt / 2 ^ n := by
  rw [BitVec.toInt_sshiftRight, Int.shiftRight_eq_div_pow]
  norm_cast

/-- Settles O24: a register's count is its remainder by 32, an immediate's is the immediate. -/
theorem shiftsUseFiveBitCounts : Obligations.ShiftsUseFiveBitCounts := by
  intro s a hs ha
  refine ⟨fun b hb => ⟨?lsl, ?lsr, ?asr⟩, fun n => ⟨?lsli, ?lsri, ?asri⟩⟩
  case lsl =>
    obtain ⟨t, hnext, hreg, hframe⟩ := binary_next (i := .lsl a b) rfl hs ha hb
    exact ⟨t, hnext, by rw [hreg, toNat_shiftLeft_eq_mul, shiftCount_eq_mod], hframe⟩
  case lsr =>
    obtain ⟨t, hnext, hreg, hframe⟩ := binary_next (i := .lsr a b) rfl hs ha hb
    exact ⟨t, hnext, by rw [hreg, toNat_ushiftRight_eq_div, shiftCount_eq_mod], hframe⟩
  case asr =>
    obtain ⟨t, hnext, hreg, hframe⟩ := binary_next (i := .asr a b) rfl hs ha hb
    exact ⟨t, hnext, by rw [hreg, toInt_sshiftRight_eq_div, shiftCount_eq_mod], hframe⟩
  case lsli =>
    obtain ⟨t, hnext, hreg, hframe⟩ := unary_next (i := .lsli a n) rfl hs ha
    exact ⟨t, hnext, hreg ▸ toNat_shiftLeft_eq_mul (s.reg a) n.toNat, hframe⟩
  case lsri =>
    obtain ⟨t, hnext, hreg, hframe⟩ := unary_next (i := .lsri a n) rfl hs ha
    exact ⟨t, hnext, hreg ▸ toNat_ushiftRight_eq_div (s.reg a) n.toNat, hframe⟩
  case asri =>
    obtain ⟨t, hnext, hreg, hframe⟩ := unary_next (i := .asri a n) rfl hs ha
    exact ⟨t, hnext, hreg ▸ toInt_sshiftRight_eq_div (s.reg a) n.toNat, hframe⟩

/-! ### The rotates through C -/

/-- A rotate of register `a` and C: the word it makes of both, and the bit it carries out (R171, R172). -/
def rotateEffect (a : RegIdx) (rot : Bool → Word → Word) (out : Word → Bool) (s : State) : Res State := do
  let x ← readReg s a
  let t ← writeReg s a (rot s.flags.c x)
  return t.setFlags { s.flags with c := out x }

theorem exec_rlc (a : RegIdx) (s : State) :
    exec (.rlc a) s =
      ordinary false s (rotateEffect a (fun c x => x.extractLsb' 0 31 ++ BitVec.ofBool c) (·.getLsbD 31)) := rfl

theorem exec_rrc (a : RegIdx) (s : State) :
    exec (.rrc a) s =
      ordinary false s (rotateEffect a (fun c x => BitVec.ofBool c ++ x.extractLsb' 1 31) (·.getLsbD 0)) := rfl

theorem rotateEffect_eq {a : RegIdx} (rot : Bool → Word → Word) (out : Word → Bool) {s : State}
    (ha : s.reachable a = true) :
    rotateEffect a rot out s =
      .ok ((s.setReg a (rot s.flags.c (s.reg a))).setFlags { s.flags with c := out (s.reg a) }) := by
  rw [rotateEffect, readReg_eq s a ha, res_bind_ok, writeReg_eq s a _ ha, res_bind_ok, res_pure]

/-- A rotate completes, and of the flags only C changes. -/
theorem rotate_next {i : Instr} {s : State} {a : RegIdx} {rot : Bool → Word → Word} {out : Word → Bool}
    (hexec : exec i s = ordinary false s (rotateEffect a rot out)) (hs : s.Ready) (ha : s.reachable a = true) :
    ∃ t, exec i s = .next t ∧ t.reg a = rot s.flags.c (s.reg a) ∧ t.flags = { s.flags with c := out (s.reg a) } ∧
      WritesOnly s t a ∧ Follows s t :=
  ⟨_, hexec.trans (ordinary_eq false hs (rotateEffect_eq rot out ha)), by simp [ha], by simp,
    writesOnly_setReg_setFlags _ _ _ _ _, follows_retire _ _⟩

/-- The old C enters below the low 31 bits (R171). -/
theorem rotateLeft_toNat (c : Bool) (x : Word) :
    (x.extractLsb' 0 31 ++ BitVec.ofBool c).toNat = 2 * x.toNat % 2 ^ 32 + c.toNat := by
  have hc := (BitVec.ofBool c).isLt
  rw [BitVec.toNat_append, ← Nat.shiftLeft_add_eq_or_of_lt hc, BitVec.toNat_ofBool, BitVec.extractLsb'_toNat,
    Nat.shiftRight_zero, Nat.shiftLeft_eq]
  omega

/-- The old C enters above the high 31 bits (R172). -/
theorem rotateRight_toNat (c : Bool) (x : Word) :
    (BitVec.ofBool c ++ x.extractLsb' 1 31).toNat = x.toNat / 2 + 2 ^ 31 * c.toNat := by
  have hx := x.isLt
  have hhigh := (x.extractLsb' 1 31).isLt
  rw [BitVec.toNat_append, ← Nat.shiftLeft_add_eq_or_of_lt hhigh, BitVec.toNat_ofBool, BitVec.extractLsb'_toNat,
    Nat.shiftRight_eq_div_pow, Nat.shiftLeft_eq]
  omega

/-- Bit 31, which RLC carries out, as a number. -/
theorem getLsbD_31_eq_decide (x : Word) : x.getLsbD 31 = decide (2 ^ 31 ≤ x.toNat) := by
  rw [← BitVec.msb_eq_getLsbD_last (x := x), BitVec.msb_eq_decide]

/-- Bit 0, which RRC carries out, as a number. -/
theorem getLsbD_zero_eq_decide (x : Word) : x.getLsbD 0 = decide (x.toNat % 2 = 1) :=
  Nat.testBit_zero x.toNat

/-- Settles O25: each writes the old C and 31 bits of the register, and carries the other bit out. -/
theorem rotatesThroughCarry : Obligations.RotatesThroughCarry := by
  intro s a hs ha
  refine ⟨?rlc, ?rrc⟩
  case rlc =>
    obtain ⟨t, hnext, hreg, hflags, hframe⟩ := rotate_next (exec_rlc a s) hs ha
    exact ⟨t, hnext, hreg ▸ rotateLeft_toNat _ _, hflags ▸ getLsbD_31_eq_decide _, hflags ▸ rfl, hflags ▸ rfl,
      hflags ▸ rfl, hframe⟩
  case rrc =>
    obtain ⟨t, hnext, hreg, hflags, hframe⟩ := rotate_next (exec_rrc a s) hs ha
    exact ⟨t, hnext, hreg ▸ rotateRight_toNat _ _, hflags ▸ getLsbD_zero_eq_decide _, hflags ▸ rfl, hflags ▸ rfl,
      hflags ▸ rfl, hframe⟩

end Sys2Proof.Proofs
end

section
/-! PROOFS. The extracts, the sign extensions, SWAP and the fills as whole numbers (spec 42_move_extract.md R180, R186 to
R194). -/

namespace Sys2Proof.Proofs

open Sys2Proof.Machine

/-! ### The extracts -/

/-- Byte `n` of a word, zero-extended (R180). -/
theorem zeroExtend_byteOf_toNat (x : Word) (n : Nat) :
    ((byteOf x n).zeroExtend 32).toNat = x.toNat / 2 ^ (8 * n) % 2 ^ 8 := by
  rw [BitVec.toNat_setWidth_of_le (by decide), byteOf_toNat]

/-- Half-word `n` of a word, zero-extended (R180). -/
theorem zeroExtend_halfOf_toNat (x : Word) (n : Nat) :
    ((halfOf x n).zeroExtend 32).toNat = x.toNat / 2 ^ (16 * n) % 2 ^ 16 := by
  rw [BitVec.toNat_setWidth_of_le (by decide), halfOf_toNat]

/-- Settles O29: a register's lane is in its low bits, an immediate's is the immediate. -/
theorem extractsKeepOneLane : Obligations.ExtractsKeepOneLane := by
  intro s a hs ha
  refine ⟨fun b hb => ⟨?ext8d, ?ext16d⟩, fun n => ?ext8s, fun n => ?ext16s⟩
  case ext8d =>
    obtain ⟨t, hnext, hreg, hframe⟩ := binary_next (i := .ext8d a b) rfl hs ha hb
    exact ⟨t, hnext, by rw [hreg, zeroExtend_byteOf_toNat, byteLane_toNat], hframe⟩
  case ext16d =>
    obtain ⟨t, hnext, hreg, hframe⟩ := binary_next (i := .ext16d a b) rfl hs ha hb
    exact ⟨t, hnext, by rw [hreg, zeroExtend_halfOf_toNat, halfLane_toNat], hframe⟩
  case ext8s =>
    obtain ⟨t, hnext, hreg, hframe⟩ := unary_next (i := .ext8s a n) rfl hs ha
    exact ⟨t, hnext, hreg ▸ zeroExtend_byteOf_toNat (s.reg a) n.toNat, hframe⟩
  case ext16s =>
    obtain ⟨t, hnext, hreg, hframe⟩ := unary_next (i := .ext16s a n) rfl hs ha
    exact ⟨t, hnext, hreg ▸ zeroExtend_halfOf_toNat (s.reg a) n.toNat, hframe⟩

/-! ### SEXT8, SEXT16, SWAP, FILL8 and FILL16 -/

/-- A fill of `%r0`: the word it makes of register `a` (R192, R193). -/
def fillEffect (a : RegIdx) (fill : Word → Word) (s : State) : Res State := do
  let x ← readReg s a
  writeReg s 0 (fill x)

theorem exec_fill8 (a : RegIdx) (s : State) :
    exec (.fill8 a) s =
      ordinary false s (fillEffect a fun x => byteOf x 0 ++ byteOf x 0 ++ byteOf x 0 ++ byteOf x 0) := rfl

theorem exec_fill16 (a : RegIdx) (s : State) :
    exec (.fill16 a) s = ordinary false s (fillEffect a fun x => halfOf x 0 ++ halfOf x 0) := rfl

theorem fillEffect_eq {a : RegIdx} (fill : Word → Word) {s : State} (ha : s.reachable a = true) :
    fillEffect a fill s = .ok (s.setReg 0 (fill (s.reg a))) := by
  rw [fillEffect, readReg_eq s a ha, res_bind_ok, writeReg_eq s 0 _ (reachable_zero s)]

/-- An instruction that replaces `%r0` by a function of register `a`. -/
theorem fill_next {i : Instr} {s : State} {a : RegIdx} {fill : Word → Word}
    (hexec : exec i s = ordinary false s (fillEffect a fill)) (hs : s.Ready) (ha : s.reachable a = true) :
    ∃ t, exec i s = .next t ∧ t.reg 0 = fill (s.reg a) ∧ WritesOnly s t 0 ∧ t.flags = s.flags ∧ Follows s t :=
  setReg_next (P := (· = _)) hexec hs (reachable_zero s) (fillEffect_eq fill ha) rfl

/-- Two fields side by side, as a number. -/
theorem append_toNat_eq_add {m n : Nat} (hi : BitVec m) (lo : BitVec n) :
    (hi ++ lo).toNat = 2 ^ n * hi.toNat + lo.toNat := by
  rw [BitVec.toNat_append, ← Nat.shiftLeft_add_eq_or_of_lt lo.isLt, Nat.shiftLeft_eq, Nat.mul_comm]

theorem byteOf_zero_toNat (x : Word) : (byteOf x 0).toNat = x.toNat % 2 ^ 8 := by
  rw [byteOf_toNat, Nat.mul_zero, Nat.pow_zero, Nat.div_one]

theorem halfOf_zero_toNat (x : Word) : (halfOf x 0).toNat = x.toNat % 2 ^ 16 := by
  rw [halfOf_toNat, Nat.mul_zero, Nat.pow_zero, Nat.div_one]

/-- The high half-word is what is left after 16 bits are dropped. -/
theorem halfOf_one_toNat (x : Word) : (halfOf x 1).toNat = x.toNat / 2 ^ 16 := by
  have hx := x.isLt
  rw [halfOf_toNat]
  omega

/-- A field of `w + 1` bits, sign-extended: its number when the top bit is clear, and `2 ^ (w + 1)` less when it is
set. -/
theorem signExtend_toInt {w : Nat} (x : BitVec (w + 1)) (h : w + 1 ≤ 32) :
    (x.signExtend 32).toInt = if x.toNat < 2 ^ w then (x.toNat : Int) else (x.toNat : Int) - 2 ^ (w + 1) := by
  rw [BitVec.toInt_signExtend_of_le h, BitVec.toInt_eq_toNat_cond, Nat.pow_succ']
  simp [pow_succ']

/-- The signed number of the low byte (R190). -/
theorem signExtend_byteOf_toInt (x : Word) :
    ((byteOf x 0).signExtend 32).toInt =
      if x.toNat % 2 ^ 8 < 2 ^ 7 then ((x.toNat % 2 ^ 8 : Nat) : Int) else ((x.toNat % 2 ^ 8 : Nat) : Int) - 2 ^ 8 := by
  rw [signExtend_toInt (byteOf x 0) (by decide), byteOf_zero_toNat]

/-- The signed number of the low half-word (R191). -/
theorem signExtend_halfOf_toInt (x : Word) :
    ((halfOf x 0).signExtend 32).toInt =
      if x.toNat % 2 ^ 16 < 2 ^ 15 then ((x.toNat % 2 ^ 16 : Nat) : Int)
      else ((x.toNat % 2 ^ 16 : Nat) : Int) - 2 ^ 16 := by
  rw [signExtend_toInt (halfOf x 0) (by decide), halfOf_zero_toNat]

/-- The low half-word above the high one (R194). -/
theorem swapped_toNat (x : Word) :
    (halfOf x 0 ++ halfOf x 1).toNat = 2 ^ 16 * (x.toNat % 2 ^ 16) + x.toNat / 2 ^ 16 := by
  rw [append_toNat_eq_add, halfOf_zero_toNat, halfOf_one_toNat]

/-- The low byte in each of the four lanes (R192). -/
theorem filledBytes_toNat (x : Word) :
    (byteOf x 0 ++ byteOf x 0 ++ byteOf x 0 ++ byteOf x 0).toNat =
      x.toNat % 2 ^ 8 * (1 + 2 ^ 8 + 2 ^ 16 + 2 ^ 24) := by
  simp only [append_toNat_eq_add, byteOf_zero_toNat]
  ring

/-- The low half-word in both lanes (R193). -/
theorem filledHalves_toNat (x : Word) :
    (halfOf x 0 ++ halfOf x 0).toNat = x.toNat % 2 ^ 16 * (1 + 2 ^ 16) := by
  rw [append_toNat_eq_add, halfOf_zero_toNat]
  ring

/-- Settles O30: the sign extensions and SWAP replace the register by a function of it, the fills replace `%r0`. -/
theorem signExtendsFillsAndSwap : Obligations.SignExtendsFillsAndSwap := by
  intro s a hs ha
  refine ⟨?sext8, ?sext16, ?swap, ?fill8, ?fill16⟩
  case sext8 =>
    obtain ⟨t, hnext, hreg, hframe⟩ := unary_next (i := .sext8 a) rfl hs ha
    exact ⟨t, hnext, hreg ▸ signExtend_byteOf_toInt (s.reg a), hframe⟩
  case sext16 =>
    obtain ⟨t, hnext, hreg, hframe⟩ := unary_next (i := .sext16 a) rfl hs ha
    exact ⟨t, hnext, hreg ▸ signExtend_halfOf_toInt (s.reg a), hframe⟩
  case swap =>
    obtain ⟨t, hnext, hreg, hframe⟩ := unary_next (i := .swap a) rfl hs ha
    exact ⟨t, hnext, hreg ▸ swapped_toNat (s.reg a), hframe⟩
  case fill8 =>
    obtain ⟨t, hnext, hreg, hframe⟩ := fill_next (exec_fill8 a s) hs ha
    exact ⟨t, hnext, hreg ▸ filledBytes_toNat (s.reg a), hframe⟩
  case fill16 =>
    obtain ⟨t, hnext, hreg, hframe⟩ := fill_next (exec_fill16 a s) hs ha
    exact ⟨t, hnext, hreg ▸ filledHalves_toNat (s.reg a), hframe⟩

end Sys2Proof.Proofs
end

section
/-! PROOFS. The effective addresses as numbers, and the stores of one lane of `%r0` above `%sp` (spec 20_memory.md R77,
R78, 43_load_store.md R210 to R212). -/

namespace Sys2Proof.Proofs

open Sys2Proof.Machine

/-! ### Effective addresses as numbers -/

/-- A base and an unsigned offset of any width in units of `c` bytes, modulo 2^32. -/
theorem add_zeroExtend_mul_toNat {w : Nat} (x : Word) (v : BitVec w) (c : Nat) :
    (x + v.zeroExtend 32 * BitVec.ofNat 32 c).toNat = (x.toNat + c * v.toNat) % 2 ^ 32 := by
  rw [BitVec.toNat_add, BitVec.toNat_mul, BitVec.toNat_setWidth, BitVec.toNat_ofNat, ← Nat.mul_mod, Nat.add_mod_mod,
    Nat.mul_comm]

/-- A base and a signed offset of any width in words, modulo 2^32. -/
theorem add_signExtend_mul_four_toNat {w : Nat} (x : Word) (v : BitVec w) :
    ((x + v.signExtend 32 * 4).toNat : Int) = (x.toNat + 4 * v.toInt) % 2 ^ 32 := by
  have hsum : x + v.signExtend 32 * 4 = BitVec.ofInt 32 (x.toNat + 4 * v.toInt) := by
    rw [BitVec.ofInt_add, BitVec.ofInt_mul, BitVec.ofInt_natCast, BitVec.ofNat_toNat, BitVec.setWidth_eq,
      BitVec.mul_comm]
    rfl
  rw [hsum, BitVec.toNat_ofInt, Int.toNat_of_nonneg (Int.emod_nonneg _ (by decide))]
  rfl

/-- A word offset from the register: K is signed (R212). -/
theorem eaRegister_toNat (s : State) (b : RegIdx) :
    ((eaRegister s b).toNat : Int) = ((s.reg b).toNat + 4 * s.k.toInt) % 2 ^ 32 :=
  add_signExtend_mul_four_toNat (s.reg b) s.k

/-- The four pointer registers follow `%r15` (R10, R102). -/
theorem ptrReg_toNat (p : BitVec 2) : (ptrReg p).toNat = 16 + p.toNat := append_toNat_eq_add 0b100#3 p

/-- LDP and STP without PFX: IMM5 is unsigned (R201, R212). -/
theorem eaPointer_toNat_of_not_pfxf {s : State} (h : s.pfxf = false) (p : BitVec 2) (n : BitVec 5) :
    (eaPointer s p n).toNat = ((s.reg (ptrReg p)).toNat + 4 * n.toNat) % 2 ^ 32 := by
  rw [eaPointer, ptrOffset, h]
  exact add_zeroExtend_mul_toNat _ n 4

/-- LDP and STP after PFX: `K : IMM5` is signed (R201, R212). -/
theorem eaPointer_toNat_of_pfxf {s : State} (h : s.pfxf = true) (p : BitVec 2) (n : BitVec 5) :
    ((eaPointer s p n).toNat : Int) = ((s.reg (ptrReg p)).toNat + 4 * (s.k ++ n).toInt) % 2 ^ 32 := by
  rw [eaPointer, ptrOffset, h]
  exact add_signExtend_mul_four_toNat _ (s.k ++ n)

theorem eaStackWord_toNat (s : State) (n : BitVec 8) :
    (eaStackWord s n).toNat = ((s.reg 14).toNat + 4 * n.toNat) % 2 ^ 32 := add_zeroExtend_mul_toNat _ n 4

theorem eaStackByte_toNat (s : State) (n : BitVec 10) :
    (eaStackByte s n).toNat = ((s.reg 14).toNat + n.toNat) % 2 ^ 32 := by
  rw [eaStackByte, BitVec.toNat_add, BitVec.toNat_setWidth, Nat.add_mod_mod]
  rfl

theorem eaStackHalf_toNat (s : State) (n : BitVec 9) :
    (eaStackHalf s n).toNat = ((s.reg 14).toNat + 2 * n.toNat) % 2 ^ 32 := add_zeroExtend_mul_toNat _ n 2

/-- To clear the low two bits is to shift them out and back (R7). -/
theorem align32_eq_shift (x : Word) : align32 x = x >>> 2 <<< 2 := by
  rw [align32, show (0xFFFFFFFC : Word) = BitVec.allOnes 32 <<< 2 by rfl]
  apply BitVec.eq_of_getLsbD_eq
  intro i hi
  simp only [BitVec.getLsbD_and, BitVec.getLsbD_shiftLeft, BitVec.getLsbD_allOnes, BitVec.getLsbD_ushiftRight]
  grind

/-- The word address is the multiple of four at or below the effective address (R77, R78). -/
theorem wordAddr_eq (ea : Word) : wordAddr ea = ea.toNat / 4 * 4 := by
  have hea := ea.isLt
  rw [wordAddr, align32_eq_shift, BitVec.toNat_shiftLeft, BitVec.toNat_ushiftRight, Nat.shiftRight_eq_div_pow,
    Nat.shiftLeft_eq]
  omega

/-- Settles O31: sums modulo 2^32 of a base register and an unsigned or a signed offset. -/
theorem effectiveAddresses : Obligations.EffectiveAddresses :=
  ⟨eaRegister_toNat,
    fun _ p n => ⟨ptrReg_toNat p, (eaPointer_toNat_of_not_pfxf · p n), (eaPointer_toNat_of_pfxf · p n)⟩,
    fun s => ⟨eaStackWord_toNat s, eaStackByte_toNat s, eaStackHalf_toNat s⟩, wordAddr_eq⟩

/-! ### STS8s and STS16s -/

/-- The low bits of an immediate, as the lane that they name (R210, R211). -/
theorem extractLsb'_zero_toNat {w : Nat} (x : BitVec w) (k : Nat) : (x.extractLsb' 0 k).toNat = x.toNat % 2 ^ k := by
  rw [BitVec.extractLsb'_toNat, Nat.shiftRight_zero]

/-- Above a multiple of four, the aligned sum and the lane of the offset make up the sum (R210). -/
theorem aligned_sum_add_lane {sp : Nat} (h : sp % 4 = 0) (off : Nat) :
    (sp + off) % 2 ^ 32 / 4 * 4 + off % 4 = (sp + off) % 2 ^ 32 := by
  omega

/-- Settles O37: the lane is the low bits of the immediate, and with an aligned `%sp` they are those of the sum. -/
theorem stackPartialStores : Obligations.StackPartialStores := by
  intro s hs hsp
  refine ⟨fun n x hx hw => ⟨fun haligned => ?byteAddress, ?byte⟩,
    fun n x hx hw => ⟨fun haligned => ?halfAddress, ?half⟩⟩
  case byteAddress => rw [hx, wordAddr_eq, eaStackByte_toNat, aligned_sum_add_lane haligned]
  case byte => exact storeByte_of_writable (exec_sts8s n s) hs hsp (extractLsb'_zero_toNat n 2) hx hw
  case halfAddress =>
    have hlane : 2 * (n.toNat % 2) = 2 * n.toNat % 4 := (Nat.mul_mod_mul_left 2 n.toNat 2).symm
    rw [hx, wordAddr_eq, eaStackHalf_toNat, hlane, aligned_sum_add_lane haligned]
  case half => exact storeHalf_of_writable (exec_sts16s n s) hs hsp (extractLsb'_zero_toNat n 1) hx hw

end Sys2Proof.Proofs
end

section
/-! PROOFS. Branches, jumps, delay slots and skips: the end of a transfer, what may run while a target is pending, and
where a skip goes (spec 44_control.md R221 to R237, 60_exceptions.md R281, 70_reset_and_hazards.md R310). -/

namespace Sys2Proof.Proofs

open Sys2Proof.Machine

/-! ### The end of a transfer -/

/-- The state in which a transfer to `p` ends, after an effect that made `u` (R221). -/
def transferred (s u : State) (p : CodeAddr) : State := { u.retire (s.pc + 2) with bt := some p }

theorem writesNothing_transferred (s : State) (p : CodeAddr) : WritesNothing s (transferred s s p) where
  others := fun _ _ => rfl
  memory := ⟨fun _ => rfl, rfl⟩
  control := ⟨rfl, rfl, rfl, rfl, rfl, rfl, rfl, rfl⟩
  freeCount := rfl

/-- The state with the link of a BSR or CALL in `%o7` (R223, R225). -/
def linkState (s : State) : State := s.setReg 15 (halfOfCode (s.pc + 4))

theorem writesOnly_transferred_linkState (s : State) (p : CodeAddr) :
    WritesOnly s (transferred s (linkState s) p) 15 where
  others := fun _ hq => phys_setReg_other s 15 _ hq
  memory := ⟨fun _ => rfl, rfl⟩
  control := ⟨rfl, rfl, rfl, rfl, rfl, rfl, rfl, rfl⟩
  freeCount := rfl

theorem linked_eq {s : State} (hfits : s.pcFits 4) (hlink : s.reachable 15 = true) : linked s = .ok (linkState s) :=
  (linked_ok_iff _ _).2 ⟨hfits, hlink, rfl⟩

theorem pc_add_four_toNat {s : State} (h : s.pcFits 4) : (s.pc + 4).toNat = s.pc.toNat + 4 := by
  unfold State.pcFits at h
  rw [BitVec.toNat_add]
  exact Nat.mod_eq_of_lt (show s.pc.toNat + 4 < 2 ^ 33 by omega)

/-- The link is half of `pc + 4` (R223). -/
theorem reg_linkState {s : State} (hfits : s.pcFits 4) (hlink : s.reachable 15 = true) :
    ((linkState s).reg 15).toNat = (s.pc.toNat + 4) / 2 := by
  rw [linkState, reg_setReg_same _ _ _ hlink, halfOfCode_toNat, pc_add_four_toNat hfits]

/-! ### BR and BSR -/

theorem execBr_next {s : State} {n : BitVec 11} {p : CodeAddr} (hs : s.ReadyAlone) (hfits : s.pcFits 2)
    (hp : branchTarget s n = .ok p) : execBr n s = .next (transferred s s p) :=
  transfer_eq hs hfits (by simp [hp])

theorem execBsr_next {s : State} {n : BitVec 11} {p : CodeAddr} (hs : s.ReadyAlone) (hfits : s.pcFits 2)
    (hp : branchTarget s n = .ok p) (hl : linked s = .ok (linkState s)) :
    execBsr n s = .next (transferred s (linkState s) p) :=
  transfer_eq hs hfits (by simp [hp, hl])

/-- Settles O41: the target is the model's branch target, and BSR's effect is its link. -/
theorem branchesSetTheTarget : Obligations.BranchesSetTheTarget := by
  intro s n p hs hfits hp hmax
  have htarget := (branchTarget_ok_iff s n p).2 ⟨hp, hmax⟩
  refine ⟨⟨_, execBr_next hs hfits htarget, rfl, rfl, rfl, rfl, rfl, writesNothing_transferred s p, rfl⟩,
    fun hfits4 hlink => ?bsr⟩
  case bsr =>
    exact ⟨_, execBsr_next hs hfits htarget (linked_eq hfits4 hlink), rfl, rfl, rfl, rfl, rfl,
      reg_linkState hfits4 hlink, writesOnly_transferred_linkState s p, rfl⟩

/-! ### JMP, LRET, RET and CALL -/

theorem jumpTo_next {s : State} {a : RegIdx} (hs : s.ReadyAlone) (hfits : s.pcFits 2) (ha : s.reachable a = true) :
    jumpTo a s = .next (transferred s s (codeOfHalf (s.reg a))) :=
  transfer_eq hs hfits (by simp [readReg_eq s a ha])

theorem execCall_next {s : State} {a : RegIdx} (hs : s.ReadyAlone) (hfits : s.pcFits 2) (ha : s.reachable a = true)
    (hl : linked s = .ok (linkState s)) :
    execCall a s = .next (transferred s (linkState s) (codeOfHalf (s.reg a))) :=
  transfer_eq hs hfits (by simp [readReg_eq s a ha, hl])

/-- JMP and its two aliases (R224, R226, R227). -/
theorem jump_next {i : Instr} {s : State} {a : RegIdx} (hexec : exec i s = jumpTo a s) (hs : s.ReadyAlone)
    (hfits : s.pcFits 2) (ha : s.reachable a = true) :
    ∃ t p, exec i s = .next t ∧ t.bt = some p ∧ p.toNat = 2 * (s.reg a).toNat ∧ t.pc = s.pc + 2 ∧ t.k = 0 ∧
      t.pfxf = false ∧ t.nopReq = false ∧ WritesNothing s t ∧ t.flags = s.flags :=
  ⟨_, _, hexec.trans (jumpTo_next hs hfits ha), rfl, codeOfHalf_toNat _, rfl, rfl, rfl, rfl,
    writesNothing_transferred s _, rfl⟩

/-- Settles O42: LRET and RET are JMPs, and CALL reads its register in the state before the link. -/
theorem jumpsSetTheTarget : Obligations.JumpsSetTheTarget := by
  intro s hs hfits
  refine ⟨fun a ha => jump_next rfl hs hfits ha, fun hlink => jump_next rfl hs hfits hlink,
    fun hret => jump_next rfl hs hfits hret, fun a hfits4 ha hlink => ?call⟩
  case call =>
    exact ⟨_, _, execCall_next hs hfits ha (linked_eq hfits4 hlink), rfl, codeOfHalf_toNat _, rfl, rfl, rfl, rfl,
      reg_linkState hfits4 hlink, writesOnly_transferred_linkState s _, rfl⟩

/-! ### Which shape an instruction has -/

/-- The shape of instruction `i`: one of the three that instructions share, or an end of its own (R11). -/
inductive Shape (i : Instr) (s : State) : Prop
  | ordinary {isNop effect} (h : exec i s = ordinary isNop s effect) : Shape i s
  | transfer {effect} (h : exec i s = transfer s effect) : Shape i s
  | skip {test} (h : exec i s = skip s test) : Shape i s
  | pfx {n} (h : i = .pfx n) : Shape i s
  | save {n} (h : i = .save n) : Shape i s
  | restore (h : i = .restore) : Shape i s
  | trap {n} (h : i = .trap n) : Shape i s
  | tret {a} (h : i = .tret a) : Shape i s
  | wrctl {a} (h : i = .wrctl a) : Shape i s

/-- The case split of `exec`. Four instructions are named by their meaning, where to unify with it would be costly. -/
theorem shape_of_instr (i : Instr) (s : State) : Shape i s := by
  cases i with
  | br _ | bsr _ | jmp _ | call _ | lret | ret => exact .transfer (by rfl)
  | skp0 _ _ | skp1 _ _ | skprz _ | skprnz _ | skps _ => exact .skip (by rfl)
  | if0 _ _ | if1 _ _ | ifrz _ | ifrnz _ | ifs _ => exact .skip (by rfl)
  | pfx _ => exact .pfx rfl
  | save _ => exact .save rfl
  | restore => exact .restore rfl
  | trap _ => exact .trap rfl
  | tret _ => exact .tret rfl
  | wrctl _ => exact .wrctl rfl
  | addi a n => exact .ordinary (show execAddi a n s = _ from rfl)
  | subi a n => exact .ordinary (show execSubi a n s = _ from rfl)
  | cmpi a n => exact .ordinary (show execCmpi a n s = _ from rfl)
  | movhi a n => exact .ordinary (show execMovhi a n s = _ from rfl)
  | _ => exact .ordinary (by rfl)

/-! ### Delay slots -/

/-- In a delay slot the next pc is the target (R221). -/
theorem followPc_of_bt {s : State} {p : CodeAddr} (h : s.bt = some p) : s.followPc = p := by
  simp [State.followPc, h]

/-- A SAVE or RESTORE that made `u` ends there, or its window exception arose and was processed (R278, R280). -/
theorem bt_and_pc_of_windowException {w limit : BitVec 5} {n : BitVec 6} {isUnderflow : Bool} {s u t : State}
    (hw : windowException (w == limit) n isUnderflow u = .ok t) (hie : u.ie = s.ie) (hipri : u.ipri = s.ipri)
    (hbt : u.bt = none) : t.bt = none ∧ (t.pc = u.pc ∨ (w = limit ∧ processes s n = true)) := by
  have hprocesses : processes u n = processes s n := by simp [processes, hie, hipri]
  unfold windowException at hw
  split at hw
  case isTrue htaken =>
    simp only [hprocesses, Bool.and_eq_true, beq_iff_eq] at htaken
    exact ⟨(entryFrame_of_takeException hw).idle.bt, .inr htaken⟩
  case isFalse =>
    cases hw
    exact ⟨hbt, .inl rfl⟩

/-- Settles O43: a transfer, a skip, PFX, TRAP and TRET do not run in a delay slot, and what does ends at `followPc`,
which is the target, but for a window exception. -/
theorem delaySlotEndsAtTheTarget : Obligations.DelaySlotEndsAtTheTarget := by
  intro s t i p hbt h
  have hfollow := followPc_of_bt hbt
  have hslot : s.bt ≠ none := by simp [hbt]
  cases shape_of_instr i s with
  | ordinary hexec =>
    obtain ⟨-, -, u, -, rfl⟩ := (ordinary_next_iff _ _ _ _).1 (hexec.symm.trans h)
    exact ⟨rfl, .inl hfollow⟩
  | transfer hexec =>
    obtain ⟨-, hnone, -⟩ := (transfer_next_iff _ _ _).1 (hexec.symm.trans h)
    exact absurd hnone hslot
  | skip hexec =>
    obtain ⟨-, hnone, -⟩ := (skip_next_iff _ _ _).1 (hexec.symm.trans h)
    exact absurd hnone hslot
  | pfx hi =>
    subst hi
    obtain ⟨-, hnone, -⟩ := (execPfx_next_iff _ _ _).1 h
    exact absurd hnone hslot
  | save hi =>
    subst hi
    obtain ⟨-, -, -, -, -, hw⟩ := (execSave_next_iff _ _ _).1 h
    obtain ⟨hnone, hend⟩ := bt_and_pc_of_windowException (s := s) hw (by simp) (by simp) rfl
    exact ⟨hnone, hend.imp (·.trans hfollow) fun htaken => .inl ⟨_, rfl, htaken⟩⟩
  | restore hi =>
    subst hi
    obtain ⟨-, -, -, hw⟩ := (execRestore_next_iff _ _).1 h
    obtain ⟨hnone, hend⟩ := bt_and_pc_of_windowException (s := s) hw (by simp) (by simp) rfl
    exact ⟨hnone, hend.imp (·.trans hfollow) fun htaken => .inr ⟨rfl, htaken⟩⟩
  | trap hi =>
    subst hi
    obtain ⟨-, hnone, -⟩ := (execTrap_next_iff _ _ _).1 h
    exact absurd hnone hslot
  | tret hi =>
    subst hi
    obtain ⟨-, hnone, -⟩ := (execTret_next_iff _ _ _).1 h
    exact absurd hnone hslot
  | wrctl hi =>
    subst hi
    obtain ⟨-, -, -, u, -, rfl⟩ := (execWrctl_next_iff _ _ _).1 h
    exact ⟨rfl, .inl hfollow⟩

/-! ### Skips -/

theorem two_le_skipLength (b : Bool) (w : Half) : 2 ≤ skipLength b w := by
  unfold skipLength
  split
  · split <;> omega
  · omega

theorem skipLength_true_of_not_pfx {w : Half} (h : w.extractLsb' 11 5 ≠ 0b10011#5) : skipLength true w = 4 := by
  simp [skipLength, isPfxWord, h]

theorem skipLength_true_of_pfx {w : Half} (h : w.extractLsb' 11 5 = 0b10011#5) : skipLength true w = 6 := by
  simp [skipLength, isPfxWord, h]

/-- A skip whose next word is fetched from memory moves the pc by its length and writes nothing (R230, R231). -/
theorem skip_next {i : Instr} {s : State} {test : State → Res Bool} {b : Bool} {w : Half} {len : Nat}
    (hexec : exec i s = skip s test) (hs : s.ReadyAlone) (htest : test s = .ok b) (hw : s.Fetches (s.pc + 2) w)
    (hlen : skipLength b w = len) (hfits : s.pcFits len) :
    ∃ t, exec i s = .next t ∧ t.pc = s.pc + BitVec.ofNat 33 len ∧ Idle t ∧ WritesNothing s t ∧ t.flags = s.flags := by
  subst hlen
  have hfits2 : s.pcFits 2 := (Nat.add_le_add_left (two_le_skipLength b w) _).trans hfits
  have htarget := (skipTarget_ok_iff s b _ s).2 ⟨hfits2, w, fetchWord_eq s hw, hfits, rfl⟩
  exact ⟨_, hexec.trans ((skip_next_iff _ _ _).2 ⟨hs.1, hs.2, b, _, s, htest, rfl, htarget⟩), rfl, idle_retire _ _,
    writesNothing_retire _ _, rfl⟩

theorem skipsWhen_of_test {i : Instr} {s : State} {test : State → Res Bool} {b : Bool}
    (hexec : exec i s = skip s test) (hs : s.ReadyAlone) (htest : test s = .ok b) : SkipsWhen i s b := by
  refine ⟨?stays, ?overOne, ?overPfx⟩
  case stays =>
    rintro rfl w hw hfits
    exact skip_next hexec hs htest hw rfl hfits
  case overOne =>
    rintro rfl w hw hpfx hfits
    exact skip_next hexec hs htest hw (skipLength_true_of_not_pfx hpfx) hfits
  case overPfx =>
    rintro rfl w hw hpfx hfits
    exact skip_next hexec hs htest hw (skipLength_true_of_pfx hpfx) hfits

/-- SKP0, SKP1, IF0 and IF1 (R232, R233, R237). -/
theorem skipsWhen_of_skipOnBit {i : Instr} {s : State} {wanted : Bool} {a : RegIdx} {n : BitVec 5} {b : Bool}
    (hexec : exec i s = skipOnBit wanted a n s) (hs : s.ReadyAlone) (ha : s.reachable a = true)
    (hb : ((s.reg a).getLsbD n.toNat == wanted) = b) : SkipsWhen i s b :=
  skipsWhen_of_test hexec hs (by simp only [readReg_eq s a ha, res_bind_ok, res_pure, hb])

/-- SKPRz, SKPRnz, IFRz and IFRnz (R234, R235, R237). -/
theorem skipsWhen_of_skipOnZero {i : Instr} {s : State} {wanted : Bool} {a : RegIdx} {b : Bool}
    (hexec : exec i s = skipOnZero wanted a s) (hs : s.ReadyAlone) (ha : s.reachable a = true)
    (hb : ((s.reg a == 0) == wanted) = b) : SkipsWhen i s b :=
  skipsWhen_of_test hexec hs (by simp only [readReg_eq s a ha, res_bind_ok, res_pure, hb])

theorem skipsWhen_of_skipUnless {i : Instr} {s : State} {c : BitVec 4} {holds : Bool}
    (hexec : exec i s = skipUnless c s) (hs : s.ReadyAlone) (hc : condition c s.flags = some holds) :
    SkipsWhen i s !holds :=
  skipsWhen_of_test hexec hs (by simp only [hc])

/-- SKPS and IFS skip when the condition of their number is false (R236, R237). -/
theorem skipsWhen_of_condition {s : State} (hs : s.ReadyAlone) {c : BitVec 4} {holds : Bool}
    (hc : condition c s.flags = some holds) : SkipsWhen (.skps c) s !holds ∧ SkipsWhen (.ifs c) s !holds :=
  ⟨skipsWhen_of_skipUnless rfl hs hc, skipsWhen_of_skipUnless rfl hs hc⟩

theorem word_beq_zero (x : Word) : (x == 0) = decide (x.toNat = 0) := by
  rw [Bool.beq_eq_decide_eq, decide_eq_decide]
  exact BitVec.toNat_inj.symm

/-- Settles O44: every skip is one of three tests, and the condition table is that of the model. -/
theorem skipsTestARegisterOrACondition : Obligations.SkipsTestARegisterOrACondition := by
  refine ⟨fun s a hs ha => ⟨fun n => ?bits, ?zero⟩, fun s hs => ?conditions⟩
  case bits =>
    exact ⟨skipsWhen_of_skipOnBit rfl hs ha (beq_false _), skipsWhen_of_skipOnBit rfl hs ha (beq_true _),
      skipsWhen_of_skipOnBit rfl hs ha (beq_true _), skipsWhen_of_skipOnBit rfl hs ha (beq_false _)⟩
  case zero =>
    have hz : ((s.reg a == 0) == true) = decide ((s.reg a).toNat = 0) := by rw [beq_true, word_beq_zero]
    have hnz : ((s.reg a == 0) == false) = decide ((s.reg a).toNat ≠ 0) := by
      rw [beq_false, word_beq_zero, decide_not]
    exact ⟨skipsWhen_of_skipOnZero rfl hs ha hz, skipsWhen_of_skipOnZero rfl hs ha hnz,
      skipsWhen_of_skipOnZero rfl hs ha hnz, skipsWhen_of_skipOnZero rfl hs ha hz⟩
  case conditions =>
    have hge : (!(s.flags.n ^^ s.flags.v)) = (s.flags.n == s.flags.v) := Bool.not_not _
    have hgt : (!(s.flags.z || (s.flags.n ^^ s.flags.v))) = (!s.flags.z && s.flags.n == s.flags.v) := by
      rw [Bool.not_or, hge]
    have hugt : (!(s.flags.c || s.flags.z)) = (!s.flags.c && !s.flags.z) := Bool.not_or _ _
    have hskip {c : BitVec 4} {holds : Bool} := skipsWhen_of_condition (c := c) (holds := holds) hs
    simp only [List.forall_mem_cons]
    exact ⟨hskip rfl, hskip rfl, hskip rfl, hskip rfl, hskip rfl, hskip rfl, hskip rfl, hskip (congrArg some hge),
      hskip (congrArg some hgt), hskip rfl, hskip rfl, hskip rfl, hskip (congrArg some hugt), hskip rfl,
      List.forall_mem_nil _⟩

end Sys2Proof.Proofs
end

section
/-! PROOFS. Entering a handler from a TRAP and from the window exceptions of SAVE and RESTORE, leaving it with TRET, and
the control registers that RDCTL reads (spec 10_state.md R38, R39, 45_system.md R251 to R258, 60_exceptions.md R278 to
R283). -/

namespace Sys2Proof.Proofs

open Sys2Proof.Machine

/-! ### The state that an exception makes -/

/-- The state at the start of the handler of exception `n`, whose entry in the vector table stands in memory (R280 to
R282). -/
def handlerState (n : BitVec 6) (ret : CodeAddr) (isUnderflow : Bool) (s : State) : State :=
  ((s.enter n (entryWindow isUnderflow s)).setReg 15 (halfOfCode ret)).divert
    (codeOfHalf (s.wordAt (vectorAddr s n)))

/-- A readable entry is read from memory and draws no free value (R282). -/
theorem takeException_eq {s : State} {n : BitVec 6} (ret : CodeAddr) {isUnderflow : Bool} (hv : s.VectorReadable n)
    (hopen : isUnderflow = true ∨ s.cwp ≠ 0) (hm : s.Mapped (entryWindow isUnderflow s)) :
    takeException n ret isUnderflow s = .ok (handlerState n ret isUnderflow s) := by
  have hread : s.Readable (vectorAddr s n) 4 := hv.1
  have hlink : (s.enter n (entryWindow isUnderflow s)).reachable 15 = true :=
    reachable_of_mapped _ _ (by rwa [cwp_enter])
  have hload : ((s.enter n (entryWindow isUnderflow s)).setReg 15 (halfOfCode ret)).afterRead (vectorAddr s n) 4 =
      (s.enter n (entryWindow isUnderflow s)).setReg 15 (halfOfCode ret) := afterRead_of_readable _ hread
  have hword : s.busWord (vectorAddr s n) = s.wordAt (vectorAddr s n) := busWord_of_readable s hread
  refine (takeException_ok_iff _ _ _ _ _).2
    ⟨hopen, hlink, isUnmapped_of_readable s hread, isUnwritten_of_vectorReadable s hv, ?_⟩
  rw [hload, hword, handlerState]

theorem cwp_handlerState (s : State) (n : BitVec 6) (ret : CodeAddr) (isUnderflow : Bool) :
    (handlerState n ret isUnderflow s).cwp = entryWindow isUnderflow s := cwp_enter s n _

/-- Of the registers only `%o7` of the handler's window changes (R281). -/
theorem keepsRegisters_handlerState (s : State) (n : BitVec 6) (ret : CodeAddr) (isUnderflow : Bool) :
    KeepsRegisters s (handlerState n ret isUnderflow s) (· = physIndex (entryWindow isUnderflow s) 15) := by
  intro q hq
  exact phys_setReg_other (s.enter n (entryWindow isUnderflow s)) 15 _ (by rwa [cwp_enter])

theorem reg_link_handlerState {s : State} (n : BitVec 6) (ret : CodeAddr) {isUnderflow : Bool}
    (hm : s.Mapped (entryWindow isUnderflow s)) : (handlerState n ret isUnderflow s).reg 15 = halfOfCode ret :=
  reg_setReg_same (s.enter n (entryWindow isUnderflow s)) 15 _ (reachable_of_mapped _ _ (by rwa [cwp_enter]))

theorem entersHandler_handlerState {s : State} (n : BitVec 6) (ret : CodeAddr) {isUnderflow : Bool}
    (hm : s.Mapped (entryWindow isUnderflow s)) :
    EntersHandler s (handlerState n ret isUnderflow s) n ret s.status (entryWindow isUnderflow s) where
  istatus := rfl
  cwp := cwp_handlerState s n ret isUnderflow
  ie := ie_enter s n _
  ipri := ipri_enter s n _
  flags := flags_enter s n _
  link := by rw [reg_link_handlerState n ret hm, halfOfCode_toNat]
  pc := codeOfHalf_toNat _
  idle := idle_divert _ _
  memory := ⟨fun _ => rfl, rfl⟩
  wvalid := rfl
  cfg := rfl
  irqInputs := rfl
  busWrites := rfl
  freeCount := rfl

/-! ### The instruction that raises the exception -/

/-- What an instruction that raises an exception leaves as it was before the exception is taken: all that a handler's
entry is said to keep, and what the vector fetch reads. -/
structure KeepsForEntry (s u : State) : Prop where
  cfg : u.cfg = s.cfg
  flags : u.flags = s.flags
  mem : u.mem = s.mem
  tableWritten : u.tableWritten = s.tableWritten
  wvalid : u.wvalid = s.wvalid
  irqInputs : u.irqInputs = s.irqInputs
  busWrites : u.busWrites = s.busWrites
  freeCount : u.freeCount = s.freeCount

theorem keepsForEntry_retire (s : State) (p : CodeAddr) : KeepsForEntry s (s.retire p) :=
  ⟨rfl, rfl, rfl, rfl, rfl, rfl, rfl, rfl⟩

theorem keepsForEntry_savedState (s : State) (m : BitVec 8) : KeepsForEntry s (savedState s m) :=
  ⟨rfl, flags_setCwp s _, rfl, rfl, rfl, rfl, rfl, rfl⟩

theorem keepsForEntry_restoredState (s : State) : KeepsForEntry s (restoredState s) :=
  ⟨rfl, flags_setCwp s _, rfl, rfl, rfl, rfl, rfl, rfl⟩

/-- Whether an entry can be read depends on the memory map and the table's marks alone. -/
theorem KeepsForEntry.vectorReadable {s u : State} (h : KeepsForEntry s u) {n : BitVec 6} (hv : s.VectorReadable n) :
    u.VectorReadable n := by
  simpa only [State.VectorReadable, State.Readable, State.kindAt, State.tableByte, h.cfg, h.tableWritten] using hv

theorem KeepsForEntry.wordAt {s u : State} (h : KeepsForEntry s u) (a : Nat) : u.wordAt a = s.wordAt a := by
  simp only [State.wordAt, State.byteAt, h.mem]

/-- The handler that is entered from the state an instruction made is entered from the one it began in. -/
theorem KeepsForEntry.entersHandler {s u t : State} (h : KeepsForEntry s u) {n : BitVec 6} {ret : CodeAddr}
    {saved : Half} {w : BitVec 5} (he : EntersHandler u t n ret saved w) : EntersHandler s t n ret saved w :=
  { he with
    flags := he.flags.trans h.flags
    pc := by rw [he.pc, h.wordAt, h.cfg]
    memory := by
      obtain ⟨hbytes, htable⟩ := he.memory
      exact ⟨fun a => (hbytes a).trans (congrArg (Memory.read · a) h.mem), htable.trans h.tableWritten⟩
    wvalid := he.wvalid.trans h.wvalid
    cfg := he.cfg.trans h.cfg
    irqInputs := he.irqInputs.trans h.irqInputs
    busWrites := he.busWrites.trans h.busWrites
    freeCount := he.freeCount.trans h.freeCount }

/-! ### TRAP -/

theorem execTrap_next {s : State} {n : BitVec 6} (hs : s.ReadyAlone) (hfits : s.pcFits 2) (h0 : s.cwp ≠ 0)
    (hm : s.Mapped (s.cwp - 1)) (hv : s.VectorReadable n) :
    execTrap n s = .next (handlerState n (s.pc + 2) false (s.retire (s.pc + 2))) := by
  obtain ⟨hn, hbt⟩ := hs
  have hread := (keepsForEntry_retire s (s.pc + 2)).vectorReadable hv
  exact (execTrap_next_iff n s _).2 ⟨hn, hbt, hfits, takeException_eq _ hread (.inr h0) hm⟩

/-- Settles O50: the exception is taken from the state at the end of the instruction, with no test of IE or IPRI. -/
theorem trapEntersHandler : Obligations.TrapEntersHandler := by
  intro s n hs hfits h0 hm hv
  have hkeeps := keepsForEntry_retire s (s.pc + 2)
  exact ⟨_, execTrap_next hs hfits h0 hm hv,
    hkeeps.entersHandler (entersHandler_handlerState (isUnderflow := false) n (s.pc + 2) hm),
    keepsRegisters_handlerState (s.retire (s.pc + 2)) n (s.pc + 2) false⟩

/-! ### The window exceptions -/

/-- A window exception that arose is taken where IE and IPRI let it through (R278). -/
theorem windowException_eq_takeException {s : State} {n : BitVec 6} {w limit : BitVec 5} (isUnderflow : Bool)
    (hlimit : w = limit) (hie : s.ie = true) (hpri : n.toNat < s.ipri.toNat) :
    windowException (w == limit) n isUnderflow s = takeException n s.pc isUnderflow s := by
  simp [windowException, processes, hlimit, hie, hpri]

theorem mapped_below {s : State} (h0 : s.cwp ≠ 0) (hm : s.Mapped s.cwp) : s.Mapped (s.cwp - 1) := by
  have hbelow : (s.cwp - 1).toNat ≤ s.cwp.toNat := (toNat_sub_one h0).trans_le (Nat.sub_le _ _)
  exact hbelow.trans hm

/-- An underflow opens no window but the one that its SAVE has opened (R272, R280). -/
theorem entryWindow_savedState (s : State) (m : BitVec 8) : entryWindow true (savedState s m) = s.cwp - 1 :=
  cwp_savedState s m

/-- An overflow opens the window that its RESTORE has left (R273). -/
theorem entryWindow_restoredState (s : State) : entryWindow false (restoredState s) = s.cwp := by
  have hcwp : (restoredState s).cwp = s.cwp + 1 := cwp_setCwp s _
  simp only [entryWindow, hcwp, Bool.false_eq_true, if_false, BitVec.add_sub_cancel]

theorem mapped_entryWindow_savedState {s : State} (m : BitVec 8) (h0 : s.cwp ≠ 0) (hm : s.Mapped s.cwp) :
    (savedState s m).Mapped (entryWindow true (savedState s m)) :=
  (entryWindow_savedState s m).symm ▸ mapped_below h0 hm

theorem mapped_entryWindow_restoredState {s : State} (hm : s.Mapped s.cwp) :
    (restoredState s).Mapped (entryWindow false (restoredState s)) :=
  (entryWindow_restoredState s).symm ▸ hm

theorem execSave_underflow {s : State} (m : BitVec 8) (hs : s.Ready) (h0 : s.cwp ≠ 0) (hm : s.Mapped s.cwp)
    (hlimit : s.cwp = s.loLimit) (hie : s.ie = true) (hpri : 1 < s.ipri.toNat) (hv : s.VectorReadable 1) :
    execSave m s = .next (handlerState 1 s.followPc true (savedState s m)) := by
  have hread := (keepsForEntry_savedState s m).vectorReadable hv
  have hie' : (savedState s m).ie = true := (ie_setCwp s _).trans hie
  have hpri' : (1 : BitVec 6).toNat < (savedState s m).ipri.toNat := (ipri_setCwp s _).symm ▸ hpri
  refine (execSave_next_iff m s _).2 ⟨hs.1, reachable_of_mapped _ _ hm, h0, reachable_window_below h0 hm _, hs.2, ?_⟩
  exact (windowException_eq_takeException true hlimit hie' hpri').trans
    (takeException_eq _ hread (.inl rfl) (mapped_entryWindow_savedState m h0 hm))

/-- The handler's link is not the stack pointer that SAVE wrote (R23). -/
theorem reg_sp_handlerState (s : State) (n : BitVec 6) (ret : CodeAddr) :
    (handlerState n ret true s).reg 14 = s.reg 14 := by
  refine reg_eq_of_phys ?_
  rw [cwp_handlerState]
  exact keepsRegisters_handlerState s n ret true _ (physIndex_ne _ (by decide))

/-- Settles O47: the exception is taken from the state that SAVE made. -/
theorem saveUnderflowEntersHandler : Obligations.SaveUnderflowEntersHandler := by
  intro s m hs h0 hm hlimit hie hpri hv
  have hwindow := entryWindow_savedState s m
  have henter := entersHandler_handlerState 1 s.followPc (mapped_entryWindow_savedState m h0 hm)
  have hregs := keepsRegisters_handlerState (savedState s m) 1 s.followPc true
  rw [hwindow] at henter hregs
  refine ⟨_, execSave_underflow m hs h0 hm hlimit hie hpri hv, (keepsForEntry_savedState s m).entersHandler henter,
    (reg_sp_handlerState _ _ _).trans (reg_savedState_sp m h0 hm), fun q hq => ?_⟩
  obtain ⟨hsp, hlink⟩ := not_or.1 hq
  exact (hregs q hlink).trans (keepsRegisters_savedState s m q hsp)

theorem execRestore_overflow {s : State} (hs : s.Ready) (h31 : s.cwp ≠ 31) (hm : s.Mapped s.cwp)
    (hlimit : s.cwp = s.hiLimit) (hie : s.ie = true) (hpri : 2 < s.ipri.toNat) (hv : s.VectorReadable 2) :
    execRestore s = .next (handlerState 2 s.followPc false (restoredState s)) := by
  have hread := (keepsForEntry_restoredState s).vectorReadable hv
  have habove : (restoredState s).cwp ≠ 0 := (cwp_setCwp s _).trans_ne (add_one_ne_zero h31)
  have hie' : (restoredState s).ie = true := (ie_setCwp s _).trans hie
  have hpri' : (2 : BitVec 6).toNat < (restoredState s).ipri.toNat := (ipri_setCwp s _).symm ▸ hpri
  refine (execRestore_next_iff s _).2 ⟨hs.1, h31, hs.2, ?_⟩
  exact (windowException_eq_takeException false hlimit hie' hpri').trans
    (takeException_eq _ hread (.inr habove) (mapped_entryWindow_restoredState hm))

/-- Settles O49: the exception is taken from the state that RESTORE made, and its window is the one RESTORE left. -/
theorem restoreOverflowEntersHandler : Obligations.RestoreOverflowEntersHandler := by
  intro s hs h31 hm hlimit hie hpri hv
  have hwindow := entryWindow_restoredState s
  have henter := entersHandler_handlerState 2 s.followPc (mapped_entryWindow_restoredState hm)
  have hregs := keepsRegisters_handlerState (restoredState s) 2 s.followPc false
  rw [hwindow] at henter hregs
  exact ⟨_, execRestore_overflow hs h31 hm hlimit hie hpri hv, (keepsForEntry_restoredState s).entersHandler henter,
    hregs⟩

/-! ### TRET -/

/-- Settles O51: the operand is a register of the state before STATUS changes. -/
theorem tretRestoresStatus : Obligations.TretRestoresStatus := by
  rintro s a ⟨hn, hbt⟩ ha
  refine ⟨_, (execTret_next_iff a s _).2 ⟨hn, hbt, ha, rfl⟩, ?_⟩
  exact ⟨rfl, rfl, codeOfHalf_toNat _, idle_retire _ _, rfl, rfl, rfl, rfl, rfl, fun _ _ => rfl, ⟨fun _ => rfl, rfl⟩⟩

/-! ### RDCTL -/

/-- What RDCTL does to the register: the word that the read of control register K answers (R257). -/
def rdctlEffect (a : RegIdx) (s : State) : Res State := do
  let (v, t) ← readControl s s.k
  writeReg t a v

theorem exec_rdctl (a : RegIdx) (s : State) : exec (.rdctl a) s = ordinary false s (rdctlEffect a) := rfl

theorem rdctlEffect_eq {s : State} {a : RegIdx} {v : Word} (ha : s.reachable a = true)
    (hread : readControl s s.k = .ok (v, s)) : rdctlEffect a s = .ok (s.setReg a v) := by
  rw [rdctlEffect, hread]
  exact writeReg_eq s a v ha

/-- RDCTL of a control register whose read changes nothing (R258). -/
theorem rdctl_next {s : State} {a : RegIdx} {v : Word} (hs : s.Ready) (ha : s.reachable a = true)
    (hread : readControl s s.k = .ok (v, s)) :
    ∃ t, exec (.rdctl a) s = .next t ∧ t.reg a = v ∧ WritesOnly s t a ∧ t.flags = s.flags ∧ Follows s t :=
  setReg_next (P := (· = v)) (exec_rdctl a s) hs ha (rdctlEffect_eq ha hread) rfl

/-- Settles O54: the reads of numbers 0, 1 and 2 answer what the registers hold and change nothing. -/
theorem rdctlReadsControlRegisters : Obligations.RdctlReadsControlRegisters := by
  intro s a hs ha
  refine ⟨fun hk => rdctl_next hs ha ?status, fun hk => rdctl_next hs ha ?istatus, fun hk => rdctl_next hs ha ?wvalid⟩
  all_goals rw [hk]; rfl

end Sys2Proof.Proofs
end

section
/-! PROOFS. External interrupts, taken and not taken, and the return from a TRAP whose handler does nothing (spec
60_exceptions.md R275, R276, R280 to R283, R288). -/

namespace Sys2Proof.Proofs

open Sys2Proof.Machine

/-! ### Which request is accepted -/

/-- The conditions of R276, and the two of D9 and D19 (log 19). -/
theorem accepts_iff (s : State) (n : BitVec 6) :
    accepts s n = true ↔
      s.ie = true ∧ n.toNat < s.ipri.toNat ∧ s.pfxf = false ∧ s.bt = none ∧ s.nopReq = false := by
  simp [accepts, and_assoc]

/-- A step takes the interrupt that its sample requests, where it is accepted (R275, R276). -/
theorem interruptNow_of_accepts {s : State} {n : BitVec 6} {later : List (Option (BitVec 6))}
    (hreq : s.irqInputs = some n :: later) (hacc : accepts s n = true) : interruptNow s = some n := by
  simp [interruptNow, hreq, hacc]

theorem interruptNow_of_not_accepts {s : State} {n : BitVec 6} {later : List (Option (BitVec 6))}
    (hreq : s.irqInputs = some n :: later) (hacc : accepts s n ≠ true) : interruptNow s = none := by
  simp [interruptNow, hreq, hacc]

/-- With `irq` 0 there is no interrupt to take (R275). -/
theorem interruptNow_of_no_request {s : State}
    (h : s.irqInputs = [] ∨ ∃ later, s.irqInputs = none :: later) : interruptNow s = none := by
  rcases h with hend | ⟨later, hnone⟩
  · simp [interruptNow, hend]
  · simp [interruptNow, hnone]

theorem step_of_interruptNow_some {s : State} {n : BitVec 6} (h : interruptNow s = some n) :
    step s = interruptStep n s.sampled := by
  simp [step, h]

/-- Settles O9: each of the listed cases denies one of the conditions under which a request is accepted. -/
theorem otherInterruptsAreIgnored : Obligations.OtherInterruptsAreIgnored := by
  intro s h
  refine step_of_interruptNow_none ?_
  rcases h with hend | hnone | ⟨n, later, hreq, hwhy⟩
  · exact interruptNow_of_no_request (.inl hend)
  · exact interruptNow_of_no_request (.inr hnone)
  · refine interruptNow_of_not_accepts hreq fun hacc => ?_
    obtain ⟨hie, hpri, hpfx, hbt, hnop⟩ := (accepts_iff s n).1 hacc
    rcases hwhy with hie' | hpri' | hpfx' | hbt' | hnop'
    · exact Bool.false_ne_true (hie'.symm.trans hie)
    · exact hpri'.not_gt hpri
    · exact Bool.false_ne_true (hpfx.symm.trans hpfx')
    · exact hbt' hbt
    · exact Bool.false_ne_true (hnop.symm.trans hnop')

/-! ### An interrupt that is taken -/

/-- The pc is the return location: the instruction there did not yet run (R276, R281). -/
theorem interruptStep_next {s : State} {n : BitVec 6} (h0 : s.cwp ≠ 0) (hm : s.Mapped (s.cwp - 1))
    (hv : s.VectorReadable n) : interruptStep n s = .next (handlerState n s.pc false s) := by
  have htake : takeException n s.pc false s = .ok (handlerState n s.pc false s) :=
    takeException_eq s.pc hv (.inr h0) hm
  rw [interruptStep, htake, outcome_ok]

/-- Settles O8: the exception is taken from the state that the environment's writes and the sample leave. -/
theorem acceptedInterruptEntersHandler : Obligations.AcceptedInterruptEntersHandler := by
  intro s n later hreq hie hpri hpfx hbt hnop h0 hm hv
  have hacc : accepts s n = true := (accepts_iff s n).2 ⟨hie, hpri, hpfx, hbt, hnop⟩
  have hstep : step s = interruptStep n s.sampled := step_of_interruptNow_some (interruptNow_of_accepts hreq hacc)
  have henter : EntersHandler s.sampled (handlerState n s.pc false s.sampled) n s.pc s.status (s.cwp - 1) :=
    entersHandler_handlerState (isUnderflow := false) n s.pc hm
  have hlater : s.sampled.irqInputs = later := by rw [State.sampled_irqInputs, hreq, List.tail_cons]
  exact ⟨_, hstep.trans (interruptStep_next h0 hm hv), henter, henter.irqInputs.trans hlater,
    keepsRegisters_handlerState s.sampled n s.pc false⟩

/-! ### The return from a handler that does nothing -/

/-- The out registers of the window below are no registers of a window (R23). -/
theorem physIndex_ne_out_below {w : BitVec 5} (h : w ≠ 0) (i : RegIdx) {j : RegIdx} (h8 : 8 ≤ j.toNat)
    (h16 : j.toNat < 16) : physIndex w i ≠ physIndex (w - 1) j := by
  have hpos : w.toNat ≠ 0 := fun hz => h (BitVec.eq_of_toNat_eq hz)
  have hsub := toNat_sub_one h
  unfold physIndex
  split <;> split <;> omega

/-- A jump through half of an even address reaches the address (R224, R281). -/
theorem eq_of_toNat_eq_two_mul_half {p q : CodeAddr} (hq : q.getLsbD 0 = false) (h : p.toNat = 2 * (q.toNat / 2)) :
    p = q := by
  have heven := (getLsbD_zero_eq_false_iff q).1 hq
  apply BitVec.eq_of_toNat_eq
  omega

/-- A handler's window is mapped, so its TRET can read the link (R24, R256). -/
theorem reachable_link_of_entersHandler {s t : State} {n : BitVec 6} {ret : CodeAddr} {saved : Half}
    {w : BitVec 5} (h : EntersHandler s t n ret saved w) (hm : s.Mapped w) : t.reachable 15 = true :=
  reachable_of_mapped t 15 (by rwa [h.cwp, h.cfg])

/-- Settles O52: TRET finds STATUS in ISTATUS and the way back in the link, and the link lies outside the interrupted
window. -/
theorem trapAndReturnIsTransparent : Obligations.TrapAndReturnIsTransparent := by
  intro s n hs hfits h0 hm hv heven
  have hbelow : s.Mapped (s.cwp - 1) := mapped_below h0 hm
  obtain ⟨t, htrap, henter, htregs⟩ := trapEntersHandler s n hs hfits h0 hbelow hv
  obtain ⟨u, htret, hustatus, -, hupc, huidle, huwvalid, -, -, -, -, huregs, hubytes, hutable⟩ :=
    tretRestoresStatus t 15 ⟨henter.idle.nopReq, henter.idle.bt⟩ (reachable_link_of_entersHandler henter hbelow)
  obtain ⟨htbytes, httable⟩ := henter.memory
  have hpc : u.pc = s.pc + 2 :=
    eq_of_toNat_eq_two_mul_half (evenWith_add s (n := 2) rfl heven) (henter.link ▸ hupc)
  have hstatus : u.status = s.status := hustatus.trans henter.istatus
  have hcwp : u.cwp = s.cwp := congrArg cwpOf hstatus
  have hregs : KeepsRegisters s u (· = physIndex (s.cwp - 1) 15) := fun q hq =>
    (huregs q not_false).trans (htregs q hq)
  refine ⟨t, u, htrap, htret, hpc, hstatus, huidle, huwvalid.trans henter.wvalid,
    ⟨fun a => (hubytes a).trans (htbytes a), hutable.trans httable⟩, fun i => reg_eq_of_phys ?_, hregs⟩
  rw [hcwp]
  exact hregs _ (physIndex_ne_out_below h0 i (by decide) (by decide))

end Sys2Proof.Proofs
end

section
/-! PROOFS. The two checks that an instruction makes before its effect, and what stops at them: all but NOP where a NOP
is owed, and the forbidden instructions in a delay slot (spec 70_reset_and_hazards.md R311, R312, 10_state.md R49). -/

namespace Sys2Proof.Proofs

open Sys2Proof.Machine

/-! ### The checks that fail -/

theorem requireNopDone_error {s : State} {isNop : Bool} (hn : s.nopReq = true) (h : isNop = false) :
    requireNopDone s isNop = .error .nopRequired := by
  simp [requireNopDone, hn, h]

theorem requireNoSlot_error {s : State} (hb : s.bt ≠ none) : requireNoSlot s = .error .forbiddenInDelaySlot := by
  cases h : s.bt with
  | none => exact absurd h hb
  | some p => simp [requireNoSlot, h]

/-! ### Where an instruction makes them -/

/-- Every instruction first asks whether a NOP is owed, and answers for itself whether it is one (R49); MOV's answer
is in its operands (R195). -/
theorem exec_begins_with_nop_check (i : Instr) (s : State) :
    ∃ rest, exec i s = outcome (requireNopDone s i.isNop >>= rest) := by
  cases i with
  | mov a b =>
    have hnop : (Instr.mov a b).isNop = decide (a = 0 ∧ b = 0) := (Bool.decide_and (a = 0) (b = 0)).symm
    exact ⟨_, by rw [hnop]; rfl⟩
  | _ => exact ⟨_, rfl⟩

/-- The instructions of R311 are the transfers, the skips, PFX, TRAP and TRET; each asks next whether it stands in a
delay slot. -/
theorem exec_checks_slot_of_forbidden {i : Instr} (s : State) (h : i.forbiddenInSlot = true) :
    ∃ rest, exec i s = outcome (requireNopDone s false >>= fun _ => requireNoSlot s >>= rest) := by
  cases i with
  | br _ | bsr _ | jmp _ | call _ | lret | ret => exact ⟨_, rfl⟩
  | skp0 _ _ | skp1 _ _ | skprz _ | skprnz _ | skps _ => exact ⟨_, rfl⟩
  | if0 _ _ | if1 _ _ | ifrz _ | ifrnz _ | ifs _ => exact ⟨_, rfl⟩
  | pfx _ | trap _ | tret _ => exact ⟨_, rfl⟩
  | _ => exact absurd h Bool.false_ne_true

/-! ### The instructions that stop at them -/

theorem exec_refused_of_forbiddenInSlot {i : Instr} {s : State} (hn : s.nopReq = false) (hb : s.bt ≠ none)
    (h : i.forbiddenInSlot = true) : exec i s = .refused .forbiddenInDelaySlot := by
  obtain ⟨rest, hexec⟩ := exec_checks_slot_of_forbidden s h
  rw [hexec, requireNopDone_eq s false hn, res_bind_ok, requireNoSlot_error hb, res_bind_error, outcome_refused]

theorem exec_refused_of_nopReq {i : Instr} {s : State} (hn : s.nopReq = true) (h : i.isNop = false) :
    exec i s = .refused .nopRequired := by
  obtain ⟨rest, hexec⟩ := exec_begins_with_nop_check i s
  rw [hexec, requireNopDone_error hn h, res_bind_error, outcome_refused]

/-- Settles O57: both checks come before the operands are read, so no operand matters. -/
theorem hazardsStop : Obligations.HazardsStop := fun _ _ =>
  ⟨exec_refused_of_forbiddenInSlot, exec_refused_of_nopReq⟩

end Sys2Proof.Proofs
end
